-- ==== Sys2Proof/Word.lean ====
section
/-! DEFINITION. The word types of RICE-CORE (spec/00_scope.md R8, R10): bytes, which are also symbols, and the
16-bit words of the register port and of commands. -/

namespace Sys2Proof

/-- One byte of a channel, which is also one Symbol, an integer in [0,255] (R8, R70). -/
abbrev Byte := BitVec 8

/-- One 16-bit value of the host register port, and one command word (R8, R60, R90). -/
abbrev Word := BitVec 16

end Sys2Proof
end

