-- ==== Sys2Proof/Machine/State.lean ====
section
/-! DEFINITION. The state of RICE-CORE (spec/10_state.md R22 to R39) with its environment (R34, R35), the reset state
(R39), and the reasons a step can stop. -/

namespace Sys2Proof.Machine

/-- The error kinds of STATUS.ERR (R29). The codes 4 to 7 are never written (R29; log 14). -/
inductive ErrorKind where
  /-- 0: the command completed without error. -/
  | noError
  /-- 1: a needed channel is absent or a needed side is not open (R222). -/
  | invalidHandle
  /-- 2: a channel transaction answered Fail (R223). -/
  | ioFailure
  /-- 3: the word written to CMD encodes no command (R224). -/
  | illegalCommand
  deriving DecidableEq, Repr

/-- The decoder's state, DSTATE.DST (R27, R190). The value 3 is never held (R27; log 14). -/
inductive DecoderState where
  /-- 0: ScanningUnary, the initial state. -/
  | scan
  /-- 1: ReadingRemainder, only inside a running command. -/
  | rem
  /-- 2: the terminal state. -/
  | done
  deriving DecidableEq, Repr

/-- The source channel's answer to one SrcRead (R67). -/
inductive SrcReply where
  /-- The next byte of the source, now consumed. -/
  | byte (b : Byte)
  /-- The source is exhausted. -/
  | eoi
  /-- An underlying read error. -/
  | fail
  deriving DecidableEq, Repr

/-- What happens at one SrcRead: the channel answers, or reset is asserted while the read is in flight (R67, R250); or
what happens at every SrcRead from here on, for a source that never ends (R234). DESIGN CHOICE (log 2, log 3, log 4). -/
inductive SrcEvent where
  /-- The channel answers. -/
  | answer (r : SrcReply)
  /-- Reset is asserted first; `consumed` says whether the read took the source's next byte (U6). -/
  | reset (consumed : Bool)
  /-- From here on the source yields `b` and then `more`, over and over: bytes forever, never EOI or Fail (R234). -/
  | endless (b : Byte) (more : List Byte)
  deriving DecidableEq, Repr

/-- The sink channel's answer to one SnkWrite (R68). -/
inductive SnkReply where
  /-- The byte is appended to the sink's output. -/
  | ok
  /-- An underlying write error. -/
  | fail
  deriving DecidableEq, Repr

/-- What happens at one SnkWrite: the channel accepts the byte, or fails, or reset is asserted while the write is in
flight (R68, R250). `kept` says whether the byte reached the sink's output (U5, U6). Or what happens at every SnkWrite
from here on, for a sink that takes every byte of an endless run (R234). DESIGN CHOICE (log 2, log 3, log 4, log 10). -/
inductive SnkEvent where
  /-- The channel answers Ok. -/
  | ok
  /-- The channel answers Fail; the sink kept the byte or did not (U5). -/
  | fail (kept : Bool)
  /-- Reset is asserted first; the byte reached the sink or did not (U6). -/
  | reset (kept : Bool)
  /-- From here on the channel answers every write with Ok (R68, R234). -/
  | okForever
  deriving DecidableEq, Repr

/-- What the outside world does next, between commands: a transaction of the host on the register port (R61, R62), the
reset input (R250), or the environment attaching or detaching a channel (R34, R69, R79). An attached channel comes with
the answers it will give (R67, R68). DESIGN CHOICE (log 5, log 15). -/
inductive HostEvent where
  /-- `RegRead(a)` (R61). -/
  | read (a : BitVec 3)
  /-- `RegWrite(a, v)` (R62). -/
  | write (a : BitVec 3) (v : Word)
  /-- Reset, or power-on, with no command running (R250, R252). -/
  | reset
  /-- A source channel is attached, in place of the one attached before. -/
  | attachSource (answers : List SrcEvent)
  /-- The source channel is detached. -/
  | detachSource
  /-- A sink channel is attached, in place of the one attached before. -/
  | attachSink (answers : List SnkEvent)
  /-- The sink channel is detached. -/
  | detachSink
  deriving DecidableEq, Repr

/-- The core's registers field by field (R22 to R27), the environment (R34, R35) and the count of free values drawn
(log 7). INVENTORY.md lists each with its width and reset value. -/
@[ext]
structure State where
  /-- CFG.K: the parameter k (R22). -/
  k : BitVec 3
  /-- STATUS.ERR: the error kind of the last completed command (R23, R29). -/
  err : ErrorKind
  /-- STATUS.WOPEN: a write handle is open (R23, R33). -/
  wopen : Bool
  /-- STATUS.ROPEN: a read handle is open (R23, R33). -/
  ropen : Bool
  /-- STATUS.DOVF: a code word decoded since OPEN_RD or the start of DECODE had a value above 255 (R23). -/
  dovf : Bool
  /-- RESULT.DATA (R24). -/
  data : Byte
  /-- RESULT.EOS: the command ended at end of stream (R24). -/
  eos : Bool
  /-- WSTATE.WACC: the pending write bits, right-justified (R25, R30). -/
  wacc : Byte
  /-- WSTATE.WCNT: the number of pending write bits (R25). -/
  wcnt : BitVec 3
  /-- RSTATE.RBUF: the last byte the read side took (R26, R31). -/
  rbuf : Byte
  /-- RSTATE.RCNT: the number of bits of RBUF not yet consumed (R26). -/
  rcnt : BitVec 4
  /-- RSTATE.REOI: the source has answered EOI in this read pass (R26, R32). -/
  reoi : Bool
  /-- DSTATE.Q: the quotient counter (R27, R192). -/
  q : Byte
  /-- DSTATE.DST: the decoder's state (R27, R190). -/
  dst : DecoderState
  /-- SRC_PRESENT: a source channel is attached (R34). -/
  srcPresent : Bool
  /-- SNK_PRESENT: a sink channel is attached (R34). -/
  snkPresent : Bool
  /-- The source oracle: what happens at each coming SrcRead (R67; log 2). -/
  source : List SrcEvent
  /-- The sink oracle: what happens at each coming SnkWrite (R68; log 2). -/
  sink : List SnkEvent
  /-- The sink's record: every byte it has accepted, oldest first (R35, R77; log 13). -/
  output : List Byte
  /-- The host's program: what the outside world does next (R35, R73; log 5). -/
  host : List HostEvent
  /-- The values the host's register reads have returned, oldest first (R61, R100). -/
  readLog : List Word
  /-- The model's own field: how many free values have been drawn (log 7). -/
  draws : Nat
  deriving DecidableEq, Repr

/-- The machine right after reset: every register field at R39's value. The environment is no core state and reset
does not set it (R35, R250): both channels attached, as spec/95_test_vectors.md section 3 starts its programs, with no
answer, no output and no host transaction listed. DESIGN CHOICE (log 6) for the environment's fields and (log 7) for
`draws`; unsafe for what a claim about this one state says of the environment. -/
def State.reset : State where
  k := 0#3
  err := .noError
  wopen := false
  ropen := false
  dovf := false
  data := 0#8
  eos := false
  wacc := 0#8
  wcnt := 0#3
  rbuf := 0#8
  rcnt := 0#4
  reoi := false
  q := 0#8
  dst := .scan
  srcPresent := true
  snkPresent := true
  source := []
  sink := []
  output := []
  host := []
  readLog := []
  draws := 0

/-- The reasons a step stops the run (R234). -/
inductive Fault where
  /-- `fault KRange`: ENC_SYM, ENCODE, DEC_SYM or DECODE read K = 0 after its handle check (R228, U1; log 8). Raised by those
  four. Safe: the spec itself has a model stop here, and admits no run for K = 0. -/
  | kRange
  /-- stuck: the source channel never answers the SrcRead in flight, so the command never ends (R67, R234, U8). Raised
  by GET_BIT, GET_BITS, DEC_SYM, ENCODE and DECODE when `source` lists no further event. Safe: the hardware waits too. -/
  | sourceNeverAnswers
  /-- stuck: the sink channel never answers the SnkWrite in flight (R68, R234, U8). Raised by PUT_BIT, PUT_BITS, FLUSH,
  ENC_SYM, ENCODE and DECODE when `sink` lists no further event. Safe: the hardware waits too. -/
  | sinkNeverAnswers
  /-- hang: the command runs forever (R234). Raised by ENCODE and DECODE on a source that yields bytes forever, and by
  DEC_SYM on one that yields 1-bits forever. Safe: an infinite execution has no next state in the hardware either. -/
  | hang
  /-- no move: the environment detaches, or replaces, a channel that an open side is bound to (R69, R234, R265). Raised
  by an attach or detach event, by no command. The spec gives such a run no move, so that no claim covers it; it errs
  toward proving, as R234 says, and is unsafe for an environment that breaks R265. -/
  | liveChannelDetached
  deriving DecidableEq, Repr

/-- The reasons for which an instruction would have no meaning. The spec needs none (R234). -/
inductive Refusal where
  /-- A command not modelled yet, by its mnemonic. Raised by no command: every command of the table has its meaning.
  Safe. -/
  | notModelled (mnemonic : String)
  deriving DecidableEq, Repr

end Sys2Proof.Machine
end

