-- ==== Sys2Proof/Machine/Flags.lean ====
section
/-! DEFINITION. The register values as the host reads them (spec/10_state.md R22 to R29; spec/20_memory.md R61), and
the writes of STATUS.ERR and RESULT (spec/60_exceptions.md R225; spec/10_state.md R24). -/

namespace Sys2Proof.Machine

/-- The code of an error kind in STATUS.ERR (R29). -/
def errorCode : ErrorKind → BitVec 3
  | .noError => 0#3
  | .invalidHandle => 1#3
  | .ioFailure => 2#3
  | .illegalCommand => 3#3

/-- The code of a decoder state in DSTATE.DST (R27). -/
def decoderCode : DecoderState → BitVec 2
  | .scan => 0#2
  | .rem => 1#2
  | .done => 2#2

/-- CFG as read: K in bits [2:0] (R22, R61). -/
def cfgWord (s : State) : Word := s.k.setWidth 16

/-- STATUS as read: DOVF, ROPEN, WOPEN and ERR in bits 5, 4, 3 and [2:0] (R23, R61). -/
def statusWord (s : State) : Word :=
  (BitVec.ofBool s.dovf ++ BitVec.ofBool s.ropen ++ BitVec.ofBool s.wopen ++ errorCode s.err).setWidth 16

/-- RESULT as read: EOS in bit 8, DATA in bits [7:0] (R24, R61). -/
def resultWord (s : State) : Word := (BitVec.ofBool s.eos ++ s.data).setWidth 16

/-- WSTATE as read: WCNT in bits [10:8], WACC in bits [7:0] (R25, R61). -/
def wstateWord (s : State) : Word := (s.wcnt ++ s.wacc).setWidth 16

/-- RSTATE as read: REOI in bit 12, RCNT in bits [11:8], RBUF in bits [7:0] (R26, R61). -/
def rstateWord (s : State) : Word := (BitVec.ofBool s.reoi ++ s.rcnt ++ s.rbuf).setWidth 16

/-- DSTATE as read: DST in bits [9:8], Q in bits [7:0] (R27, R61). -/
def dstateWord (s : State) : Word := (decoderCode s.dst ++ s.q).setWidth 16

/-- Writing STATUS.ERR (R225). -/
def setErr (e : ErrorKind) (s : State) : State := { s with err := e }

/-- RESULT of a get that gave a value: DATA holds it and EOS is 0 (R24). -/
def setResult (v : Byte) (s : State) : State := { s with data := v, eos := false }

/-- RESULT of a get that met end of stream: EOS is 1 and DATA is `draw8()`, a free value (R24, U3; log 7). -/
def setEndOfStream (v : Byte) (s : State) : State := { s with data := v, eos := true }

end Sys2Proof.Machine
end

