-- ==== Sys2Proof/Config.lean ====
section
/-! DEFINITION. What the hardware fixes (spec/00_scope.md R8) and what the spec leaves free (spec/00_scope.md R13,
`draw8()`). -/

namespace Sys2Proof.Config

/-- `W`, the width of a symbol and of a byte (R8). -/
def symbolWidth : Nat := 8

/-- `K_MIN`, the smallest k for coding (R8, R22). -/
def kMin : Nat := 1

/-- `K_MAX`, the largest k (R8). -/
def kMax : Nat := 7

/-- `PUT_MAX`, the largest count one multi-bit put or get moves (R8). -/
def putMax : Nat := 8

/-- The value at which the quotient counter saturates (R8, R192). -/
def qMax : Nat := 255

/-- The byte of the `n`-th `draw8()` of a run: an unconstrained value (R13; spec/93_implementation_defined.md U3, U4).
DESIGN CHOICE (log 7): a constant with no body, so that nothing can be proved of the value; safe. -/
opaque draw8 : Nat → Byte

end Sys2Proof.Config
end

