-- ==== Sys2Proof/Syntax.lean ====
section
/-! DEFINITION. The command set, one constructor per row of spec/opcode_table.json (spec/30_encoding.md R92). A word
that encodes no command (R95) is no `Instr`: the decoder refuses it by name. -/

namespace Sys2Proof

/-- A RICE-CORE command with its operands (R90, R92). Every operand is an unsigned field (R91). -/
inductive Instr where
  /-- OPEN_WR: open the write side (R130). -/
  | openWr
  /-- OPEN_RD: open the read side and reset the decoder (R131). -/
  | openRd
  /-- CLOSE: discard the sides SEL selects, bit 0 the write side, bit 1 the read side (R132). -/
  | close (sel : BitVec 2)
  /-- PUT_BIT: append the bit B (R133). -/
  | putBit (b : Bool)
  /-- PUT_BITS: append the low N bits of D, the first written being D[N-1] (R134). -/
  | putBits (n : BitVec 4) (d : Byte)
  /-- GET_BIT: take one bit (R135). -/
  | getBit
  /-- GET_BITS: take N bits (R136). -/
  | getBits (n : BitVec 4)
  /-- FLUSH: pad and emit a partial trailing byte, F being the fill bit (R137). -/
  | flush (f : Bool)
  /-- ENC_SYM: encode the symbol S (R173). -/
  | encSym (s : Byte)
  /-- DEC_SYM: decode one symbol (R196). -/
  | decSym
  /-- ENCODE: one whole encode pass from the source channel to the sink channel (R174). -/
  | encodePass
  /-- DECODE: one whole decode pass from the source channel to the sink channel (R197). -/
  | decodePass
  deriving DecidableEq, Repr

end Sys2Proof
end

