-- ==== Sys2Proof/WellFormed.lean ====
section
/-! DEFINITION. Which commands a word can encode: a count is at most 8 (spec/30_encoding.md R92, R95 item 3). Every
other operand fills its field, so its type already bounds it. -/

namespace Sys2Proof

/-- The one check on a command's operands: N ≤ 8 in PUT_BITS and GET_BITS (R92). -/
def Instr.wellFormed : Instr → Bool
  | .openWr => true
  | .openRd => true
  | .close _ => true
  | .putBit _ => true
  | .putBits n _ => n.toNat ≤ Config.putMax
  | .getBit => true
  | .getBits n => n.toNat ≤ Config.putMax
  | .flush _ => true
  | .encSym _ => true
  | .decSym => true
  | .encodePass => true
  | .decodePass => true

end Sys2Proof
end

