-- ==== Sys2Proof/Decode.lean ====
section
/-! DEFINITION. The decoder of command words, total and rejecting by name (spec/30_encoding.md R90 to R97), and after
it the encoder, written from the same table. -/

namespace Sys2Proof

/-- Why a word is illegal (R95). All illegal words behave the same way (R224); the names only say which of R95's three
ways a word is illegal in. -/
inductive DecodeError where
  /-- R95 item 1: OP is 0x0, 0xD, 0xE or 0xF. -/
  | reservedOpcode
  /-- R95 item 2: a "must be 0" bit of the opcode's row is 1. -/
  | mustBeZero
  /-- R95 item 3: OP is 0x5 or 0x7 and N is 9 to 15. -/
  | countTooLarge
  deriving DecidableEq, Repr

/-- OP, bits [15:12] (R90). -/
def opField (w : Word) : BitVec 4 := w.extractLsb' 12 4

/-- N, bits [11:8] (R90). -/
def nField (w : Word) : BitVec 4 := w.extractLsb' 8 4

/-- D, bits [7:0] (R90). -/
def dField (w : Word) : Byte := w.extractLsb' 0 8

/-- `i` when the row's "must be 0" bits are 0 (R92). -/
def whenZero (mustBeZero : Bool) (i : Instr) : Except DecodeError Instr :=
  if mustBeZero then .ok i else .error .mustBeZero

/-- `Decode(w)` of R97: every word either encodes exactly one command or is illegal. -/
def decode (w : Word) : Except DecodeError Instr :=
  let op := opField w
  let n := nField w
  let d := dField w
  let low12Zero : Bool := n == 0#4 && d == 0#8
  if op = 0x1#4 then whenZero low12Zero .openWr
  else if op = 0x2#4 then whenZero low12Zero .openRd
  else if op = 0x3#4 then whenZero (n == 0#4 && d.extractLsb' 2 6 == 0#6) (.close (d.extractLsb' 0 2))
  else if op = 0x4#4 then whenZero (n == 0#4 && d.extractLsb' 1 7 == 0#7) (.putBit (d.getLsbD 0))
  else if op = 0x5#4 then if n.toNat ≤ Config.putMax then .ok (.putBits n d) else .error .countTooLarge
  else if op = 0x6#4 then whenZero low12Zero .getBit
  else if op = 0x7#4 then
    if n.toNat ≤ Config.putMax then whenZero (d == 0#8) (.getBits n) else .error .countTooLarge
  else if op = 0x8#4 then whenZero (n == 0#4 && d.extractLsb' 1 7 == 0#7) (.flush (d.getLsbD 0))
  else if op = 0x9#4 then whenZero (n == 0#4) (.encSym d)
  else if op = 0xA#4 then whenZero low12Zero .decSym
  else if op = 0xB#4 then whenZero low12Zero .encodePass
  else if op = 0xC#4 then whenZero low12Zero .decodePass
  else .error .reservedOpcode

/-- A one-bit operand in D[0], the other bits of D being 0 (R90). -/
def bitField (b : Bool) : Byte := if b then 1#8 else 0#8

/-- A command word from its three fields (R90). -/
def packWord (op n : BitVec 4) (d : Byte) : Word := op ++ n ++ d

/-- The word of a command (R92). A command that is not well formed has no word of its own: its fields are laid out
all the same, and the word is illegal. -/
def encode : Instr → Word
  | .openWr => packWord 0x1#4 0#4 0#8
  | .openRd => packWord 0x2#4 0#4 0#8
  | .close sel => packWord 0x3#4 0#4 (sel.setWidth 8)
  | .putBit b => packWord 0x4#4 0#4 (bitField b)
  | .putBits n d => packWord 0x5#4 n d
  | .getBit => packWord 0x6#4 0#4 0#8
  | .getBits n => packWord 0x7#4 n 0#8
  | .flush f => packWord 0x8#4 0#4 (bitField f)
  | .encSym s => packWord 0x9#4 0#4 s
  | .decSym => packWord 0xA#4 0#4 0#8
  | .encodePass => packWord 0xB#4 0#4 0#8
  | .decodePass => packWord 0xC#4 0#4 0#8

/-- The word that `nbits` bits of a command give, the bits above them being 0. A command is one 16-bit word (R99). -/
def tableWord (nbits w : Nat) : Word := BitVec.ofNat 16 (w % 2 ^ nbits)

/-- The command the decoder reads from a word of spec/opcode_table.json; none where it refuses. -/
def decodeTableWord (nbits w : Nat) : Option Instr :=
  match decode (tableWord nbits w) with
  | .ok i => some i
  | .error _ => none

end Sys2Proof
end

