-- ==== Sys2Proof/Machine/Operands.lean ====
section
/-! DEFINITION. Every operand form (spec/30_encoding.md R90, R91) and the arithmetic on operands that the packer, the
encoder and the decoder share (spec/00_scope.md R11). -/

namespace Sys2Proof.Machine

/-- SEL bit 0: CLOSE selects the write side (R90, R132). -/
def selectsWrite (sel : BitVec 2) : Bool := sel.getLsbD 0

/-- SEL bit 1: CLOSE selects the read side (R90, R132). -/
def selectsRead (sel : BitVec 2) : Bool := sel.getLsbD 1

/-- The count N of PUT_BITS and GET_BITS (R90). -/
def countOf (n : BitVec 4) : Nat := n.toNat

/-- Whether N is a count a command may have; a word with any other N is illegal (R95 item 3). -/
def countLegal (n : BitVec 4) : Bool := n.toNat ≤ Config.putMax

/-- A bit as a byte, `zext_8(b)` (R135). -/
def zextBit (b : Bool) : Byte := if b then 1#8 else 0#8

/-- `(v << 1) | b` in 8 bits: the next bit joins `v` as its least significant one (R120, R123). -/
def shiftIn (v : Byte) (b : Bool) : Byte := (v <<< 1) ||| zextBit b

/-- `symbol >> k`, the quotient (R170). -/
def quotient (s : Byte) (k : Nat) : Nat := s.toNat >>> k

/-- `symbol & ((1 << k) - 1)`, the remainder (R170). -/
def remainder (s : Byte) (k : Nat) : Byte := s &&& BitVec.ofNat 8 (1 <<< k - 1)

/-- `(q << k) | r`, the symbol of a quotient and a remainder (R194). -/
def joinSymbol (q r : Byte) (k : Nat) : Byte := (q <<< k) ||| r

/-- Whether a quotient gives a symbol in [0,255]: `q <= (255 >> k)` (R194). -/
def inDomain (q : Byte) (k : Nat) : Bool := q.toNat ≤ 255 >>> k

/-- `min(Q + 1, 255)` (R192). -/
def saturatingSucc (q : Byte) : Byte := BitVec.ofNat 8 (min (q.toNat + 1) Config.qMax)

end Sys2Proof.Machine
end

