-- ==== Sys2Proof/Machine/Ops.lean ====
section
/-! DEFINITION. The operations the commands are built of: ending a command, raising an error (spec/60_exceptions.md
R220), reset (spec/70_reset_and_hazards.md R250), the channel transactions (spec/20_memory.md R67, R68), the free value
(spec/00_scope.md R13), and the internal operations of the packer (spec/40_bitstream.md R120 to R129). -/

namespace Sys2Proof.Machine

/-- What an internal operation does: it goes on with a result, it ends the whole command (an error was raised, or
reset was asserted), or the run stops. -/
inductive Run (α : Type) where
  /-- The operation has its result `a` and the command goes on from `s`. -/
  | cont (a : α) (s : State)
  /-- The command is over, at `s` (R220, R250). -/
  | ended (s : State)
  /-- The run stops (R234). -/
  | stop (f : Fault)
  deriving DecidableEq, Repr

/-- The next step of a command, taken only where the command goes on. -/
def Run.andThen {α β : Type} (r : Run α) (g : α → State → Run β) : Run β :=
  match r with
  | .cont a s => g a s
  | .ended s => .ended s
  | .stop f => .stop f

/-- `raise E`: STATUS.ERR takes the kind, the command ends, and what it did before stands (R220). There is no trap: no
state is saved, no mode changes and control stays with the host (R230), and so there is no return from one (R231). -/
def raise {α : Type} (e : ErrorKind) (s : State) : Run α := .ended (setErr e s)

/-- How a command ends: one that ends without raise or fault sets ERR to 0 (R98, R225). -/
def complete (r : Run Unit) : Host.Outcome State Fault Refusal :=
  match r with
  | .cont _ s => .next (setErr .noError s)
  | .ended s => .next s
  | .stop f => .fault f

/-- Reset: every register field takes its reset value; the channels, the sink's output and the host are not reset
(R39, R250). -/
def resetCore (s : State) : State :=
  { State.reset with
    srcPresent := s.srcPresent, snkPresent := s.snkPresent, source := s.source, sink := s.sink,
    output := s.output, host := s.host, readLog := s.readLog, draws := s.draws }

/-- `draw8()`: the next free value, with the count of values drawn advanced (R13; log 7). -/
def draw (s : State) : Byte × State := (Config.draw8 s.draws, { s with draws := s.draws + 1 })

/-- The byte joins the sink's output (R68, R71). -/
def appendOutput (b : Byte) (s : State) : State := { s with output := s.output ++ [b] }

/-- A source that yields `bytes` and then does what `rest` lists. -/
def yields (bytes : List Byte) (rest : List SrcEvent) : List SrcEvent :=
  bytes.map (fun b => SrcEvent.answer (.byte b)) ++ rest

/-- What a source of endless periods lists once the first byte of a period is taken: the rest of the period, and the
periods again (R234; log 3). -/
def afterFirst (b : Byte) (more : List Byte) (rest : List SrcEvent) : List SrcEvent :=
  yields more (.endless b more :: rest)

/-- A source whose next byte was consumed by a read that reset cut off (R250, U6; log 4). -/
def dropByte : List SrcEvent → List SrcEvent
  | .answer (.byte _) :: rest => rest
  | .endless b more :: rest => afterFirst b more rest
  | events => events

/-- `SrcRead()`: one transaction on the source channel (R67). Reset while it is in flight abandons the command (R250). -/
def srcRead (s : State) : Run SrcReply :=
  match s.source with
  | [] => .stop .sourceNeverAnswers
  | .answer r :: rest => .cont r { s with source := rest }
  | .reset consumed :: rest =>
    .ended (resetCore { s with source := if consumed then dropByte rest else rest })
  | .endless b more :: rest => .cont (.byte b) { s with source := afterFirst b more rest }

/-- `SnkWrite(b)`: one transaction on the sink channel (R68). Reset while it is in flight abandons the command (R250). -/
def snkWrite (b : Byte) (s : State) : Run SnkReply :=
  match s.sink with
  | [] => .stop .sinkNeverAnswers
  | .ok :: rest => .cont .ok (appendOutput b { s with sink := rest })
  | .okForever :: rest => .cont .ok (appendOutput b { s with sink := .okForever :: rest })
  | .fail kept :: rest =>
    .cont .fail (if kept then appendOutput b { s with sink := rest } else { s with sink := rest })
  | .reset kept :: rest =>
    .ended (resetCore (if kept then appendOutput b { s with sink := rest } else { s with sink := rest }))

/-- `OpenW()` (R125). -/
def openW (s : State) : State := { s with wopen := true, wacc := 0#8, wcnt := 0#3 }

/-- `OpenR()` (R126). -/
def openR (s : State) : State :=
  { s with ropen := true, rbuf := 0#8, rcnt := 0#4, reoi := false, dst := .scan, q := 0#8, dovf := false }

/-- `CloseW()` (R127). -/
def closeW (s : State) : State := { s with wopen := false, wacc := 0#8, wcnt := 0#3 }

/-- `CloseR()`: DST, Q and DOVF are kept (R128). -/
def closeR (s : State) : State := { s with ropen := false, rbuf := 0#8, rcnt := 0#4, reoi := false }

/-- `AbortW()` (R129). -/
def abortW (s : State) : State := closeW s

/-- `AbortR()`: `CloseR()` followed by `DST <- DONE` (R129). -/
def abortR (s : State) : State := { closeR s with dst := .done }

/-- The end of `PutBitInt` once the sink has answered the byte's write: on Fail the write side is aborted and IOFailure
raised (R120, R129). -/
def byteSent (r : SnkReply) (s : State) : Run Unit :=
  match r with
  | .ok => .cont () s
  | .fail => raise .ioFailure (abortW s)

/-- `PutBitInt(b)`: one bit joins the accumulator, and the eighth emits the byte to the sink (R120). -/
def putBitInt (b : Bool) (s : State) : Run Unit :=
  let n := s.wcnt.toNat + 1
  let acc := shiftIn s.wacc b
  if n = 8 then (snkWrite acc { s with wacc := 0#8, wcnt := 0#3 }).andThen byteSent
  else .cont () { s with wacc := acc, wcnt := BitVec.ofNat 3 n }

/-- `PutBitsInt(n, v)`: the low n bits of v, `v[n-1]` first (R121). -/
def putBitsInt : Nat → Byte → State → Run Unit
  | 0, _, s => .cont () s
  | n + 1, v, s => (putBitInt (v.getLsbD n) s).andThen fun _ t => putBitsInt n v t

/-- `repeat n times: PutBitInt(b)` (R124, R172). -/
def putRepeat : Nat → Bool → State → Run Unit
  | 0, _, s => .cont () s
  | n + 1, b, s => (putBitInt b s).andThen fun _ t => putRepeat n b t

/-- `FlushInt(f)`: while bits are pending, one fill bit more. Each fill bit raises WCNT by one until the eighth bit
clears it, so the loop takes 8 - WCNT turns, and none when WCNT is 0 (R124). -/
def flushInt (f : Bool) (s : State) : Run Unit :=
  if s.wcnt.toNat = 0 then .cont () s else putRepeat (8 - s.wcnt.toNat) f s

/-- The next buffered bit, `RBUF[RCNT - 1]`, consumed (R31, R122). -/
def takeBit (s : State) : Run (Option Bool) :=
  .cont (some (s.rbuf.getLsbD (s.rcnt.toNat - 1))) { s with rcnt := s.rcnt - 1#4 }

/-- The end of `GetBitInt` once the source has answered the read of a byte: a byte is buffered and its first bit taken,
EOI is latched, and on Fail the read side is aborted and IOFailure raised (R32, R122, R129). -/
def byteRead (r : SrcReply) (s : State) : Run (Option Bool) :=
  match r with
  | .byte x => takeBit { s with rbuf := x, rcnt := 8#4 }
  | .eoi => .cont none { s with reoi := true }
  | .fail => raise .ioFailure (abortR s)

/-- `GetBitInt()`: the next bit of the stream, or none for EOS, a tag and never a data value (R14, R122). -/
def getBitInt (s : State) : Run (Option Bool) :=
  if s.rcnt = 0#4 then
    if s.reoi then .cont none s else (srcRead s).andThen byteRead
  else takeBit s

/-- The loop of `GetBitsInt` with `n` bits to take and `v` taken so far; on EOS the bits taken are lost (R123). -/
def getBitsFrom : Nat → Byte → State → Run (Option Byte)
  | 0, v, s => .cont (some v) s
  | n + 1, v, s => (getBitInt s).andThen fun r t =>
      match r with
      | some b => getBitsFrom n (shiftIn v b) t
      | none => .cont none t

/-- `GetBitsInt(n)`: n bits as a number, the first taken the most significant, or none for EOS (R123). -/
def getBitsInt (n : Nat) (s : State) : Run (Option Byte) := getBitsFrom n 0#8 s

/-- Writing RESULT at the end of a get: the value with EOS 0, or `draw8()` with EOS 1 (R24, R135, R136, R196, R197). -/
def writeResult (v : Option Byte) (s : State) : Run Unit :=
  match v with
  | some x => .cont () (setResult x s)
  | none => .cont () (setEndOfStream (draw s).1 (draw s).2)

end Sys2Proof.Machine
end

