-- ==== Sys2Proof/Machine/Bitstream.lean ====
section
/-! DEFINITION. The bit packer and unpacker commands (spec/40_bitstream.md R130 to R137). -/

namespace Sys2Proof.Machine

/-- OPEN_WR (R130). -/
def execOpenWr (s : State) : Host.Outcome State Fault Refusal :=
  complete (if s.snkPresent then .cont () (openW s) else raise .invalidHandle s)

/-- OPEN_RD (R131). -/
def execOpenRd (s : State) : Host.Outcome State Fault Refusal :=
  complete (if s.srcPresent then .cont () (openR s) else raise .invalidHandle s)

/-- CLOSE (R132). -/
def execClose (sel : BitVec 2) (s : State) : Host.Outcome State Fault Refusal :=
  let t := if selectsWrite sel then closeW s else s
  complete (.cont () (if selectsRead sel then closeR t else t))

/-- PUT_BIT (R133). -/
def execPutBit (b : Bool) (s : State) : Host.Outcome State Fault Refusal :=
  complete (if s.wopen then putBitInt b s else raise .invalidHandle s)

/-- PUT_BITS (R134). A count above 8 is no command's: its word is illegal, which is checked first (R95, R226; log 11). -/
def execPutBits (n : BitVec 4) (d : Byte) (s : State) : Host.Outcome State Fault Refusal :=
  complete <|
    if countLegal n then
      if s.wopen then putBitsInt (countOf n) d s else raise .invalidHandle s
    else raise .illegalCommand s

/-- GET_BIT (R135). -/
def execGetBit (s : State) : Host.Outcome State Fault Refusal :=
  complete <|
    if s.ropen then (getBitInt s).andThen fun r t => writeResult (r.map zextBit) t
    else raise .invalidHandle s

/-- GET_BITS (R136). A count above 8 is no command's: its word is illegal, which is checked first (R95, R226; log 11). -/
def execGetBits (n : BitVec 4) (s : State) : Host.Outcome State Fault Refusal :=
  complete <|
    if countLegal n then
      if s.ropen then (getBitsInt (countOf n) s).andThen writeResult else raise .invalidHandle s
    else raise .illegalCommand s

/-- FLUSH (R137). -/
def execFlush (f : Bool) (s : State) : Host.Outcome State Fault Refusal :=
  complete (if s.wopen then flushInt f s else raise .invalidHandle s)

end Sys2Proof.Machine
end

