-- ==== Sys2Proof/Machine/Decoder.lean ====
section
/-! DEFINITION. The decoder commands (spec/42_decoder.md R190 to R197). -/

namespace Sys2Proof.Machine

/-- `FormSym(r)`: the symbol of Q and the remainder, with Q and DST set for the next one; a value above 255 is a free
byte and sets DOVF (R194; U4, log 7). -/
def formSym (r : Byte) (s : State) : Run (Option Byte) :=
  let k := s.k.toNat
  let t := { s with q := 0#8, dst := .scan }
  if inDomain s.q k then .cont (some (joinSymbol s.q r k)) t
  else .cont (some (draw t).1) { (draw t).2 with dovf := true }

/-- One turn of the state machine's loop in SCAN and REM, `next` being the rest of the loop (R191). -/
def decodeTurn (next : State → Run (Option Byte)) (s : State) : Run (Option Byte) :=
  match s.dst with
  | .done => .cont none s
  | .scan => (getBitInt s).andThen fun r t =>
      match r with
      | none => .cont none { t with dst := .done }
      | some true => next { t with q := saturatingSucc t.q }
      | some false => next { t with dst := .rem }
  | .rem => (getBitsInt s.k.toNat s).andThen fun r t =>
      match r with
      | none => .cont none { t with dst := .done }
      | some x => formSym x t

/-- The loop of `DecSymInt` with at most `n` turns (R191). `decSymInt` gives it enough: where they run out the loop has no
end, which is hang (R234; log 17). -/
def decodeLoop : Nat → State → Run (Option Byte)
  | 0, _ => .stop .hang
  | n + 1, s => decodeTurn (decodeLoop n) s

/-- How many reads it takes to see all that a source lists: one for each event, and one more for each further byte of
an endless source's period. -/
def sourceReads : List SrcEvent → Nat
  | [] => 0
  | .endless _ more :: rest => more.length + 1 + sourceReads rest
  | _ :: rest => sourceReads rest + 1

/-- The most bits the read side can take before it has seen all that the source lists: those buffered, and eight for each
read. Every turn in SCAN takes one of them or ends the loop, and REM is the last turn, so one turn more is enough: an
endless source that has shown only 1-bits by then has no other (R200, R234; log 17). -/
def bitsAhead (s : State) : Nat := s.rcnt.toNat + 8 * sourceReads s.source

/-- `DecSymInt()`: the state machine runs until it emits one symbol or reaches DONE, which is none (R191). -/
def decSymInt (s : State) : Run (Option Byte) := decodeLoop (bitsAhead s + 1) s

/-- DEC_SYM (R196). -/
def execDecSym (s : State) : Host.Outcome State Fault Refusal :=
  complete <|
    if s.ropen then
      if s.k = 0#3 then .stop .kRange else (decSymInt s).andThen writeResult
    else raise .invalidHandle s

/-- The loop of DECODE, with at most `n` turns (R197). The turns are enough (`decodeTurns`): where they run out the pass
has no end, which is hang (R234; log 17). -/
def decodePassLoop : Nat → State → Run Unit
  | 0, _ => .stop .hang
  | n + 1, s => (decSymInt s).andThen fun r t =>
      match r with
      | some v => (snkWrite v t).andThen fun w u =>
          match w with
          | .ok => decodePassLoop n u
          | .fail => raise .ioFailure (abortR u)
      | none => (writeResult none t).andThen fun _ u => .cont () (closeR u)

/-- More turns than a pass of DECODE with an end can take. One on a source that ends takes at least one bit in every turn;
one on a sink that ends takes an event of it in every turn (log 17). -/
def decodeTurns (s : State) : Nat := 8 * sourceReads s.source + s.sink.length + 1

/-- DECODE (R197): both channels are checked before anything else (R226). -/
def execDecodePass (s : State) : Host.Outcome State Fault Refusal :=
  complete <|
    if s.srcPresent && s.snkPresent then
      if s.k = 0#3 then .stop .kRange else decodePassLoop (decodeTurns s) (openR (closeW s))
    else raise .invalidHandle s

end Sys2Proof.Machine
end

