-- ==== Sys2Proof/Machine/Encoder.lean ====
section
/-! DEFINITION. The encoder commands (spec/41_encoder.md R170 to R178). -/

namespace Sys2Proof.Machine

/-- `EncSymInt(s)`: the code word of `x` under K goes to the write side (R171, R172). -/
def encSymInt (x : Byte) (s : State) : Run Unit :=
  let k := s.k.toNat
  (putRepeat (quotient x k) true s).andThen fun _ t =>
    (putBitInt false t).andThen fun _ u => putBitsInt k (remainder x k) u

/-- ENC_SYM (R173). -/
def execEncSym (x : Byte) (s : State) : Host.Outcome State Fault Refusal :=
  complete <|
    if s.wopen then
      if s.k = 0#3 then .stop .kRange else encSymInt x s
    else raise .invalidHandle s

/-- The loop of ENCODE, with at most `n` turns (R174). The turns are enough (`encodeTurns`): where they run out the pass
has no end, which is hang (R234; log 17). -/
def encodeLoop : Nat → State → Run Unit
  | 0, _ => .stop .hang
  | n + 1, s => (srcRead s).andThen fun r t =>
      match r with
      | .byte x => (encSymInt x t).andThen fun _ u => encodeLoop n u
      | .eoi => (flushInt true t).andThen fun _ u => .cont () (closeW u)
      | .fail => raise .ioFailure (abortW t)

/-- More turns than a pass of ENCODE with an end can take. One on a source that ends takes an event of it in every turn;
one on a sink that ends writes at least one bit in every turn, eight for each event of the sink (log 17). -/
def encodeTurns (s : State) : Nat := s.source.length + 8 * s.sink.length + 9

/-- ENCODE (R174): both channels are checked before anything else (R226). -/
def execEncodePass (s : State) : Host.Outcome State Fault Refusal :=
  complete <|
    if s.srcPresent && s.snkPresent then
      if s.k = 0#3 then .stop .kRange else encodeLoop (encodeTurns s) (openW (closeR s))
    else raise .invalidHandle s

end Sys2Proof.Machine
end

