-- ==== Sys2Proof/Machine/Dispatch.lean ====
section
/-! DEFINITION. The rule of each command (spec/30_encoding.md R92's "rule" column), one arm per constructor. -/

namespace Sys2Proof.Machine

def exec (i : Instr) (s : State) : Host.Outcome State Fault Refusal :=
  match i with
  | .openWr => Sys2Proof.Machine.execOpenWr s
  | .openRd => Sys2Proof.Machine.execOpenRd s
  | .close sel => Sys2Proof.Machine.execClose sel s
  | .putBit b => Sys2Proof.Machine.execPutBit b s
  | .putBits n d => Sys2Proof.Machine.execPutBits n d s
  | .getBit => Sys2Proof.Machine.execGetBit s
  | .getBits n => Sys2Proof.Machine.execGetBits n s
  | .flush f => Sys2Proof.Machine.execFlush f s
  | .encSym x => Sys2Proof.Machine.execEncSym x s
  | .decSym => Sys2Proof.Machine.execDecSym s
  | .encodePass => Sys2Proof.Machine.execEncodePass s
  | .decodePass => Sys2Proof.Machine.execDecodePass s

end Sys2Proof.Machine
end

