-- ==== Sys2Proof/Machine/Port.lean ====
section
/-! DEFINITION. The host register port (spec/20_memory.md R61, R62), the execution of a command word
(spec/30_encoding.md R98), and what the environment does to the core between commands (spec/10_state.md R34;
spec/20_memory.md R69; spec/70_reset_and_hazards.md R250). -/

namespace Sys2Proof.Machine

/-- `RegRead(a)`: the value of the register at `a`; CMD and address 7 read 0 (R61). -/
def regRead (a : BitVec 3) (s : State) : Word :=
  match a.toNat with
  | 1 => cfgWord s
  | 2 => statusWord s
  | 3 => resultWord s
  | 4 => wstateWord s
  | 5 => rstateWord s
  | 6 => dstateWord s
  | _ => 0#16

/-- `Execute(w)`: what a write of CMD does. An illegal word raises IllegalCommand, which changes nothing but ERR (R95,
R98, R224). -/
def execute (w : Word) (s : State) : Host.Outcome State Fault Refusal :=
  match decode w with
  | .ok i => exec i s
  | .error _ => complete (raise .illegalCommand s)

/-- `RegWrite(a, v)`: CMD executes, CFG takes `v[2:0]` with no check, every other write is ignored (R22, R62, R63). -/
def regWrite (a : BitVec 3) (v : Word) (s : State) : Host.Outcome State Fault Refusal :=
  match a.toNat with
  | 0 => execute v s
  | 1 => .next { s with k := v.extractLsb' 0 3 }
  | _ => .next s

/-- The source channel is detached, attached, or replaced. A channel that an open read side is bound to stays: the
spec gives no move to an environment that takes it away (R69, R234; log 9). -/
def setSource (present : Bool) (answers : List SrcEvent) (s : State) : Host.Outcome State Fault Refusal :=
  if s.ropen && s.srcPresent then .fault .liveChannelDetached
  else .next { s with srcPresent := present, source := answers }

/-- The sink channel is detached, attached, or replaced, as `setSource` for the write side (R69, R234; log 9). What a
sink has accepted stays in the record (R77). -/
def setSink (present : Bool) (answers : List SnkEvent) (s : State) : Host.Outcome State Fault Refusal :=
  if s.wopen && s.snkPresent then .fault .liveChannelDetached
  else .next { s with snkPresent := present, sink := answers }

/-- One event of the outside world, with the core idle (R73; log 5). A read changes nothing in the core: the host
records the value (R61, R100). -/
def perform (e : HostEvent) (s : State) : Host.Outcome State Fault Refusal :=
  match e with
  | .read a => .next { s with readLog := s.readLog ++ [regRead a s] }
  | .write a v => regWrite a v s
  | .reset => .next (resetCore s)
  | .attachSource answers => setSource true answers s
  | .detachSource => setSource false [] s
  | .attachSink answers => setSink true answers s
  | .detachSink => setSink false [] s

/-- The next event of the outside world, performed; with none the core is idle and keeps all state (R233, R251). -/
def nextEvent (s : State) : Host.Outcome State Fault Refusal :=
  match s.host with
  | [] => .next s
  | e :: rest => perform e { s with host := rest }

/-- The host's next transaction becomes a write of `w` to CMD, before those it already had (R28, R62; log 16). -/
def issueWord (w : Word) (s : State) : State := { s with host := .write 0#3 w :: s.host }

end Sys2Proof.Machine
end

