-- ==== Sys2Proof/Machine/Step.lean ====
section
/-! DEFINITION. One step of the machine: the next event of the outside world, a whole command where it is a write of
CMD (spec/20_memory.md R62, R73). RICE-CORE fetches no instructions (spec/10_state.md R21). -/

namespace Sys2Proof.Machine

/-- One step: the next host transaction or environment event, run to its end (R62, R73; log 1). -/
def step (s : State) : Host.Outcome State Fault Refusal := nextEvent s

/-- `s` with the command of `nbits` bits `w` as what the host writes to CMD next: the machine does not fetch, so this
places the host's next transaction and nothing else (R21, R28; log 16). -/
def State.withFetchWord (s : State) (nbits w : Nat) : State := issueWord (tableWord nbits w) s

end Sys2Proof.Machine
end

