-- ==== Sys2Proof/Machine/Assembler.lean ====
section
/-! DEFINITION. Programs as lists of host transactions: the assembler's lines with the operands it must refuse
(spec/30_encoding.md R100) and the pseudo-instructions with their expansions (R101). Numbers are values; how a line is
spelt has no behaviour (spec/92_eei_decisions.md D29; log 21). -/

namespace Sys2Proof.Machine

/-- `reg` of R100: a register's name, or its address. -/
inductive RegName where
  | cmd
  | cfg
  | status
  | result
  | wstate
  | rstate
  | dstate
  | number (n : Nat)
  deriving DecidableEq, Repr

/-- `sel` of R100: the sides CLOSE discards. -/
inductive SelName where
  | w
  | r
  | wr
  | number (n : Nat)
  deriving DecidableEq, Repr

/-- A line of a program (R100, R101). -/
inductive AsmLine where
  /-- `RD reg`. -/
  | rd (reg : RegName)
  /-- `WR reg, v`. -/
  | wr (reg : RegName) (v : Nat)
  | openWr
  | openRd
  | close (sel : SelName)
  | putBit (b : Nat)
  | putBits (n v : Nat)
  | getBit
  | getBits (n : Nat)
  | flush (f : Nat)
  | encSym (s : Nat)
  | decSym
  | encodePass
  | decodePass
  /-- `SET_K k`: `WR CFG, k`. -/
  | setK (k : Nat)
  /-- `FINISH`: `FLUSH 1`. -/
  | finish
  /-- `CLOSE_W`: `CLOSE W`. -/
  | closeW
  /-- `CLOSE_R`: `CLOSE R`. -/
  | closeR
  /-- `PUT_UNARY q`: q lines `PUT_BIT 1`, then `PUT_BIT 0`. -/
  | putUnary (q : Nat)
  deriving DecidableEq, Repr

/-- The address of a register (spec/10_state.md section 2); a number above 7 is none. -/
def regAddress : RegName → Option (BitVec 3)
  | .cmd => some 0#3
  | .cfg => some 1#3
  | .status => some 2#3
  | .result => some 3#3
  | .wstate => some 4#3
  | .rstate => some 5#3
  | .dstate => some 6#3
  | .number n => if n ≤ 7 then some (BitVec.ofNat 3 n) else none

/-- The value of a selector: W = 1, R = 2, WR = 3; a number above 3 is none. -/
def selValue : SelName → Option (BitVec 2)
  | .w => some 1#2
  | .r => some 2#2
  | .wr => some 3#2
  | .number n => if n ≤ 3 then some (BitVec.ofNat 2 n) else none

/-- A command line means `WR CMD, <its word>` (R100). -/
def commandEvent (i : Instr) : HostEvent := .write 0#3 (encode i)

/-- The host transactions of a line; none where the assembler must refuse it: an operand out of its field, a
`PUT_BITS n, v` with v ≥ 2ⁿ, a `WR` value above 0xFFFF (R100, R101). -/
def assemble : AsmLine → Option (List HostEvent)
  | .rd reg => (regAddress reg).map fun a => [.read a]
  | .wr reg v => if v ≤ 0xFFFF then (regAddress reg).map fun a => [.write a (BitVec.ofNat 16 v)] else none
  | .openWr => some [commandEvent .openWr]
  | .openRd => some [commandEvent .openRd]
  | .close sel => (selValue sel).map fun x => [commandEvent (.close x)]
  | .putBit b => if b ≤ 1 then some [commandEvent (.putBit (b == 1))] else none
  | .putBits n v =>
    if n ≤ 8 ∧ v < 2 ^ n then some [commandEvent (.putBits (BitVec.ofNat 4 n) (BitVec.ofNat 8 v))] else none
  | .getBit => some [commandEvent .getBit]
  | .getBits n => if n ≤ 8 then some [commandEvent (.getBits (BitVec.ofNat 4 n))] else none
  | .flush f => if f ≤ 1 then some [commandEvent (.flush (f == 1))] else none
  | .encSym s => if s ≤ 255 then some [commandEvent (.encSym (BitVec.ofNat 8 s))] else none
  | .decSym => some [commandEvent .decSym]
  | .encodePass => some [commandEvent .encodePass]
  | .decodePass => some [commandEvent .decodePass]
  | .setK k => if k ≤ 7 then some [.write 1#3 (BitVec.ofNat 16 k)] else none
  | .finish => some [commandEvent (.flush true)]
  | .closeW => some [commandEvent (.close 1#2)]
  | .closeR => some [commandEvent (.close 2#2)]
  | .putUnary q =>
    if q ≤ 255 then some (List.replicate q (commandEvent (.putBit true)) ++ [commandEvent (.putBit false)]) else none

/-- The host transactions of a program, in order (R100); none where a line is refused. -/
def assembleProgram : List AsmLine → Option (List HostEvent)
  | [] => some []
  | line :: rest =>
    match assemble line, assembleProgram rest with
    | some events, some more => some (events ++ more)
    | _, _ => none

end Sys2Proof.Machine
end

