-- ==== Sys2Proof/Wire.lean ====
section
/-! DEFINITION. The wire format as mathematics, apart from the machine: bit strings (spec/00_scope.md R12), their packing
into bytes (spec/20_memory.md R65), the Rice code word (spec/41_encoder.md R170, R171) and the bytes of a whole stream
(R175). Claims compare the machine with these. -/

namespace Sys2Proof.Wire

/-- The low `n` bits of `v` as a bit string, `v[n-1]` first (R12, R91). -/
def bitsOf : Nat → Byte → List Bool
  | 0, _ => []
  | n + 1, v => v.getLsbD n :: bitsOf n v

/-- A bit string read as a number, its first bit the most significant (R12). -/
def natOfBits (l : List Bool) : Nat := l.foldl (fun v b => 2 * v + b.toNat) 0

/-- A bit string of at most 8 bits as a byte, right-justified (R30). -/
def byteOfBits (l : List Bool) : Byte := BitVec.ofNat 8 (natOfBits l)

/-- The bytes the whole eights of a bit string fill, the first bit of each in bit 7 (R65). -/
def fullBytes : List Bool → List Byte
  | a :: b :: c :: d :: e :: f :: g :: h :: rest => byteOfBits [a, b, c, d, e, f, g, h] :: fullBytes rest
  | _ => []

/-- The bits after the last whole eight of a bit string (R138). -/
def leftover : List Bool → List Bool
  | _ :: _ :: _ :: _ :: _ :: _ :: _ :: _ :: rest => leftover rest
  | l => l

/-- The bit string of a byte sequence (R65, R140). -/
def unpack (bytes : List Byte) : List Bool := bytes.flatMap (bitsOf 8)

/-- `cw(s, k) = '1' * q ++ '0' ++ bin_k(r)` with `q = s >> k` and `r` the low k bits of s (R170, R171). -/
def codeWord (k : Nat) (s : Byte) : List Bool :=
  List.replicate (s.toNat / 2 ^ k) true ++ false :: bitsOf k (BitVec.ofNat 8 (s.toNat % 2 ^ k))

/-- The code words of a symbol sequence, one after the other (R78, R175). -/
def codeBits (k : Nat) (symbols : List Byte) : List Bool := symbols.flatMap (codeWord k)

/-- `p = (8 - L mod 8) mod 8`, the number of fill bits after `L` bits (R139, R175). -/
def padding (len : Nat) : Nat := (8 - len % 8) % 8

/-- A bit string with its trailing byte padded by the fill bit `f` (R139). -/
def padded (f : Bool) (l : List Bool) : List Bool := l ++ List.replicate (padding l.length) f

/-- The bytes of a stream of symbols under k with fill bit `f` (R139, R175); ENCODE writes them with `f` 1. -/
def streamBytes (k : Nat) (f : Bool) (symbols : List Byte) : List Byte := fullBytes (padded f (codeBits k symbols))

/-- The length of the run of 1-bits a bit string begins with (R192). -/
def unaryRun : List Bool → Nat
  | true :: rest => unaryRun rest + 1
  | _ => 0

/-- The symbol of a quotient and the bits of a remainder; none where its value is above 255, which leaves the emitted
byte open (R194, U4). -/
def symbolOf (k q : Nat) (r : List Bool) : Option Byte :=
  if q ≤ 255 / 2 ^ k then some (BitVec.ofNat 8 (q * 2 ^ k + natOfBits r)) else none

/-- What a bit string decodes to, in at most `n` code words: the symbols, and how many 1-bits were counted when it
ended (R191 to R194). -/
def decodeWords (k : Nat) : Nat → List Bool → List (Option Byte) × Nat
  | 0, l => ([], unaryRun l)
  | n + 1, l =>
    let q := unaryRun l
    let rest := l.drop (q + 1)
    if q < l.length ∧ k ≤ rest.length then
      let more := decodeWords k n (rest.drop k)
      (symbolOf k q (rest.take k) :: more.1, more.2)
    else ([], q)

/-- What a bit string decodes to. A code word has at least one bit, so the string is never cut short (R200). -/
def decodeBits (k : Nat) (l : List Bool) : List (Option Byte) × Nat := decodeWords k l.length l

/-- Whether a byte may be what a decoder emits for a symbol: the symbol's, or any where its value is above 255. -/
def emits (symbol : Option Byte) (b : Byte) : Prop := ∀ v, symbol = some v → b = v

end Sys2Proof.Wire
end

