-- ==== Sys2Proof/Safety.lean ====
section
/-! DEFINITION. What claims about the machine are stated in: the invariants (spec/10_state.md R38; spec/20_memory.md
R69), the fields a command may write (R36), the bits the write side still owes, the bits the read side still has ahead,
what the channels' lists are after some transactions, and channels that never end (spec/60_exceptions.md R234). -/

namespace Sys2Proof.Machine

/-- The invariants of every state between commands, item by item (R38). -/
structure State.Inv (s : State) : Prop where
  /-- Item 1: WCNT ≤ 7. -/
  wcnt_le : s.wcnt.toNat ≤ 7
  /-- Item 1: WACC < 2^WCNT. -/
  wacc_lt : s.wacc.toNat < 2 ^ s.wcnt.toNat
  /-- Item 2: RCNT ≤ 8. -/
  rcnt_le : s.rcnt.toNat ≤ 8
  /-- Item 3: REM is held only inside a running command. -/
  dst_idle : s.dst = .scan ∨ s.dst = .done
  /-- Item 4. -/
  closed_write : s.wopen = false → s.wacc = 0#8 ∧ s.wcnt = 0#3
  /-- Item 5. -/
  closed_read : s.ropen = false → s.rbuf = 0#8 ∧ s.rcnt = 0#4 ∧ s.reoi = false
  /-- Item 6. -/
  latched : s.reoi = true → s.rcnt = 0#4
  /-- Item 7: ERR ∈ {0, 1, 2, 3}. -/
  err_le : (errorCode s.err).toNat ≤ 3

/-- The environment's duty that a present channel stays present while a side bound to it is open (R69, R265). -/
def State.attached (s : State) : Prop :=
  (s.ropen = true → s.srcPresent = true) ∧ (s.wopen = true → s.snkPresent = true)

/-- No reset is asserted while one of the listed channel transactions is in flight (R250). -/
def State.noReset (s : State) : Prop :=
  (∀ c, SrcEvent.reset c ∉ s.source) ∧ (∀ c, SnkEvent.reset c ∉ s.sink)

/-- The registers a command may write, the columns of R36's table, with CFG.K beside them. Q and DST stand apart. -/
inductive Column where
  | k | err | wopen | ropen | dovf | result | write | read | quotient | dst
  deriving DecidableEq, Repr

/-- Whether two states agree in a column. -/
def Column.same (c : Column) (s t : State) : Prop :=
  match c with
  | .k => t.k = s.k
  | .err => t.err = s.err
  | .wopen => t.wopen = s.wopen
  | .ropen => t.ropen = s.ropen
  | .dovf => t.dovf = s.dovf
  | .result => t.data = s.data ∧ t.eos = s.eos
  | .write => t.wacc = s.wacc ∧ t.wcnt = s.wcnt
  | .read => t.rbuf = s.rbuf ∧ t.rcnt = s.rcnt ∧ t.reoi = s.reoi
  | .quotient => t.q = s.q
  | .dst => t.dst = s.dst

/-- R36's table: whether a command may write a column. The gets may write DST, and only on IOFailure, as R129 and R135
say, where R36's row has "-" (log 18). No command writes K. -/
def mayWrite : Instr → Column → Bool
  | _, .k => false
  | _, .err => true
  | .openWr, c => c == .wopen || c == .write
  | .openRd, c => c == .ropen || c == .dovf || c == .read || c == .quotient || c == .dst
  | .close sel, c => (selectsWrite sel && (c == .wopen || c == .write)) || (selectsRead sel && (c == .ropen || c == .read))
  | .putBit _, c => c == .wopen || c == .write
  | .putBits _ _, c => c == .wopen || c == .write
  | .flush _, c => c == .wopen || c == .write
  | .encSym _, c => c == .wopen || c == .write
  | .getBit, c => c == .ropen || c == .result || c == .read || c == .dst
  | .getBits _, c => c == .ropen || c == .result || c == .read || c == .dst
  | .decSym, c => c == .ropen || c == .dovf || c == .result || c == .read || c == .quotient || c == .dst
  | .encodePass, c => c == .wopen || c == .ropen || c == .write || c == .read
  | .decodePass, _ => true

/-- A coding command, one that reads K (R22, R228). -/
def readsK : Instr → Bool
  | .encSym _ | .decSym | .encodePass | .decodePass => true
  | .openWr | .openRd | .close _ | .putBit _ | .putBits _ _ | .getBit | .getBits _ | .flush _ => false

/-- The commands that read the source channel (R122, R174, R197). -/
def readsSource : Instr → Bool
  | .getBit | .getBits _ | .decSym | .encodePass | .decodePass => true
  | .openWr | .openRd | .close _ | .putBit _ | .putBits _ _ | .flush _ | .encSym _ => false

/-- The commands that write the sink channel (R120, R174, R197). -/
def writesSink : Instr → Bool
  | .putBit _ | .putBits _ _ | .flush _ | .encSym _ | .encodePass | .decodePass => true
  | .openWr | .openRd | .close _ | .getBit | .getBits _ | .decSym => false

/-- Whether the handle check of a command fails: R222's five cases. CLOSE has none (R132). -/
def handleMissing (i : Instr) (s : State) : Bool :=
  match i with
  | .openWr => !s.snkPresent
  | .openRd => !s.srcPresent
  | .encodePass | .decodePass => !s.srcPresent || !s.snkPresent
  | .putBit _ | .putBits _ _ | .flush _ | .encSym _ => !s.wopen
  | .getBit | .getBits _ | .decSym => !s.ropen
  | .close _ => false

/-- The bits of a word that its opcode's row says must be 0, read as one number (R92). -/
def mustBeZeroBits (w : Word) : Nat :=
  match w.toNat / 4096 with
  | 1 | 2 | 6 | 10 | 11 | 12 => w.toNat % 4096
  | 3 => w.toNat % 4096 / 4
  | 4 | 8 => w.toNat % 4096 / 2
  | 7 => w.toNat % 256
  | 9 => w.toNat / 256 % 16
  | _ => 0

/-- R95's three ways in which a word is illegal. -/
def illegalWord (w : Word) : Prop :=
  (w.toNat / 4096 = 0 ∨ w.toNat / 4096 = 13 ∨ w.toNat / 4096 = 14 ∨ w.toNat / 4096 = 15) ∨
  mustBeZeroBits w ≠ 0 ∨
  ((w.toNat / 4096 = 5 ∨ w.toNat / 4096 = 7) ∧ 9 ≤ w.toNat / 256 % 16)

/-- The value of the register at an address, field by field with each field's weight (R22 to R28, R61). -/
def registerValue (a : BitVec 3) (s : State) : Nat :=
  match a.toNat with
  | 1 => s.k.toNat
  | 2 => (errorCode s.err).toNat + 8 * s.wopen.toNat + 16 * s.ropen.toNat + 32 * s.dovf.toNat
  | 3 => s.data.toNat + 256 * s.eos.toNat
  | 4 => s.wacc.toNat + 256 * s.wcnt.toNat
  | 5 => s.rbuf.toNat + 256 * s.rcnt.toNat + 4096 * s.reoi.toNat
  | 6 => s.q.toNat + 256 * (decoderCode s.dst).toNat
  | _ => 0

/-! The write side. -/

/-- The pending bits, the oldest first: WACC[WCNT-1] down to WACC[0] (R30). -/
def State.pending (s : State) : List Bool := Wire.bitsOf s.wcnt.toNat s.wacc

/-- The bytes that writing `l` completes (R138). -/
def State.bytesDue (l : List Bool) (s : State) : List Byte := Wire.fullBytes (s.pending ++ l)

/-- Whether a sink's next `n` answers are Ok (R68, R234). -/
def accepting : Nat → List SnkEvent → Bool
  | 0, _ => true
  | n + 1, .ok :: rest => accepting n rest
  | _ + 1, .okForever :: _ => true
  | _ + 1, _ => false

/-- The sink's next `n` answers are Ok. -/
def State.sinkAccepts (n : Nat) (s : State) : Prop := accepting n s.sink = true

/-- What a sink lists after its next `n` transactions: an answer given is gone, Ok forever stays (R68, R234). -/
def afterWrites : Nat → List SnkEvent → List SnkEvent
  | 0, l => l
  | _ + 1, [] => []
  | _ + 1, .okForever :: rest => .okForever :: rest
  | n + 1, _ :: rest => afterWrites n rest

/-- How many of a sink's next `n` transactions leave their byte in the sink's output (R68, U5, U6). -/
def keptIn : Nat → List SnkEvent → Nat
  | 0, _ => 0
  | _ + 1, [] => 0
  | n + 1, .okForever :: _ => n + 1
  | n + 1, .ok :: rest => keptIn n rest + 1
  | n + 1, .fail kept :: rest => keptIn n rest + kept.toNat
  | n + 1, .reset kept :: rest => keptIn n rest + kept.toNat

/-- The state once the bit string `l` is written and the sink has accepted every byte it completes: those bytes join
the output, and the bits after the last whole byte are pending (R120, R138). -/
def State.wrote (l : List Bool) (s : State) : State :=
  { s with
    output := s.output ++ s.bytesDue l
    sink := afterWrites (s.bytesDue l).length s.sink
    wacc := Wire.byteOfBits (Wire.leftover (s.pending ++ l))
    wcnt := BitVec.ofNat 3 (Wire.leftover (s.pending ++ l)).length }

/-- The state once the sink has failed byte number `j` (from 0) of those that writing `l` completes: it has the bytes
before, and the failed one where `kept`, and the write side is closed (R129, R223, U5). -/
def State.writeFailed (l : List Bool) (j : Nat) (kept : Bool) (s : State) : State :=
  { s with
    output := s.output ++ (s.bytesDue l).take (if kept then j + 1 else j)
    sink := s.sink.drop (j + 1)
    wopen := false, wacc := 0#8, wcnt := 0#3 }

/-- The bits a write-side command writes (R133, R134, R137, R172); none for any other command. -/
def writtenBits (i : Instr) (s : State) : Option (List Bool) :=
  match i with
  | .putBit b => some [b]
  | .putBits n d => some (Wire.bitsOf n.toNat d)
  | .flush f => some (List.replicate (Wire.padding s.wcnt.toNat) f)
  | .encSym x => some (Wire.codeWord s.k.toNat x)
  | .openWr | .openRd | .close _ | .getBit | .getBits _ | .decSym | .encodePass | .decodePass => none

/-! The read side. -/

/-- The bytes the source lists before anything else: those before its EOI, its Fail, a reset, or an endless run. -/
def sourceBytes : List SrcEvent → List Byte
  | .answer (.byte b) :: rest => b :: sourceBytes rest
  | _ => []

/-- What a source lists after its next `n` transactions: an answer given is gone, a period begun leaves its rest and the
periods to come (R67, R234). -/
def afterReads : Nat → List SrcEvent → List SrcEvent
  | 0, l => l
  | _ + 1, [] => []
  | n + 1, .endless b more :: rest => afterReads n (afterFirst b more rest)
  | n + 1, _ :: rest => afterReads n rest

/-- The bits the read side has ahead: the unconsumed bits of RBUF, then those of the bytes the source will answer,
which it does not ask for once REOI is 1 (R31, R32, R65). -/
def State.ahead (s : State) : List Bool :=
  Wire.bitsOf s.rcnt.toNat s.rbuf ++ if s.reoi then [] else Wire.unpack (sourceBytes s.source)

/-- The state once the read side has taken `n` of the bits ahead: from RBUF while it has them, else from the last of
the bytes it had to take from the source (R122). -/
def State.took (n : Nat) (s : State) : State :=
  if n ≤ s.rcnt.toNat then { s with rcnt := BitVec.ofNat 4 (s.rcnt.toNat - n) }
  else
    let bytes := (n - s.rcnt.toNat + 7) / 8
    { s with
      rbuf := (sourceBytes s.source).getD (bytes - 1) 0#8
      rcnt := BitVec.ofNat 4 (8 * bytes - (n - s.rcnt.toNat))
      source := s.source.drop bytes }

/-- After the bits ahead comes end of stream: REOI is latched, or the source answers EOI after its bytes (R32, R67). -/
def State.endsInEoi (s : State) : Prop :=
  s.reoi = true ∨ ∃ rest, s.source = yields (sourceBytes s.source) (.answer .eoi :: rest)

/-- After the bits ahead the source answers Fail (R67). -/
def State.endsInFail (s : State) : Prop :=
  s.reoi = false ∧ ∃ rest, s.source = yields (sourceBytes s.source) (.answer .fail :: rest)

/-- The state once the read side has taken every bit ahead and met end of stream: nothing is buffered, REOI is 1 and,
unless it already was, the source has answered its bytes and EOI (R122, R123). -/
def State.drained (s : State) : State :=
  if s.reoi then { s with rcnt := 0#4 }
  else
    { s with
      rbuf := (sourceBytes s.source).getLastD s.rbuf
      rcnt := 0#4, reoi := true
      source := s.source.drop ((sourceBytes s.source).length + 1) }

/-- The state once the read side has taken every bit ahead and a source read has failed: the source has answered its
bytes and Fail, the read side is closed and DST is DONE (R129, R223). -/
def State.readFailed (s : State) : State :=
  { s with
    ropen := false, rbuf := 0#8, rcnt := 0#4, reoi := false, dst := .done
    source := s.source.drop ((sourceBytes s.source).length + 1) }

/-- A bit string that begins with no whole code word: 1-bits only, or fewer than `k` bits after the first 0-bit (R171). -/
def noWord (k : Nat) (l : List Bool) : Prop :=
  ∃ m, l = List.replicate m true ∨ ∃ r, l = List.replicate m true ++ false :: r ∧ r.length < k

/-- A get or DEC_SYM, on an open read side, asks for a bit after those ahead (R122, R123, R192, R193). -/
def asksForMore (i : Instr) (s : State) : Prop :=
  s.ropen = true ∧
  match i with
  | .getBit => s.ahead = []
  | .getBits n => n.toNat ≤ 8 ∧ s.ahead.length < n.toNat
  | .decSym => s.k ≠ 0#3 ∧ s.dst = .scan ∧ noWord s.k.toNat s.ahead
  | .openWr | .openRd | .close _ | .putBit _ | .putBits _ _ | .flush _ | .encSym _ | .encodePass | .decodePass => False

/-- The quotient counter after `n` more 1-bits, saturating at 255 (R192). -/
def quotientAfter (q : Byte) (n : Nat) : Byte := BitVec.ofNat 8 (min (q.toNat + n) 255)

/-! Endless channels (R234). -/

/-- A source that yields bytes forever, never EOI or Fail: some bytes, and then a period over and over. -/
def yieldsForever (l : List SrcEvent) : Prop := ∃ bytes b more rest, l = yields bytes (.endless b more :: rest)

/-- A sink that accepts every byte. -/
def acceptsForever (l : List SnkEvent) : Prop := ∀ n, accepting n l = true

/-! Running. -/

/-- The commands of a list, one after the other, as long as each gives a next state. -/
def execAll : List Instr → State → Host.Outcome State Fault Refusal
  | [], s => .next s
  | i :: rest, s =>
    match exec i s with
    | .next t => execAll rest t
    | .fault f => .fault f
    | .refused r => .refused r

end Sys2Proof.Machine
end

