-- ==== Sys2Proof/Certificates/Slice0/Obligations.lean ====
section
/-! DEFINITION. The statements for the provers, file by file of spec/. Each docstring names the rule it formalises. -/

open Sys2Proof Sys2Proof.Machine Sys2Proof.Wire

/-! ## Encoding (spec/30_encoding.md) -/

/-- R92, R97: the word of every well-formed command decodes to that command, with every operand at every value. -/
def Obligations.EncodedCommandDecodesToItself : Prop :=
  ∀ i : Instr, i.wellFormed = true → decode (encode i) = .ok i

/-- R92: a word that decodes is the word of the command it decodes to, which is well formed: no bit of the word is
dropped, and no two rows match the same word. -/
def Obligations.DecodedWordIsItsCommandsWord : Prop :=
  ∀ (w : Word) (i : Instr), decode w = .ok i → i.wellFormed = true ∧ encode i = w

/-- R95: a word is illegal in exactly three ways; writing one to CMD raises IllegalCommand, changing nothing but ERR and
making no channel transfer. Every other word encodes a command. -/
def Obligations.IllegalWordsRaiseIllegalCommand : Prop :=
  ∀ w : Word,
    (illegalWord w → ∀ (s : State) (rest : List HostEvent), s.host = .write 0#3 w :: rest →
      step s = .next { s with host := rest, err := .illegalCommand }) ∧
    (¬ illegalWord w → ∃ i, decode w = .ok i ∧ encode i = w)

/-- R102: some of the words of the encoding examples, written out from R90 and R92. -/
def Obligations.ExampleWordsDecode : Prop :=
  decode 0b0001000000000000#16 = .ok .openWr ∧
  decode 0b0011000000000011#16 = .ok (.close 3#2) ∧
  decode 0b0101001100000101#16 = .ok (.putBits 3#4 5#8) ∧
  decode 0b0111001100000000#16 = .ok (.getBits 3#4) ∧
  decode 0b1000000000000001#16 = .ok (.flush true) ∧
  decode 0b1001000000101101#16 = .ok (.encSym 45#8) ∧
  decode 0b1100000000000000#16 = .ok .decodePass ∧
  (∀ i, decode 0b0101100100000000#16 ≠ .ok i) ∧
  (∀ i, decode 0b0111001100000001#16 ≠ .ok i)

/-! ## Steps and the register port (spec/20_memory.md, spec/30_encoding.md) -/

/-- R62, R98: when the host's next transaction writes to CMD a word that decodes to a command, the step is that command
run on the state with the transaction taken off the host's list, and nothing else. -/
def Obligations.StepRunsTheDecodedCommand : Prop :=
  ∀ (s : State) (w : Word) (rest : List HostEvent) (i : Instr),
    s.host = .write 0#3 w :: rest → decode w = .ok i → step s = exec i { s with host := rest }

/-- R61: a register read returns every field in its place, reserved bits, CMD and address 7 as 0, and has no side
effect: the host records the value and nothing else changes. -/
def Obligations.RegReadReturnsTheRegister : Prop :=
  ∀ (s : State) (a : BitVec 3) (rest : List HostEvent), s.host = .read a :: rest →
    ∃ v : Word, v.toNat = registerValue a s ∧
      step s = .next { s with host := rest, readLog := s.readLog ++ [v] }

/-- R22, R62, R63: a write of CFG stores its three low bits in K with no check and changes nothing else; a write of any
address but CMD and CFG is ignored. -/
def Obligations.RegWriteSetsOnlyK : Prop :=
  ∀ (s : State) (v : Word) (rest : List HostEvent),
    (s.host = .write 1#3 v :: rest →
      step s = .next { s with host := rest, k := BitVec.ofNat 3 (v.toNat % 8) }) ∧
    (∀ a : BitVec 3, 2 ≤ a.toNat → s.host = .write a v :: rest → step s = .next { s with host := rest })

/-- R233, R251: with no transaction of the host the core executes nothing and keeps all state. -/
def Obligations.IdleCoreKeepsItsState : Prop :=
  ∀ s : State, s.host = [] → step s = .next s

/-- R69, R234, R265 (log 9): detaching or replacing a channel that an open side is bound to has no move; with the side
closed, the environment's event changes that channel's presence and answers and nothing else (log 15). -/
def Obligations.LiveChannelCannotBeDetached : Prop :=
  ∀ (s : State) (rest : List HostEvent) (src : List SrcEvent) (snk : List SnkEvent),
    (s.ropen = true → s.srcPresent = true →
      (s.host = .detachSource :: rest ∨ s.host = .attachSource src :: rest) → step s = .fault .liveChannelDetached) ∧
    (s.wopen = true → s.snkPresent = true →
      (s.host = .detachSink :: rest ∨ s.host = .attachSink snk :: rest) → step s = .fault .liveChannelDetached) ∧
    (s.ropen = false → s.host = .attachSource src :: rest →
      step s = .next { s with host := rest, srcPresent := true, source := src }) ∧
    (s.wopen = false → s.host = .attachSink snk :: rest →
      step s = .next { s with host := rest, snkPresent := true, sink := snk }) ∧
    (s.ropen = false → s.host = .detachSource :: rest →
      step s = .next { s with host := rest, srcPresent := false, source := [] }) ∧
    (s.wopen = false → s.host = .detachSink :: rest →
      step s = .next { s with host := rest, snkPresent := false, sink := [] })

/-! ## Reset (spec/10_state.md, spec/70_reset_and_hazards.md) -/

/-- R39: the reset state has every register field at the value the rule lists, and reset sets every field to it. -/
def Obligations.ResetSetsEveryField : Prop :=
  (State.reset.k = 0#3 ∧ State.reset.err = .noError ∧ State.reset.wopen = false ∧ State.reset.ropen = false ∧
    State.reset.dovf = false ∧ State.reset.data = 0#8 ∧ State.reset.eos = false ∧ State.reset.wacc = 0#8 ∧
    State.reset.wcnt = 0#3 ∧ State.reset.rbuf = 0#8 ∧ State.reset.rcnt = 0#4 ∧ State.reset.reoi = false ∧
    State.reset.q = 0#8 ∧ State.reset.dst = .scan) ∧
  (∀ a : BitVec 3, registerValue a State.reset = 0) ∧
  ∀ (s : State) (rest : List HostEvent), s.host = .reset :: rest →
    step s = .next
      { State.reset with
        srcPresent := s.srcPresent, snkPresent := s.snkPresent, source := s.source, sink := s.sink,
        output := s.output, host := rest, readLog := s.readLog, draws := s.draws }

/-- R250 (U6, log 4): a reset asserted while a channel transfer is in flight abandons the command: every register takes its
reset value (`resetCore` is what the reset event leaves, see ResetSetsEveryField), the bytes the sink has accepted stay,
and the transfer in flight took effect or did not, as the event says. For every command that makes transfers on one
channel: PUT_BIT, PUT_BITS, FLUSH and ENC_SYM while byte number `j` (from 0) of those they complete is in flight, and
GET_BIT, GET_BITS and DEC_SYM while the read after those the source answers with a byte is. The two passes are
ResetAbandonsThePass. -/
def Obligations.ResetAbandonsTheTransfer : Prop :=
  ∀ (i : Instr) (s : State), s.Inv → i.wellFormed = true →
    (∀ l j kept rest, s.wopen = true → (readsK i = true → s.k ≠ 0#3) → writtenBits i s = some l →
      j < (s.bytesDue l).length → s.sink = List.replicate j SnkEvent.ok ++ .reset kept :: rest →
      exec i s = .next (resetCore
        { s with sink := rest, output := s.output ++ (s.bytesDue l).take (if kept then j + 1 else j) })) ∧
    (∀ consumed rest, asksForMore i s → s.reoi = false →
      s.source = yields (sourceBytes s.source) (.reset consumed :: rest) →
      exec i s = .next (resetCore { s with source := if consumed then dropByte rest else rest }))

/-! ## Invariants (spec/10_state.md R38, spec/20_memory.md R69, R77) -/

/-- R38, R39: the invariants hold in the reset state. -/
def Obligations.InvariantsHoldAtReset : Prop := State.reset.Inv

/-- R38: every step from a state that meets the seven invariants leads to one that does, whatever the host, the
channels and the reset input do. -/
def Obligations.StepKeepsTheInvariants : Prop :=
  ∀ s t : State, s.Inv → step s = .next t → t.Inv

/-- R69, R265: the channel of an open side stays attached: no step with a next state leaves an open side without its
channel. -/
def Obligations.StepKeepsOpenSidesAttached : Prop :=
  State.reset.attached ∧ ∀ s t : State, s.attached → step s = .next t → t.attached

/-- R77: output is never rolled back. Every step keeps every byte the sink has accepted before it, in order; and of the
`m` sink transactions a command makes, each that leaves its byte with the sink has added one byte to the output when the
command is over, whether it completes, ends with an error or is cut off by reset. -/
def Obligations.OutputIsNeverRolledBack : Prop :=
  (∀ s t : State, step s = .next t → s.output <+: t.output) ∧
  (∀ (i : Instr) (s t : State), exec i s = .next t →
    ∃ m bytes, t.sink = afterWrites m s.sink ∧ t.output = s.output ++ bytes ∧ bytes.length = keptIn m s.sink)

/-! ## What a command leaves alone (spec/10_state.md R36) -/

/-- R36, with R129 and R135 for DST (log 18): a command changes no register its row does not list; the gets change DST
only on IOFailure. A reset in the middle of the command (R250) is apart. -/
def Obligations.CommandsWriteOnlyTheirColumns : Prop :=
  ∀ (i : Instr) (s t : State), s.noReset → exec i s = .next t →
    (∀ c : Column, mayWrite i c = false → c.same s t) ∧
    (i = .getBit ∨ (∃ n, i = .getBits n) → t.err ≠ .ioFailure → t.dst = s.dst)

/-- R34, R67, R68, R73, R77: a command leaves the host's program, the values the host has read and the channels'
presence alone; what it leaves of the channels' answers is what some number of transactions leaves, taken in order; the
sink's output only grows. A command that is no get, DEC_SYM, ENCODE or DECODE leaves the source alone; one that writes
no bits and is no pass makes no transfer to the sink. All this holds of a command that a reset cuts off too. -/
def Obligations.CommandsKeepTheEnvironment : Prop :=
  ∀ (i : Instr) (s t : State), exec i s = .next t →
    t.host = s.host ∧ t.readLog = s.readLog ∧ t.srcPresent = s.srcPresent ∧ t.snkPresent = s.snkPresent ∧
    (∃ n, t.source = afterReads n s.source) ∧ (∃ m, t.sink = afterWrites m s.sink) ∧ s.output <+: t.output ∧
    s.draws ≤ t.draws ∧
    (readsSource i = false → t.source = s.source) ∧
    (writesSink i = false → t.sink = s.sink ∧ t.output = s.output)

/-- R24, R220: a command that ends with an error leaves RESULT unchanged. A reset in the middle of the command is apart. -/
def Obligations.ErrorsLeaveResultAlone : Prop :=
  ∀ (i : Instr) (s t : State), s.noReset → exec i s = .next t → t.err ≠ .noError → t.data = s.data ∧ t.eos = s.eos

/-- R195, R32, R23: what stays until a command that ends it. Of the commands, only OPEN_RD leaves DONE (DECODE ends in DONE
again); only OPEN_RD, CLOSE of the read side, ENCODE (R174; log 22) and DECODE clear REOI; only OPEN_RD and DECODE clear
DOVF. A reset in the middle of the command is apart. -/
def Obligations.LatchesAreClearedOnlyByTheirCommands : Prop :=
  ∀ (i : Instr) (s t : State), s.Inv → s.noReset → exec i s = .next t →
    (s.dst = .done → i ≠ .openRd → t.dst = .done) ∧
    (s.reoi = true → i ≠ .openRd → (∀ sel, i = .close sel → selectsRead sel = false) → i ≠ .encodePass →
      i ≠ .decodePass → t.reoi = true) ∧
    (s.dovf = true → i ≠ .openRd → i ≠ .decodePass → t.dovf = true)

/-- R225: ERR reports the last command alone: what a command does depends on no earlier error, and what it leaves in
ERR neither. -/
def Obligations.ErrIsNotSticky : Prop :=
  ∀ (i : Instr) (s : State) (e : ErrorKind), exec i { s with err := e } = exec i s

/-! ## Errors (spec/60_exceptions.md) -/

/-- R222: InvalidHandle is raised in its five cases, whatever K is, and the command changes nothing but ERR. -/
def Obligations.MissingHandleRaisesInvalidHandle : Prop :=
  ∀ (i : Instr) (s : State), i.wellFormed = true → handleMissing i s = true →
    exec i s = .next { s with err := .invalidHandle }

/-- R228: a coding command that has passed its handle check and reads K = 0 stops with the fault KRange. -/
def Obligations.ZeroKStopsCodingCommands : Prop :=
  ∀ (i : Instr) (s : State), readsK i = true → handleMissing i s = false → s.k = 0#3 → exec i s = .fault .kRange

/-- R67, R68, R234 (U8): a channel that never answers leaves the command stuck, by name. A channel that gives no answer any
more is one whose list of answers is empty (log 2). For every command that waits on a channel: PUT_BIT, PUT_BITS, FLUSH
and ENC_SYM at byte number `j` (from 0) of those they complete; GET_BIT, GET_BITS and DEC_SYM at the read after those the
source answers with a byte; ENCODE and DECODE at either. -/
def Obligations.SilentChannelLeavesTheCommandStuck : Prop :=
  (∀ (i : Instr) (s : State), s.Inv → i.wellFormed = true →
    (∀ l j, s.wopen = true → (readsK i = true → s.k ≠ 0#3) → writtenBits i s = some l → j < (s.bytesDue l).length →
      s.sink = List.replicate j SnkEvent.ok → exec i s = .fault .sinkNeverAnswers) ∧
    (asksForMore i s → s.reoi = false → s.source = yields (sourceBytes s.source) [] →
      exec i s = .fault .sourceNeverAnswers)) ∧
  ∀ (s : State) (bytes : List Byte) (rest : List SrcEvent) (j : Nat),
    s.srcPresent = true → s.snkPresent = true → s.k ≠ 0#3 →
    (s.source = yields bytes [] → s.sinkAccepts (fullBytes (codeBits s.k.toNat bytes)).length →
      exec .encodePass s = .fault .sourceNeverAnswers) ∧
    (s.source = yields bytes (.answer .eoi :: rest) → s.sink = List.replicate j SnkEvent.ok →
      j < (streamBytes s.k.toNat true bytes).length → exec .encodePass s = .fault .sinkNeverAnswers) ∧
    (s.source = yields bytes [] → s.sinkAccepts (decodeBits s.k.toNat (unpack bytes)).1.length →
      exec .decodePass s = .fault .sourceNeverAnswers) ∧
    (s.source = yields bytes (.answer .eoi :: rest) → s.sink = List.replicate j SnkEvent.ok →
      j < (decodeBits s.k.toNat (unpack bytes)).1.length → exec .decodePass s = .fault .sinkNeverAnswers)

/-! ## The packer and unpacker (spec/40_bitstream.md) -/

/-- R130: OPEN_WR is the word 0x1000; with a sink attached it opens the write side with an empty accumulator, without
output and whatever was pending; with none it raises InvalidHandle and changes nothing else. -/
def Obligations.OpenWrOpensTheWriteSide : Prop :=
  encode .openWr = 0x1000#16 ∧
  ∀ s : State,
    (s.snkPresent = true →
      exec .openWr s = .next { s with wopen := true, wacc := 0#8, wcnt := 0#3, err := .noError }) ∧
    (s.snkPresent = false → exec .openWr s = .next { s with err := .invalidHandle })

/-- R131: OPEN_RD is the word 0x2000; with a source attached it opens the read side with an empty buffer, clears REOI and
DOVF and puts the decoder in its initial state, reading nothing; with none it raises InvalidHandle and changes nothing
else. -/
def Obligations.OpenRdOpensTheReadSide : Prop :=
  encode .openRd = 0x2000#16 ∧
  ∀ s : State,
    (s.srcPresent = true →
      exec .openRd s = .next
        { s with
          ropen := true, rbuf := 0#8, rcnt := 0#4, reoi := false, dst := .scan, q := 0#8, dovf := false
          err := .noError }) ∧
    (s.srcPresent = false → exec .openRd s = .next { s with err := .invalidHandle })

/-- R132: CLOSE is the word 0x3000 + SEL; it discards the sides SEL selects without output, bit 0 the write side and
bit 1 the read side, keeps DST, Q and DOVF, and is never an error. -/
def Obligations.CloseDiscardsTheSelectedSides : Prop :=
  (∀ sel : BitVec 2, (encode (.close sel)).toNat = 0x3000 + sel.toNat) ∧
  ∀ s : State,
    exec (.close 0#2) s = .next { s with err := .noError } ∧
    exec (.close 1#2) s = .next { s with wopen := false, wacc := 0#8, wcnt := 0#3, err := .noError } ∧
    exec (.close 2#2) s =
      .next { s with ropen := false, rbuf := 0#8, rcnt := 0#4, reoi := false, err := .noError } ∧
    exec (.close 3#2) s = .next
      { s with
        wopen := false, wacc := 0#8, wcnt := 0#3
        ropen := false, rbuf := 0#8, rcnt := 0#4, reoi := false, err := .noError }

/-- R120, R133: PUT_BIT in fields. A bit that leaves the byte unfinished joins WACC on the right and raises WCNT, with no
transfer; the eighth empties the accumulator and offers the byte `(WACC << 1) | B` to the sink, which accepts it, or
fails, closing the write side and raising IOFailure. -/
def Obligations.PutBitAppendsOneBit : Prop :=
  ∀ (s : State) (b : Bool), s.wopen = true →
    (s.wcnt.toNat < 7 →
      exec (.putBit b) s = .next
        { s with
          wacc := BitVec.ofNat 8 (2 * s.wacc.toNat + b.toNat)
          wcnt := BitVec.ofNat 3 (s.wcnt.toNat + 1), err := .noError }) ∧
    (∀ rest, s.wcnt.toNat = 7 → s.sink = .ok :: rest →
      exec (.putBit b) s = .next
        { s with
          wacc := 0#8, wcnt := 0#3, sink := rest
          output := s.output ++ [BitVec.ofNat 8 (2 * s.wacc.toNat + b.toNat)], err := .noError }) ∧
    (∀ kept rest, s.wcnt.toNat = 7 → s.sink = .fail kept :: rest →
      exec (.putBit b) s = .next
        { s with
          wopen := false, wacc := 0#8, wcnt := 0#3, sink := rest
          output := s.output ++ if kept then [BitVec.ofNat 8 (2 * s.wacc.toNat + b.toNat)] else []
          err := .ioFailure })

/-- R121, R134: PUT_BITS writes the low N bits of D, D[N-1] first; D[7:N] is ignored; every byte the bits complete goes
to the sink, (WCNT + N) / 8 of them, at most one, and the rest is pending. -/
def Obligations.PutBitsAppendsTheLowBits : Prop :=
  ∀ (s : State) (n : BitVec 4) (d : Byte), s.Inv → s.wopen = true → n.toNat ≤ 8 →
    (s.bytesDue (bitsOf n.toNat d)).length = (s.wcnt.toNat + n.toNat) / 8 ∧
    (s.sinkAccepts ((s.wcnt.toNat + n.toNat) / 8) →
      exec (.putBits n d) s = .next { s.wrote (bitsOf n.toNat d) with err := .noError })

/-- R124, R137: FLUSH with nothing pending emits nothing; else it emits exactly one byte, the pending bits and then fill
bits, `(WACC << (8 - WCNT))` with the low 8 - WCNT bits all F, and leaves nothing pending and the side open. -/
def Obligations.FlushEmitsThePaddedByte : Prop :=
  ∀ (s : State) (f : Bool), s.Inv → s.wopen = true →
    (s.wcnt = 0#3 → exec (.flush f) s = .next { s with err := .noError }) ∧
    (∀ rest, s.wcnt ≠ 0#3 → s.sink = .ok :: rest →
      exec (.flush f) s = .next
        { s with
          wacc := 0#8, wcnt := 0#3, sink := rest
          output := s.output ++
            [BitVec.ofNat 8
              (s.wacc.toNat * 2 ^ (8 - s.wcnt.toNat) + if f then 2 ^ (8 - s.wcnt.toNat) - 1 else 0)]
          err := .noError })

/-- R129, R223: when the sink fails one of the bytes a write-side command completes, the bytes before it stand, the
failed one is not retried and the sink kept it or not (U5), the bits after it are not written, the write side is closed
and its pending bits discarded, and ERR is IOFailure. For PUT_BIT, PUT_BITS, FLUSH and ENC_SYM. -/
def Obligations.SinkFailureClosesTheWriteSide : Prop :=
  ∀ (i : Instr) (s : State) (l : List Bool) (j : Nat) (kept : Bool),
    s.Inv → i.wellFormed = true → s.wopen = true → (readsK i = true → s.k ≠ 0#3) → writtenBits i s = some l →
    j < (s.bytesDue l).length → s.sink.take (j + 1) = List.replicate j SnkEvent.ok ++ [.fail kept] →
    exec i s = .next { s.writeFailed l j kept with err := .ioFailure }

/-- R122, R135: GET_BIT in fields. With bits buffered it takes RBUF[RCNT-1]; with none it reads a byte, from an endless
source too (R234; log 3), and takes its bit 7; at end of input it latches REOI; with REOI latched it reads nothing; at
either end RESULT is EOS with DATA open (U3); when the source fails, the read side is closed, DST is DONE, RESULT keeps
its value and ERR is IOFailure. -/
def Obligations.GetBitTakesOneBit : Prop :=
  ∀ s : State, s.Inv → s.ropen = true →
    (∀ n, s.rcnt.toNat = n + 1 →
      exec .getBit s = .next
        { s with
          rcnt := BitVec.ofNat 4 n, data := BitVec.ofNat 8 (s.rbuf.getLsbD n).toNat, eos := false
          err := .noError }) ∧
    (∀ x rest, s.rcnt = 0#4 → s.reoi = false → s.source = .answer (.byte x) :: rest →
      exec .getBit s = .next
        { s with
          rbuf := x, rcnt := 7#4, source := rest, data := BitVec.ofNat 8 (x.toNat / 128), eos := false
          err := .noError }) ∧
    (∀ x more rest, s.rcnt = 0#4 → s.reoi = false → s.source = .endless x more :: rest →
      exec .getBit s = .next
        { s with
          rbuf := x, rcnt := 7#4, source := yields more (.endless x more :: rest)
          data := BitVec.ofNat 8 (x.toNat / 128), eos := false, err := .noError }) ∧
    (∀ rest, s.rcnt = 0#4 → s.reoi = false → s.source = .answer .eoi :: rest →
      ∃ v, exec .getBit s = .next
        { s with reoi := true, source := rest, data := v, eos := true, draws := s.draws + 1, err := .noError }) ∧
    (s.reoi = true →
      ∃ v, exec .getBit s = .next { s with data := v, eos := true, draws := s.draws + 1, err := .noError }) ∧
    (∀ rest, s.rcnt = 0#4 → s.reoi = false → s.source = .answer .fail :: rest →
      exec .getBit s = .next
        { s with
          ropen := false, rbuf := 0#8, rcnt := 0#4, reoi := false, dst := .done, source := rest
          err := .ioFailure })

/-- R123, R136: GET_BITS N. With N bits ahead it returns them as a number, the first taken the most significant; with
fewer and then end of stream it takes what there is and returns EOS with DATA open; with fewer and then a failing
source it raises IOFailure and RESULT keeps its value. N = 0 is the first case, at end of stream too. -/
def Obligations.GetBitsTakesNBits : Prop :=
  ∀ (s : State) (n : BitVec 4), s.Inv → s.ropen = true → n.toNat ≤ 8 →
    (n.toNat ≤ s.ahead.length →
      exec (.getBits n) s = .next
        { s.took n.toNat with data := byteOfBits (s.ahead.take n.toNat), eos := false, err := .noError }) ∧
    (s.ahead.length < n.toNat → s.endsInEoi →
      ∃ v, exec (.getBits n) s = .next
        { s.drained with data := v, eos := true, draws := s.draws + 1, err := .noError }) ∧
    (s.ahead.length < n.toNat → s.endsInFail →
      exec (.getBits n) s = .next { s.readFailed with err := .ioFailure })

/-- R32: while REOI is 1 no get and no DEC_SYM reads the source, and each of them that needs a bit completes with EOS. -/
def Obligations.LatchedEndOfInputReadsNothing : Prop :=
  ∀ (i : Instr) (s : State), s.Inv → s.ropen = true → s.reoi = true →
    (i = .getBit ∨ (∃ n : BitVec 4, i = .getBits n ∧ 1 ≤ n.toNat ∧ n.toNat ≤ 8) ∨ (i = .decSym ∧ s.k ≠ 0#3)) →
    ∃ t, exec i s = .next t ∧ t.source = s.source ∧ t.eos = true ∧ t.reoi = true ∧ t.ropen = true ∧
      t.err = .noError

/-- R138: packing law. After OPEN_WR, any mix of PUT_BIT, PUT_BITS and ENC_SYM that writes the bit string `l`, to a sink
that accepts its bytes, has given the sink exactly the whole bytes of `l`; WCNT is its length mod 8 and WACC holds its
last WCNT bits. -/
def Obligations.WritesPackTheirBitString : Prop :=
  ∀ (cmds : List Instr) (s : State) (l : List Bool),
    s.snkPresent = true →
    (∀ i ∈ cmds, i.wellFormed = true ∧
      ((∃ b, i = .putBit b) ∨ (∃ n d, i = .putBits n d) ∨ (∃ x, i = .encSym x ∧ s.k ≠ 0#3))) →
    l = cmds.flatMap (fun i => (writtenBits i s).getD []) →
    s.sinkAccepts (l.length / 8) →
    execAll (.openWr :: cmds) s = .next
      { s with
        wopen := true, err := .noError
        output := s.output ++ fullBytes l, sink := afterWrites (l.length / 8) s.sink
        wcnt := BitVec.ofNat 3 (l.length % 8), wacc := byteOfBits (l.drop (8 * (l.length / 8))) }

/-- R139, R175: flush law. If FLUSH F follows, the sink has the bytes of the bit string padded with F to a whole byte,
and nothing is pending; with F = 1 and ENC_SYM commands only, that is the wire format of an encode pass. -/
def Obligations.FlushedWritesPackThePaddedString : Prop :=
  ∀ (cmds : List Instr) (f : Bool) (s : State) (l : List Bool),
    s.snkPresent = true →
    (∀ i ∈ cmds, i.wellFormed = true ∧
      ((∃ b, i = .putBit b) ∨ (∃ n d, i = .putBits n d) ∨ (∃ x, i = .encSym x ∧ s.k ≠ 0#3))) →
    l = cmds.flatMap (fun i => (writtenBits i s).getD []) →
    s.sinkAccepts ((l.length + 7) / 8) →
    execAll (.openWr :: (cmds ++ [.flush f])) s = .next
      { s with
        wopen := true, err := .noError, wcnt := 0#3, wacc := 0#8
        output := s.output ++ fullBytes (padded f l), sink := afterWrites ((l.length + 7) / 8) s.sink }

/-- R65, R140: unpacking law. After OPEN_RD on a source that yields `bytes` and then EOI, get number `j` (from 0) gives
bit 7 - (j mod 8) of byte j / 8, and from the 8m-th on every get gives EOS. -/
def Obligations.GetsUnpackTheSource : Prop :=
  ∀ (bytes : List Byte) (rest : List SrcEvent) (s : State) (j : Nat),
    s.srcPresent = true → s.source = yields bytes (.answer .eoi :: rest) →
    ∃ t, execAll (.openRd :: List.replicate (j + 1) .getBit) s = .next t ∧
      (j < 8 * bytes.length →
        t.eos = false ∧ t.data = BitVec.ofNat 8 ((bytes.getD (j / 8) 0#8).getLsbD (7 - j % 8)).toNat) ∧
      (8 * bytes.length ≤ j → t.eos = true)

/-- R141: symmetry, with both sides run. After OPEN_WR, any mix of PUT_BIT, PUT_BITS and ENC_SYM that writes the bit string
`l`, and FLUSH F, the sink's output is read back: after OPEN_RD on a source that yields it and then EOI, get number `j`
(from 0) gives bit `j` of `l` followed by the fill bits, and every get after those gives EOS. -/
def Obligations.ReadSideSeesWhatTheWriteSidePacked : Prop :=
  ∀ (cmds : List Instr) (f : Bool) (s t : State) (l : List Bool),
    s.snkPresent = true → s.output = [] →
    (∀ i ∈ cmds, i.wellFormed = true ∧
      ((∃ b, i = .putBit b) ∨ (∃ n d, i = .putBits n d) ∨ (∃ x, i = .encSym x ∧ s.k ≠ 0#3))) →
    l = cmds.flatMap (fun i => (writtenBits i s).getD []) →
    s.sinkAccepts ((l.length + 7) / 8) →
    execAll (.openWr :: (cmds ++ [.flush f])) s = .next t →
    ∀ (u : State) (more : List SrcEvent) (j : Nat),
      u.srcPresent = true → u.source = yields t.output (.answer .eoi :: more) →
      ∃ v, execAll (.openRd :: List.replicate (j + 1) .getBit) u = .next v ∧
        (j < (padded f l).length → v.eos = false ∧ v.data = BitVec.ofNat 8 ((padded f l).getD j false).toNat) ∧
        ((padded f l).length ≤ j → v.eos = true)

/-! ## The encoder (spec/41_encoder.md) -/

/-- R170: quotient and remainder give the symbol back, and the quotient is at most 255 >> k. -/
def Obligations.QuotientAndRemainderGiveTheSymbol : Prop :=
  ∀ (x : Byte) (k : Nat), 1 ≤ k → k ≤ 7 →
    quotient x k = x.toNat / 2 ^ k ∧ (remainder x k).toNat = x.toNat % 2 ^ k ∧
    joinSymbol (BitVec.ofNat 8 (quotient x k)) (remainder x k) k = x ∧ quotient x k ≤ 255 / 2 ^ k

/-- R8, R171: a code word has q + 1 + k bits, at least k + 1 and at most 129. -/
def Obligations.CodeWordLength : Prop :=
  ∀ (x : Byte) (k : Nat), 1 ≤ k → k ≤ 7 →
    (codeWord k x).length = x.toNat / 2 ^ k + 1 + k ∧ k + 1 ≤ (codeWord k x).length ∧ (codeWord k x).length ≤ 129

/-- R171, R172, R173: ENC_SYM writes the symbol's code word under K to the write side, emitting
(WCNT + q + 1 + k) / 8 bytes, and does not flush. -/
def Obligations.EncSymWritesTheCodeWord : Prop :=
  ∀ (s : State) (x : Byte), s.Inv → s.wopen = true → s.k ≠ 0#3 →
    (s.bytesDue (codeWord s.k.toNat x)).length =
      (s.wcnt.toNat + x.toNat / 2 ^ s.k.toNat + 1 + s.k.toNat) / 8 ∧
    (s.sinkAccepts ((s.wcnt.toNat + x.toNat / 2 ^ s.k.toNat + 1 + s.k.toNat) / 8) →
      exec (.encSym x) s = .next { s.wrote (codeWord s.k.toNat x) with err := .noError })

/-- R174, R175, R177: ENCODE on a source that yields the symbols and then EOI, and a sink that accepts, writes the wire
format: the code words and 1-bits up to a whole byte, no byte for no symbol. Any open handle is discarded, both sides
end closed, and RESULT, DSTATE and DOVF keep their values. -/
def Obligations.EncodeWritesTheWireFormat : Prop :=
  ∀ (symbols : List Byte) (rest : List SrcEvent) (s : State),
    s.srcPresent = true → s.snkPresent = true → s.k ≠ 0#3 →
    s.source = yields symbols (.answer .eoi :: rest) →
    s.sinkAccepts (streamBytes s.k.toNat true symbols).length →
    exec .encodePass s = .next
      { s with
        output := s.output ++ streamBytes s.k.toNat true symbols
        sink := afterWrites (streamBytes s.k.toNat true symbols).length s.sink, source := rest
        wopen := false, wacc := 0#8, wcnt := 0#3
        ropen := false, rbuf := 0#8, rcnt := 0#4, reoi := false, err := .noError }

/-- R174, R223: when the source fails in an encode pass, the sink keeps the whole bytes written so far, the pending bits
are discarded, both sides end closed and ERR is IOFailure. -/
def Obligations.SourceFailureAbortsEncode : Prop :=
  ∀ (symbols : List Byte) (rest : List SrcEvent) (s : State),
    s.srcPresent = true → s.snkPresent = true → s.k ≠ 0#3 →
    s.source = yields symbols (.answer .fail :: rest) →
    s.sinkAccepts (fullBytes (codeBits s.k.toNat symbols)).length →
    exec .encodePass s = .next
      { s with
        output := s.output ++ fullBytes (codeBits s.k.toNat symbols)
        sink := afterWrites (fullBytes (codeBits s.k.toNat symbols)).length s.sink, source := rest
        wopen := false, wacc := 0#8, wcnt := 0#3
        ropen := false, rbuf := 0#8, rcnt := 0#4, reoi := false, err := .ioFailure }

/-- R174, R223: when the sink fails byte number `j` (from 0) of those an encode pass completes, the bytes before it stand,
the failed one is not retried, both sides end closed with nothing pending, ERR is IOFailure, and RESULT, DSTATE and DOVF
keep their values. -/
def Obligations.SinkFailureAbortsEncode : Prop :=
  ∀ (symbols : List Byte) (rest : List SrcEvent) (s : State) (j : Nat) (kept : Bool),
    s.srcPresent = true → s.snkPresent = true → s.k ≠ 0#3 →
    s.source = yields symbols (.answer .eoi :: rest) →
    j < (streamBytes s.k.toNat true symbols).length →
    s.sink.take (j + 1) = List.replicate j SnkEvent.ok ++ [.fail kept] →
    ∃ t, exec .encodePass s = .next t ∧ t.err = .ioFailure ∧ t.wopen = false ∧ t.ropen = false ∧
      t.wacc = 0#8 ∧ t.wcnt = 0#3 ∧ t.sink = s.sink.drop (j + 1) ∧
      t.output = s.output ++ (streamBytes s.k.toNat true symbols).take (if kept then j + 1 else j) ∧
      t.data = s.data ∧ t.eos = s.eos ∧ t.q = s.q ∧ t.dst = s.dst ∧ t.dovf = s.dovf

/-! ## The decoder (spec/42_decoder.md) -/

/-- R191, R192, R194, R196: DEC_SYM with a whole code word ahead whose value is in [0,255] returns the symbol
`(q << k) | r`, having taken exactly its bits; Q returns to 0 and DST to SCAN. -/
def Obligations.DecSymReturnsTheSymbol : Prop :=
  ∀ (s : State) (m : Nat) (l : List Bool), s.Inv → s.ropen = true → s.k ≠ 0#3 → s.dst = .scan →
    s.ahead = List.replicate m true ++ false :: l → s.k.toNat ≤ l.length →
    s.q.toNat + m ≤ 255 / 2 ^ s.k.toNat →
    exec .decSym s = .next
      { s.took (m + 1 + s.k.toNat) with
        data := BitVec.ofNat 8 ((s.q.toNat + m) * 2 ^ s.k.toNat + natOfBits (l.take s.k.toNat)), eos := false
        q := 0#8, dst := .scan, err := .noError }

/-- R194, R200, R227 (U4): DEC_SYM with a whole code word ahead whose value is above 255 is no error and no fault: it
takes its bits, sets DOVF and returns an open byte with EOS 0, ready for the next symbol. -/
def Obligations.DecSymOutOfDomainSetsDovf : Prop :=
  ∀ (s : State) (m : Nat) (l : List Bool), s.Inv → s.ropen = true → s.k ≠ 0#3 → s.dst = .scan →
    s.ahead = List.replicate m true ++ false :: l → s.k.toNat ≤ l.length →
    255 / 2 ^ s.k.toNat < s.q.toNat + m →
    ∃ v, exec .decSym s = .next
      { s.took (m + 1 + s.k.toNat) with
        data := v, eos := false, draws := s.draws + 1, dovf := true, q := 0#8, dst := .scan, err := .noError }

/-- R192, R193, R195, R199: DEC_SYM at end of stream emits nothing and ends in DONE with EOS 1, DATA open and ERR 0: in
ScanningUnary after m 1-bits (path A), and in ReadingRemainder with fewer than k bits left (path B), Q keeping the
count, saturated at 255; in DONE it returns EOS and reads nothing. -/
def Obligations.DecSymEndOfStream : Prop :=
  ∀ s : State, s.Inv → s.ropen = true → s.k ≠ 0#3 →
    (∀ m, s.dst = .scan → s.endsInEoi → s.ahead = List.replicate m true →
      ∃ v, exec .decSym s = .next
        { s.drained with
          data := v, eos := true, draws := s.draws + 1, q := quotientAfter s.q m, dst := .done
          err := .noError }) ∧
    (∀ m l, s.dst = .scan → s.endsInEoi → s.ahead = List.replicate m true ++ false :: l → l.length < s.k.toNat →
      ∃ v, exec .decSym s = .next
        { s.drained with
          data := v, eos := true, draws := s.draws + 1, q := quotientAfter s.q m, dst := .done
          err := .noError }) ∧
    (s.dst = .done →
      ∃ v, exec .decSym s = .next { s with data := v, eos := true, draws := s.draws + 1, err := .noError })

/-- R129, R191, R223: DEC_SYM whose source fails before the code word is complete closes the read side with DST DONE, Q
keeping the count, RESULT keeping its value, and ERR is IOFailure. -/
def Obligations.SourceFailureAbortsDecSym : Prop :=
  ∀ (s : State) (m : Nat), s.Inv → s.ropen = true → s.k ≠ 0#3 → s.dst = .scan → s.endsInFail →
    (s.ahead = List.replicate m true ∨
      ∃ l, s.ahead = List.replicate m true ++ false :: l ∧ l.length < s.k.toNat) →
    exec .decSym s = .next { s.readFailed with q := quotientAfter s.q m, err := .ioFailure }

/-- R197, R200, R201: DECODE on any source that yields bytes and then EOI, and a sink that accepts, ends with ERR 0
whatever the bytes are: it emits the symbols the bit string decodes to, in order, a value above 255 as an open byte with
DOVF set; it reads no further than the EOI; both sides end closed, DST is DONE and Q keeps the count. -/
def Obligations.DecodeEmitsTheDecodedStream : Prop :=
  ∀ (bytes : List Byte) (rest : List SrcEvent) (s : State),
    s.srcPresent = true → s.snkPresent = true → s.k ≠ 0#3 →
    s.source = yields bytes (.answer .eoi :: rest) →
    s.sinkAccepts (decodeBits s.k.toNat (unpack bytes)).1.length →
    ∃ (out : List Byte) (v : Byte) (draws : Nat),
      List.Forall₂ emits (decodeBits s.k.toNat (unpack bytes)).1 out ∧
      exec .decodePass s = .next
        { s with
          output := s.output ++ out, sink := afterWrites out.length s.sink, source := rest
          wopen := false, wacc := 0#8, wcnt := 0#3
          ropen := false, rbuf := 0#8, rcnt := 0#4, reoi := false
          data := v, eos := true, draws := draws
          dovf := (decodeBits s.k.toNat (unpack bytes)).1.any Option.isNone
          q := quotientAfter 0#8 (decodeBits s.k.toNat (unpack bytes)).2, dst := .done, err := .noError }

/-- R200: a source of m bytes makes DECODE emit at most 8m / (k + 1) symbols, and a sink that accepts so many bytes is
enough for the pass to end with no error. -/
def Obligations.DecodeEmitsBoundedlyManySymbols : Prop :=
  ∀ (bytes : List Byte) (rest : List SrcEvent) (s : State),
    s.srcPresent = true → s.snkPresent = true → s.k ≠ 0#3 →
    s.source = yields bytes (.answer .eoi :: rest) →
    s.sinkAccepts (8 * bytes.length / (s.k.toNat + 1)) →
    ∃ t, exec .decodePass s = .next t ∧ t.err = .noError ∧ t.dst = .done ∧ t.source = rest ∧
      s.output.length ≤ t.output.length ∧
      t.output.length ≤ s.output.length + 8 * bytes.length / (s.k.toNat + 1)

/-- R198: round trip. On the bytes that an encode pass writes for a symbol sequence, the pass being ENCODE or OPEN_WR, an
ENC_SYM for each symbol and FLUSH 1, DECODE with the same K emits exactly that sequence, in order; DOVF is 0, DST is DONE
and Q is the padding length. -/
def Obligations.DecodeInvertsEncode : Prop :=
  ∀ (symbols : List Byte) (s t : State),
    s.snkPresent = true → s.k ≠ 0#3 → s.output = [] →
    s.sinkAccepts (streamBytes s.k.toNat true symbols).length →
    (s.srcPresent = true ∧ (∃ rest, s.source = yields symbols (.answer .eoi :: rest)) ∧ exec .encodePass s = .next t ∨
      execAll (.openWr :: (symbols.map .encSym ++ [.flush true])) s = .next t) →
    ∀ (more : List SrcEvent) (u : State),
      u.srcPresent = true → u.snkPresent = true → u.k = s.k →
      u.source = yields t.output (.answer .eoi :: more) → u.sinkAccepts symbols.length →
      ∃ r, exec .decodePass u = .next r ∧ r.output = u.output ++ symbols ∧ r.dovf = false ∧ r.dst = .done ∧
        r.q = BitVec.ofNat 8 (padding (codeBits s.k.toNat symbols).length) ∧ r.err = .noError ∧ r.source = more

/-- R202: fill-bit regression law. On a stream padded with p 0-bits DECODE emits the symbols and then p / (k + 1) phantom
symbols, each 0. -/
def Obligations.ZeroFillAddsPhantomSymbols : Prop :=
  ∀ (symbols : List Byte) (rest : List SrcEvent) (s : State),
    s.srcPresent = true → s.snkPresent = true → s.k ≠ 0#3 →
    s.source = yields (streamBytes s.k.toNat false symbols) (.answer .eoi :: rest) →
    s.sinkAccepts (symbols.length + padding (codeBits s.k.toNat symbols).length / (s.k.toNat + 1)) →
    ∃ t, exec .decodePass s = .next t ∧ t.err = .noError ∧ t.dovf = false ∧ t.dst = .done ∧ t.q = 0#8 ∧
      t.output = s.output ++ symbols ++
        List.replicate (padding (codeBits s.k.toNat symbols).length / (s.k.toNat + 1)) 0#8

/-- R129, R197, R223: when the sink fails symbol number `j` (from 0) of a decode pass, the symbols before it stand, the
read side is closed with DST DONE, RESULT keeps its value and ERR is IOFailure. -/
def Obligations.SinkFailureAbortsDecode : Prop :=
  ∀ (bytes : List Byte) (rest : List SrcEvent) (s : State) (j : Nat) (kept : Bool),
    s.srcPresent = true → s.snkPresent = true → s.k ≠ 0#3 →
    s.source = yields bytes (.answer .eoi :: rest) →
    j < (decodeBits s.k.toNat (unpack bytes)).1.length →
    s.sink.take (j + 1) = List.replicate j SnkEvent.ok ++ [.fail kept] →
    ∃ (t : State) (out : List Byte),
      exec .decodePass s = .next t ∧ t.err = .ioFailure ∧ t.ropen = false ∧ t.wopen = false ∧ t.dst = .done ∧
      t.data = s.data ∧ t.eos = s.eos ∧ t.sink = s.sink.drop (j + 1) ∧ t.output = s.output ++ out ∧
      List.Forall₂ emits ((decodeBits s.k.toNat (unpack bytes)).1.take (if kept then j + 1 else j)) out

/-- R129, R197, R223: when the source fails in a decode pass, the symbols whose bits it had given stand, the read side is
closed with DST DONE, RESULT keeps its value and ERR is IOFailure. -/
def Obligations.SourceFailureAbortsDecode : Prop :=
  ∀ (bytes : List Byte) (rest : List SrcEvent) (s : State),
    s.srcPresent = true → s.snkPresent = true → s.k ≠ 0#3 →
    s.source = yields bytes (.answer .fail :: rest) →
    s.sinkAccepts (decodeBits s.k.toNat (unpack bytes)).1.length →
    ∃ (t : State) (out : List Byte),
      exec .decodePass s = .next t ∧ t.err = .ioFailure ∧ t.ropen = false ∧ t.wopen = false ∧ t.dst = .done ∧
      t.data = s.data ∧ t.eos = s.eos ∧ t.source = rest ∧ t.output = s.output ++ out ∧
      List.Forall₂ emits (decodeBits s.k.toNat (unpack bytes)).1 out

/-! ## Programs (spec/30_encoding.md R100, R101) -/

/-- R100: an assembler accepts a line exactly when its operands fit, and a command line means a write of its word to
CMD. -/
def Obligations.AssemblerRefusesOperandsOutOfField : Prop :=
  (∀ b, (assemble (.putBit b)).isSome = true ↔ b ≤ 1) ∧
  (∀ f, (assemble (.flush f)).isSome = true ↔ f ≤ 1) ∧
  (∀ x, (assemble (.encSym x)).isSome = true ↔ x ≤ 255) ∧
  (∀ n, (assemble (.getBits n)).isSome = true ↔ n ≤ 8) ∧
  (∀ n, (assemble (.close (.number n))).isSome = true ↔ n ≤ 3) ∧
  (∀ n v, (assemble (.putBits n v)).isSome = true ↔ n ≤ 8 ∧ v < 2 ^ n) ∧
  (∀ r v, (assemble (.wr r v)).isSome = true ↔ v ≤ 0xFFFF ∧ (regAddress r).isSome = true) ∧
  (∀ n v, n ≤ 8 → v < 2 ^ n →
    assemble (.putBits n v) = some [.write 0#3 (BitVec.ofNat 16 (0x5000 + 256 * n + v))])

/-- R101: PUT_UNARY q and then PUT_BITS k, r, run as a program, leave what ENC_SYM leaves, q and r being the symbol's
quotient and remainder under K and the sink accepting. -/
def Obligations.PutUnaryAndPutBitsWriteTheCodeWord : Prop :=
  ∀ (s : State) (x : Byte) (rest : List HostEvent) (program : List HostEvent),
    s.Inv → s.wopen = true → s.k ≠ 0#3 → s.sinkAccepts (s.bytesDue (codeWord s.k.toNat x)).length →
    assembleProgram [.putUnary (x.toNat / 2 ^ s.k.toNat), .putBits s.k.toNat (x.toNat % 2 ^ s.k.toNat)] =
      some program →
    s.host = program ++ rest →
    core.run program.length s = exec (.encSym x) { s with host := rest }

/-! ## Passes cut off by reset, and passes without an end (spec/60_exceptions.md R234, spec/70_reset_and_hazards.md R250) -/

/-- R250 (U6, log 4): a reset asserted while a transfer of ENCODE or DECODE is in flight abandons the pass as it does any
other command (ResetAbandonsTheTransfer): on the read after the source's bytes, and on the write of byte or symbol number
`j` (from 0). Of the source, what is left after a write that is cut off is one of the lists that reads leave. -/
def Obligations.ResetAbandonsThePass : Prop :=
  ∀ (s : State) (bytes : List Byte), s.srcPresent = true → s.snkPresent = true → s.k ≠ 0#3 →
    (∀ consumed rest, s.source = yields bytes (.reset consumed :: rest) →
      s.sinkAccepts (fullBytes (codeBits s.k.toNat bytes)).length →
      exec .encodePass s = .next (resetCore
        { s with
          source := if consumed then dropByte rest else rest
          sink := afterWrites (fullBytes (codeBits s.k.toNat bytes)).length s.sink
          output := s.output ++ fullBytes (codeBits s.k.toNat bytes) })) ∧
    (∀ j kept rest more, s.source = yields bytes (.answer .eoi :: more) →
      j < (streamBytes s.k.toNat true bytes).length → s.sink = List.replicate j SnkEvent.ok ++ .reset kept :: rest →
      ∃ n, exec .encodePass s = .next (resetCore
        { s with
          source := afterReads n s.source, sink := rest
          output := s.output ++ (streamBytes s.k.toNat true bytes).take (if kept then j + 1 else j) })) ∧
    (∀ consumed rest, s.source = yields bytes (.reset consumed :: rest) →
      s.sinkAccepts (decodeBits s.k.toNat (unpack bytes)).1.length →
      ∃ out d, List.Forall₂ emits (decodeBits s.k.toNat (unpack bytes)).1 out ∧
        exec .decodePass s = .next (resetCore
          { s with
            source := if consumed then dropByte rest else rest, sink := afterWrites out.length s.sink
            output := s.output ++ out, draws := d })) ∧
    (∀ j kept rest more, s.source = yields bytes (.answer .eoi :: more) →
      j < (decodeBits s.k.toNat (unpack bytes)).1.length →
      s.sink = List.replicate j SnkEvent.ok ++ .reset kept :: rest →
      ∃ n out d,
        List.Forall₂ emits ((decodeBits s.k.toNat (unpack bytes)).1.take (if kept then j + 1 else j)) out ∧
        exec .decodePass s = .next (resetCore
          { s with source := afterReads n s.source, sink := rest, output := s.output ++ out, draws := d }))

/-- R234, R174, R197 (log 3): ENCODE hangs exactly when the source yields bytes forever and the sink accepts forever, and
DECODE hangs on such channels too. -/
def Obligations.PassesHangOnAnEndlessSource : Prop :=
  ∀ s : State, s.srcPresent = true → s.snkPresent = true → s.k ≠ 0#3 →
    (exec .encodePass s = .fault .hang ↔ yieldsForever s.source ∧ acceptsForever s.sink) ∧
    (yieldsForever s.source → acceptsForever s.sink → exec .decodePass s = .fault .hang)

/-- R234, R267: a command on a source that ends, or stops answering, never hangs; and only ENCODE, DECODE and DEC_SYM (log 3)
can. -/
def Obligations.OnlyAnEndlessSourceHangs : Prop :=
  ∀ (i : Instr) (s : State), exec i s = .fault .hang →
    yieldsForever s.source ∧ (i = .encodePass ∨ i = .decodePass ∨ i = .decSym)

/-- R234, R174, R191, R197 (log 17): a hang is an infinite execution: the fault is reported exactly where no number of turns
ends the command's loop. -/
def Obligations.HangIsAnInfiniteExecution : Prop :=
  ∀ s : State, s.k ≠ 0#3 →
    (s.Inv → s.ropen = true → (exec .decSym s = .fault .hang ↔ ∀ n, decodeLoop n s = .stop .hang)) ∧
    (s.srcPresent = true → s.snkPresent = true →
      (exec .encodePass s = .fault .hang ↔ ∀ n, encodeLoop n (openW (closeR s)) = .stop .hang) ∧
      (exec .decodePass s = .fault .hang ↔ ∀ n, decodePassLoop n (openR (closeW s)) = .stop .hang))

/-- R67, R234 (log 3): an endless source is its periods, one after the other. Writing one period out in front of the periods
to come changes nothing: every command gives the same outcome, or next states that differ in just that. -/
def Obligations.EndlessSourceIsItsPeriods : Prop :=
  ∀ (i : Instr) (s : State) (bytes : List Byte) (b : Byte) (more : List Byte) (rest : List SrcEvent), s.Inv →
    exec i { s with source := yields (bytes ++ b :: more) (.endless b more :: rest) } =
      exec i { s with source := yields bytes (.endless b more :: rest) } ∨
    ∃ (t : State) (left : List Byte),
      exec i { s with source := yields bytes (.endless b more :: rest) } =
        .next { t with source := yields left (.endless b more :: rest) } ∧
      exec i { s with source := yields (bytes ++ b :: more) (.endless b more :: rest) } =
        .next { t with source := yields (left ++ b :: more) (.endless b more :: rest) }
end

