-- ==== Sys2Proof/Laws/State.lean ====
section
/-! SUPPORT. One lemma per field per named update of the state, each true by definition, so that no proof unfolds a
record update. -/

namespace Sys2Proof.Machine

@[simp] theorem setErr_k (e : ErrorKind) (s : State) : (setErr e s).k = s.k := rfl
@[simp] theorem setErr_err (e : ErrorKind) (s : State) : (setErr e s).err = e := rfl
@[simp] theorem setErr_wopen (e : ErrorKind) (s : State) : (setErr e s).wopen = s.wopen := rfl
@[simp] theorem setErr_ropen (e : ErrorKind) (s : State) : (setErr e s).ropen = s.ropen := rfl
@[simp] theorem setErr_dovf (e : ErrorKind) (s : State) : (setErr e s).dovf = s.dovf := rfl
@[simp] theorem setErr_data (e : ErrorKind) (s : State) : (setErr e s).data = s.data := rfl
@[simp] theorem setErr_eos (e : ErrorKind) (s : State) : (setErr e s).eos = s.eos := rfl
@[simp] theorem setErr_wacc (e : ErrorKind) (s : State) : (setErr e s).wacc = s.wacc := rfl
@[simp] theorem setErr_wcnt (e : ErrorKind) (s : State) : (setErr e s).wcnt = s.wcnt := rfl
@[simp] theorem setErr_rbuf (e : ErrorKind) (s : State) : (setErr e s).rbuf = s.rbuf := rfl
@[simp] theorem setErr_rcnt (e : ErrorKind) (s : State) : (setErr e s).rcnt = s.rcnt := rfl
@[simp] theorem setErr_reoi (e : ErrorKind) (s : State) : (setErr e s).reoi = s.reoi := rfl
@[simp] theorem setErr_q (e : ErrorKind) (s : State) : (setErr e s).q = s.q := rfl
@[simp] theorem setErr_dst (e : ErrorKind) (s : State) : (setErr e s).dst = s.dst := rfl
@[simp] theorem setErr_srcPresent (e : ErrorKind) (s : State) : (setErr e s).srcPresent = s.srcPresent := rfl
@[simp] theorem setErr_snkPresent (e : ErrorKind) (s : State) : (setErr e s).snkPresent = s.snkPresent := rfl
@[simp] theorem setErr_source (e : ErrorKind) (s : State) : (setErr e s).source = s.source := rfl
@[simp] theorem setErr_sink (e : ErrorKind) (s : State) : (setErr e s).sink = s.sink := rfl
@[simp] theorem setErr_output (e : ErrorKind) (s : State) : (setErr e s).output = s.output := rfl
@[simp] theorem setErr_host (e : ErrorKind) (s : State) : (setErr e s).host = s.host := rfl
@[simp] theorem setErr_readLog (e : ErrorKind) (s : State) : (setErr e s).readLog = s.readLog := rfl
@[simp] theorem setErr_draws (e : ErrorKind) (s : State) : (setErr e s).draws = s.draws := rfl

@[simp] theorem setResult_k (v : Byte) (s : State) : (setResult v s).k = s.k := rfl
@[simp] theorem setResult_err (v : Byte) (s : State) : (setResult v s).err = s.err := rfl
@[simp] theorem setResult_wopen (v : Byte) (s : State) : (setResult v s).wopen = s.wopen := rfl
@[simp] theorem setResult_ropen (v : Byte) (s : State) : (setResult v s).ropen = s.ropen := rfl
@[simp] theorem setResult_dovf (v : Byte) (s : State) : (setResult v s).dovf = s.dovf := rfl
@[simp] theorem setResult_data (v : Byte) (s : State) : (setResult v s).data = v := rfl
@[simp] theorem setResult_eos (v : Byte) (s : State) : (setResult v s).eos = false := rfl
@[simp] theorem setResult_wacc (v : Byte) (s : State) : (setResult v s).wacc = s.wacc := rfl
@[simp] theorem setResult_wcnt (v : Byte) (s : State) : (setResult v s).wcnt = s.wcnt := rfl
@[simp] theorem setResult_rbuf (v : Byte) (s : State) : (setResult v s).rbuf = s.rbuf := rfl
@[simp] theorem setResult_rcnt (v : Byte) (s : State) : (setResult v s).rcnt = s.rcnt := rfl
@[simp] theorem setResult_reoi (v : Byte) (s : State) : (setResult v s).reoi = s.reoi := rfl
@[simp] theorem setResult_q (v : Byte) (s : State) : (setResult v s).q = s.q := rfl
@[simp] theorem setResult_dst (v : Byte) (s : State) : (setResult v s).dst = s.dst := rfl
@[simp] theorem setResult_srcPresent (v : Byte) (s : State) : (setResult v s).srcPresent = s.srcPresent := rfl
@[simp] theorem setResult_snkPresent (v : Byte) (s : State) : (setResult v s).snkPresent = s.snkPresent := rfl
@[simp] theorem setResult_source (v : Byte) (s : State) : (setResult v s).source = s.source := rfl
@[simp] theorem setResult_sink (v : Byte) (s : State) : (setResult v s).sink = s.sink := rfl
@[simp] theorem setResult_output (v : Byte) (s : State) : (setResult v s).output = s.output := rfl
@[simp] theorem setResult_host (v : Byte) (s : State) : (setResult v s).host = s.host := rfl
@[simp] theorem setResult_readLog (v : Byte) (s : State) : (setResult v s).readLog = s.readLog := rfl
@[simp] theorem setResult_draws (v : Byte) (s : State) : (setResult v s).draws = s.draws := rfl

@[simp] theorem setEndOfStream_k (v : Byte) (s : State) : (setEndOfStream v s).k = s.k := rfl
@[simp] theorem setEndOfStream_err (v : Byte) (s : State) : (setEndOfStream v s).err = s.err := rfl
@[simp] theorem setEndOfStream_wopen (v : Byte) (s : State) : (setEndOfStream v s).wopen = s.wopen := rfl
@[simp] theorem setEndOfStream_ropen (v : Byte) (s : State) : (setEndOfStream v s).ropen = s.ropen := rfl
@[simp] theorem setEndOfStream_dovf (v : Byte) (s : State) : (setEndOfStream v s).dovf = s.dovf := rfl
@[simp] theorem setEndOfStream_data (v : Byte) (s : State) : (setEndOfStream v s).data = v := rfl
@[simp] theorem setEndOfStream_eos (v : Byte) (s : State) : (setEndOfStream v s).eos = true := rfl
@[simp] theorem setEndOfStream_wacc (v : Byte) (s : State) : (setEndOfStream v s).wacc = s.wacc := rfl
@[simp] theorem setEndOfStream_wcnt (v : Byte) (s : State) : (setEndOfStream v s).wcnt = s.wcnt := rfl
@[simp] theorem setEndOfStream_rbuf (v : Byte) (s : State) : (setEndOfStream v s).rbuf = s.rbuf := rfl
@[simp] theorem setEndOfStream_rcnt (v : Byte) (s : State) : (setEndOfStream v s).rcnt = s.rcnt := rfl
@[simp] theorem setEndOfStream_reoi (v : Byte) (s : State) : (setEndOfStream v s).reoi = s.reoi := rfl
@[simp] theorem setEndOfStream_q (v : Byte) (s : State) : (setEndOfStream v s).q = s.q := rfl
@[simp] theorem setEndOfStream_dst (v : Byte) (s : State) : (setEndOfStream v s).dst = s.dst := rfl
@[simp] theorem setEndOfStream_srcPresent (v : Byte) (s : State) : (setEndOfStream v s).srcPresent = s.srcPresent := rfl
@[simp] theorem setEndOfStream_snkPresent (v : Byte) (s : State) : (setEndOfStream v s).snkPresent = s.snkPresent := rfl
@[simp] theorem setEndOfStream_source (v : Byte) (s : State) : (setEndOfStream v s).source = s.source := rfl
@[simp] theorem setEndOfStream_sink (v : Byte) (s : State) : (setEndOfStream v s).sink = s.sink := rfl
@[simp] theorem setEndOfStream_output (v : Byte) (s : State) : (setEndOfStream v s).output = s.output := rfl
@[simp] theorem setEndOfStream_host (v : Byte) (s : State) : (setEndOfStream v s).host = s.host := rfl
@[simp] theorem setEndOfStream_readLog (v : Byte) (s : State) : (setEndOfStream v s).readLog = s.readLog := rfl
@[simp] theorem setEndOfStream_draws (v : Byte) (s : State) : (setEndOfStream v s).draws = s.draws := rfl

@[simp] theorem resetCore_k (s : State) : (resetCore s).k = State.reset.k := rfl
@[simp] theorem resetCore_err (s : State) : (resetCore s).err = State.reset.err := rfl
@[simp] theorem resetCore_wopen (s : State) : (resetCore s).wopen = State.reset.wopen := rfl
@[simp] theorem resetCore_ropen (s : State) : (resetCore s).ropen = State.reset.ropen := rfl
@[simp] theorem resetCore_dovf (s : State) : (resetCore s).dovf = State.reset.dovf := rfl
@[simp] theorem resetCore_data (s : State) : (resetCore s).data = State.reset.data := rfl
@[simp] theorem resetCore_eos (s : State) : (resetCore s).eos = State.reset.eos := rfl
@[simp] theorem resetCore_wacc (s : State) : (resetCore s).wacc = State.reset.wacc := rfl
@[simp] theorem resetCore_wcnt (s : State) : (resetCore s).wcnt = State.reset.wcnt := rfl
@[simp] theorem resetCore_rbuf (s : State) : (resetCore s).rbuf = State.reset.rbuf := rfl
@[simp] theorem resetCore_rcnt (s : State) : (resetCore s).rcnt = State.reset.rcnt := rfl
@[simp] theorem resetCore_reoi (s : State) : (resetCore s).reoi = State.reset.reoi := rfl
@[simp] theorem resetCore_q (s : State) : (resetCore s).q = State.reset.q := rfl
@[simp] theorem resetCore_dst (s : State) : (resetCore s).dst = State.reset.dst := rfl
@[simp] theorem resetCore_srcPresent (s : State) : (resetCore s).srcPresent = s.srcPresent := rfl
@[simp] theorem resetCore_snkPresent (s : State) : (resetCore s).snkPresent = s.snkPresent := rfl
@[simp] theorem resetCore_source (s : State) : (resetCore s).source = s.source := rfl
@[simp] theorem resetCore_sink (s : State) : (resetCore s).sink = s.sink := rfl
@[simp] theorem resetCore_output (s : State) : (resetCore s).output = s.output := rfl
@[simp] theorem resetCore_host (s : State) : (resetCore s).host = s.host := rfl
@[simp] theorem resetCore_readLog (s : State) : (resetCore s).readLog = s.readLog := rfl
@[simp] theorem resetCore_draws (s : State) : (resetCore s).draws = s.draws := rfl

@[simp] theorem appendOutput_k (b : Byte) (s : State) : (appendOutput b s).k = s.k := rfl
@[simp] theorem appendOutput_err (b : Byte) (s : State) : (appendOutput b s).err = s.err := rfl
@[simp] theorem appendOutput_wopen (b : Byte) (s : State) : (appendOutput b s).wopen = s.wopen := rfl
@[simp] theorem appendOutput_ropen (b : Byte) (s : State) : (appendOutput b s).ropen = s.ropen := rfl
@[simp] theorem appendOutput_dovf (b : Byte) (s : State) : (appendOutput b s).dovf = s.dovf := rfl
@[simp] theorem appendOutput_data (b : Byte) (s : State) : (appendOutput b s).data = s.data := rfl
@[simp] theorem appendOutput_eos (b : Byte) (s : State) : (appendOutput b s).eos = s.eos := rfl
@[simp] theorem appendOutput_wacc (b : Byte) (s : State) : (appendOutput b s).wacc = s.wacc := rfl
@[simp] theorem appendOutput_wcnt (b : Byte) (s : State) : (appendOutput b s).wcnt = s.wcnt := rfl
@[simp] theorem appendOutput_rbuf (b : Byte) (s : State) : (appendOutput b s).rbuf = s.rbuf := rfl
@[simp] theorem appendOutput_rcnt (b : Byte) (s : State) : (appendOutput b s).rcnt = s.rcnt := rfl
@[simp] theorem appendOutput_reoi (b : Byte) (s : State) : (appendOutput b s).reoi = s.reoi := rfl
@[simp] theorem appendOutput_q (b : Byte) (s : State) : (appendOutput b s).q = s.q := rfl
@[simp] theorem appendOutput_dst (b : Byte) (s : State) : (appendOutput b s).dst = s.dst := rfl
@[simp] theorem appendOutput_srcPresent (b : Byte) (s : State) : (appendOutput b s).srcPresent = s.srcPresent := rfl
@[simp] theorem appendOutput_snkPresent (b : Byte) (s : State) : (appendOutput b s).snkPresent = s.snkPresent := rfl
@[simp] theorem appendOutput_source (b : Byte) (s : State) : (appendOutput b s).source = s.source := rfl
@[simp] theorem appendOutput_sink (b : Byte) (s : State) : (appendOutput b s).sink = s.sink := rfl
@[simp] theorem appendOutput_output (b : Byte) (s : State) : (appendOutput b s).output = s.output ++ [b] := rfl
@[simp] theorem appendOutput_host (b : Byte) (s : State) : (appendOutput b s).host = s.host := rfl
@[simp] theorem appendOutput_readLog (b : Byte) (s : State) : (appendOutput b s).readLog = s.readLog := rfl
@[simp] theorem appendOutput_draws (b : Byte) (s : State) : (appendOutput b s).draws = s.draws := rfl

@[simp] theorem openW_k (s : State) : (openW s).k = s.k := rfl
@[simp] theorem openW_err (s : State) : (openW s).err = s.err := rfl
@[simp] theorem openW_wopen (s : State) : (openW s).wopen = true := rfl
@[simp] theorem openW_ropen (s : State) : (openW s).ropen = s.ropen := rfl
@[simp] theorem openW_dovf (s : State) : (openW s).dovf = s.dovf := rfl
@[simp] theorem openW_data (s : State) : (openW s).data = s.data := rfl
@[simp] theorem openW_eos (s : State) : (openW s).eos = s.eos := rfl
@[simp] theorem openW_wacc (s : State) : (openW s).wacc = 0#8 := rfl
@[simp] theorem openW_wcnt (s : State) : (openW s).wcnt = 0#3 := rfl
@[simp] theorem openW_rbuf (s : State) : (openW s).rbuf = s.rbuf := rfl
@[simp] theorem openW_rcnt (s : State) : (openW s).rcnt = s.rcnt := rfl
@[simp] theorem openW_reoi (s : State) : (openW s).reoi = s.reoi := rfl
@[simp] theorem openW_q (s : State) : (openW s).q = s.q := rfl
@[simp] theorem openW_dst (s : State) : (openW s).dst = s.dst := rfl
@[simp] theorem openW_srcPresent (s : State) : (openW s).srcPresent = s.srcPresent := rfl
@[simp] theorem openW_snkPresent (s : State) : (openW s).snkPresent = s.snkPresent := rfl
@[simp] theorem openW_source (s : State) : (openW s).source = s.source := rfl
@[simp] theorem openW_sink (s : State) : (openW s).sink = s.sink := rfl
@[simp] theorem openW_output (s : State) : (openW s).output = s.output := rfl
@[simp] theorem openW_host (s : State) : (openW s).host = s.host := rfl
@[simp] theorem openW_readLog (s : State) : (openW s).readLog = s.readLog := rfl
@[simp] theorem openW_draws (s : State) : (openW s).draws = s.draws := rfl

@[simp] theorem openR_k (s : State) : (openR s).k = s.k := rfl
@[simp] theorem openR_err (s : State) : (openR s).err = s.err := rfl
@[simp] theorem openR_wopen (s : State) : (openR s).wopen = s.wopen := rfl
@[simp] theorem openR_ropen (s : State) : (openR s).ropen = true := rfl
@[simp] theorem openR_dovf (s : State) : (openR s).dovf = false := rfl
@[simp] theorem openR_data (s : State) : (openR s).data = s.data := rfl
@[simp] theorem openR_eos (s : State) : (openR s).eos = s.eos := rfl
@[simp] theorem openR_wacc (s : State) : (openR s).wacc = s.wacc := rfl
@[simp] theorem openR_wcnt (s : State) : (openR s).wcnt = s.wcnt := rfl
@[simp] theorem openR_rbuf (s : State) : (openR s).rbuf = 0#8 := rfl
@[simp] theorem openR_rcnt (s : State) : (openR s).rcnt = 0#4 := rfl
@[simp] theorem openR_reoi (s : State) : (openR s).reoi = false := rfl
@[simp] theorem openR_q (s : State) : (openR s).q = 0#8 := rfl
@[simp] theorem openR_dst (s : State) : (openR s).dst = .scan := rfl
@[simp] theorem openR_srcPresent (s : State) : (openR s).srcPresent = s.srcPresent := rfl
@[simp] theorem openR_snkPresent (s : State) : (openR s).snkPresent = s.snkPresent := rfl
@[simp] theorem openR_source (s : State) : (openR s).source = s.source := rfl
@[simp] theorem openR_sink (s : State) : (openR s).sink = s.sink := rfl
@[simp] theorem openR_output (s : State) : (openR s).output = s.output := rfl
@[simp] theorem openR_host (s : State) : (openR s).host = s.host := rfl
@[simp] theorem openR_readLog (s : State) : (openR s).readLog = s.readLog := rfl
@[simp] theorem openR_draws (s : State) : (openR s).draws = s.draws := rfl

@[simp] theorem closeW_k (s : State) : (closeW s).k = s.k := rfl
@[simp] theorem closeW_err (s : State) : (closeW s).err = s.err := rfl
@[simp] theorem closeW_wopen (s : State) : (closeW s).wopen = false := rfl
@[simp] theorem closeW_ropen (s : State) : (closeW s).ropen = s.ropen := rfl
@[simp] theorem closeW_dovf (s : State) : (closeW s).dovf = s.dovf := rfl
@[simp] theorem closeW_data (s : State) : (closeW s).data = s.data := rfl
@[simp] theorem closeW_eos (s : State) : (closeW s).eos = s.eos := rfl
@[simp] theorem closeW_wacc (s : State) : (closeW s).wacc = 0#8 := rfl
@[simp] theorem closeW_wcnt (s : State) : (closeW s).wcnt = 0#3 := rfl
@[simp] theorem closeW_rbuf (s : State) : (closeW s).rbuf = s.rbuf := rfl
@[simp] theorem closeW_rcnt (s : State) : (closeW s).rcnt = s.rcnt := rfl
@[simp] theorem closeW_reoi (s : State) : (closeW s).reoi = s.reoi := rfl
@[simp] theorem closeW_q (s : State) : (closeW s).q = s.q := rfl
@[simp] theorem closeW_dst (s : State) : (closeW s).dst = s.dst := rfl
@[simp] theorem closeW_srcPresent (s : State) : (closeW s).srcPresent = s.srcPresent := rfl
@[simp] theorem closeW_snkPresent (s : State) : (closeW s).snkPresent = s.snkPresent := rfl
@[simp] theorem closeW_source (s : State) : (closeW s).source = s.source := rfl
@[simp] theorem closeW_sink (s : State) : (closeW s).sink = s.sink := rfl
@[simp] theorem closeW_output (s : State) : (closeW s).output = s.output := rfl
@[simp] theorem closeW_host (s : State) : (closeW s).host = s.host := rfl
@[simp] theorem closeW_readLog (s : State) : (closeW s).readLog = s.readLog := rfl
@[simp] theorem closeW_draws (s : State) : (closeW s).draws = s.draws := rfl

@[simp] theorem closeR_k (s : State) : (closeR s).k = s.k := rfl
@[simp] theorem closeR_err (s : State) : (closeR s).err = s.err := rfl
@[simp] theorem closeR_wopen (s : State) : (closeR s).wopen = s.wopen := rfl
@[simp] theorem closeR_ropen (s : State) : (closeR s).ropen = false := rfl
@[simp] theorem closeR_dovf (s : State) : (closeR s).dovf = s.dovf := rfl
@[simp] theorem closeR_data (s : State) : (closeR s).data = s.data := rfl
@[simp] theorem closeR_eos (s : State) : (closeR s).eos = s.eos := rfl
@[simp] theorem closeR_wacc (s : State) : (closeR s).wacc = s.wacc := rfl
@[simp] theorem closeR_wcnt (s : State) : (closeR s).wcnt = s.wcnt := rfl
@[simp] theorem closeR_rbuf (s : State) : (closeR s).rbuf = 0#8 := rfl
@[simp] theorem closeR_rcnt (s : State) : (closeR s).rcnt = 0#4 := rfl
@[simp] theorem closeR_reoi (s : State) : (closeR s).reoi = false := rfl
@[simp] theorem closeR_q (s : State) : (closeR s).q = s.q := rfl
@[simp] theorem closeR_dst (s : State) : (closeR s).dst = s.dst := rfl
@[simp] theorem closeR_srcPresent (s : State) : (closeR s).srcPresent = s.srcPresent := rfl
@[simp] theorem closeR_snkPresent (s : State) : (closeR s).snkPresent = s.snkPresent := rfl
@[simp] theorem closeR_source (s : State) : (closeR s).source = s.source := rfl
@[simp] theorem closeR_sink (s : State) : (closeR s).sink = s.sink := rfl
@[simp] theorem closeR_output (s : State) : (closeR s).output = s.output := rfl
@[simp] theorem closeR_host (s : State) : (closeR s).host = s.host := rfl
@[simp] theorem closeR_readLog (s : State) : (closeR s).readLog = s.readLog := rfl
@[simp] theorem closeR_draws (s : State) : (closeR s).draws = s.draws := rfl

@[simp] theorem abortW_k (s : State) : (abortW s).k = s.k := rfl
@[simp] theorem abortW_err (s : State) : (abortW s).err = s.err := rfl
@[simp] theorem abortW_wopen (s : State) : (abortW s).wopen = false := rfl
@[simp] theorem abortW_ropen (s : State) : (abortW s).ropen = s.ropen := rfl
@[simp] theorem abortW_dovf (s : State) : (abortW s).dovf = s.dovf := rfl
@[simp] theorem abortW_data (s : State) : (abortW s).data = s.data := rfl
@[simp] theorem abortW_eos (s : State) : (abortW s).eos = s.eos := rfl
@[simp] theorem abortW_wacc (s : State) : (abortW s).wacc = 0#8 := rfl
@[simp] theorem abortW_wcnt (s : State) : (abortW s).wcnt = 0#3 := rfl
@[simp] theorem abortW_rbuf (s : State) : (abortW s).rbuf = s.rbuf := rfl
@[simp] theorem abortW_rcnt (s : State) : (abortW s).rcnt = s.rcnt := rfl
@[simp] theorem abortW_reoi (s : State) : (abortW s).reoi = s.reoi := rfl
@[simp] theorem abortW_q (s : State) : (abortW s).q = s.q := rfl
@[simp] theorem abortW_dst (s : State) : (abortW s).dst = s.dst := rfl
@[simp] theorem abortW_srcPresent (s : State) : (abortW s).srcPresent = s.srcPresent := rfl
@[simp] theorem abortW_snkPresent (s : State) : (abortW s).snkPresent = s.snkPresent := rfl
@[simp] theorem abortW_source (s : State) : (abortW s).source = s.source := rfl
@[simp] theorem abortW_sink (s : State) : (abortW s).sink = s.sink := rfl
@[simp] theorem abortW_output (s : State) : (abortW s).output = s.output := rfl
@[simp] theorem abortW_host (s : State) : (abortW s).host = s.host := rfl
@[simp] theorem abortW_readLog (s : State) : (abortW s).readLog = s.readLog := rfl
@[simp] theorem abortW_draws (s : State) : (abortW s).draws = s.draws := rfl

@[simp] theorem abortR_k (s : State) : (abortR s).k = s.k := rfl
@[simp] theorem abortR_err (s : State) : (abortR s).err = s.err := rfl
@[simp] theorem abortR_wopen (s : State) : (abortR s).wopen = s.wopen := rfl
@[simp] theorem abortR_ropen (s : State) : (abortR s).ropen = false := rfl
@[simp] theorem abortR_dovf (s : State) : (abortR s).dovf = s.dovf := rfl
@[simp] theorem abortR_data (s : State) : (abortR s).data = s.data := rfl
@[simp] theorem abortR_eos (s : State) : (abortR s).eos = s.eos := rfl
@[simp] theorem abortR_wacc (s : State) : (abortR s).wacc = s.wacc := rfl
@[simp] theorem abortR_wcnt (s : State) : (abortR s).wcnt = s.wcnt := rfl
@[simp] theorem abortR_rbuf (s : State) : (abortR s).rbuf = 0#8 := rfl
@[simp] theorem abortR_rcnt (s : State) : (abortR s).rcnt = 0#4 := rfl
@[simp] theorem abortR_reoi (s : State) : (abortR s).reoi = false := rfl
@[simp] theorem abortR_q (s : State) : (abortR s).q = s.q := rfl
@[simp] theorem abortR_dst (s : State) : (abortR s).dst = .done := rfl
@[simp] theorem abortR_srcPresent (s : State) : (abortR s).srcPresent = s.srcPresent := rfl
@[simp] theorem abortR_snkPresent (s : State) : (abortR s).snkPresent = s.snkPresent := rfl
@[simp] theorem abortR_source (s : State) : (abortR s).source = s.source := rfl
@[simp] theorem abortR_sink (s : State) : (abortR s).sink = s.sink := rfl
@[simp] theorem abortR_output (s : State) : (abortR s).output = s.output := rfl
@[simp] theorem abortR_host (s : State) : (abortR s).host = s.host := rfl
@[simp] theorem abortR_readLog (s : State) : (abortR s).readLog = s.readLog := rfl
@[simp] theorem abortR_draws (s : State) : (abortR s).draws = s.draws := rfl

@[simp] theorem draw_fst (s : State) : (draw s).1 = Config.draw8 s.draws := rfl
@[simp] theorem draw_k (s : State) : (draw s).2.k = s.k := rfl
@[simp] theorem draw_err (s : State) : (draw s).2.err = s.err := rfl
@[simp] theorem draw_wopen (s : State) : (draw s).2.wopen = s.wopen := rfl
@[simp] theorem draw_ropen (s : State) : (draw s).2.ropen = s.ropen := rfl
@[simp] theorem draw_dovf (s : State) : (draw s).2.dovf = s.dovf := rfl
@[simp] theorem draw_data (s : State) : (draw s).2.data = s.data := rfl
@[simp] theorem draw_eos (s : State) : (draw s).2.eos = s.eos := rfl
@[simp] theorem draw_wacc (s : State) : (draw s).2.wacc = s.wacc := rfl
@[simp] theorem draw_wcnt (s : State) : (draw s).2.wcnt = s.wcnt := rfl
@[simp] theorem draw_rbuf (s : State) : (draw s).2.rbuf = s.rbuf := rfl
@[simp] theorem draw_rcnt (s : State) : (draw s).2.rcnt = s.rcnt := rfl
@[simp] theorem draw_reoi (s : State) : (draw s).2.reoi = s.reoi := rfl
@[simp] theorem draw_q (s : State) : (draw s).2.q = s.q := rfl
@[simp] theorem draw_dst (s : State) : (draw s).2.dst = s.dst := rfl
@[simp] theorem draw_srcPresent (s : State) : (draw s).2.srcPresent = s.srcPresent := rfl
@[simp] theorem draw_snkPresent (s : State) : (draw s).2.snkPresent = s.snkPresent := rfl
@[simp] theorem draw_source (s : State) : (draw s).2.source = s.source := rfl
@[simp] theorem draw_sink (s : State) : (draw s).2.sink = s.sink := rfl
@[simp] theorem draw_output (s : State) : (draw s).2.output = s.output := rfl
@[simp] theorem draw_host (s : State) : (draw s).2.host = s.host := rfl
@[simp] theorem draw_readLog (s : State) : (draw s).2.readLog = s.readLog := rfl
@[simp] theorem draw_draws (s : State) : (draw s).2.draws = s.draws + 1 := rfl

end Sys2Proof.Machine
end

