-- ==== Sys2Proof/Laws/Channels.lean ====
section
/-! SUPPORT. The laws of the channels' answers: transactions add up, and what one transaction can do (spec/20_memory.md
R67, R68; spec/60_exceptions.md R234). -/

namespace Sys2Proof.Machine

/-! The sink. -/

@[simp] theorem accepting_zero (l : List SnkEvent) : accepting 0 l = true := by cases l <;> rfl
@[simp] theorem afterWrites_zero (l : List SnkEvent) : afterWrites 0 l = l := rfl
@[simp] theorem afterWrites_nil (n : Nat) : afterWrites n [] = [] := by cases n <;> rfl
@[simp] theorem afterWrites_okForever (n : Nat) (l : List SnkEvent) :
    afterWrites n (.okForever :: l) = .okForever :: l := by cases n <;> rfl
@[simp] theorem accepting_okForever (n : Nat) (l : List SnkEvent) : accepting n (.okForever :: l) = true := by
  cases n <;> rfl
@[simp] theorem keptIn_zero (l : List SnkEvent) : keptIn 0 l = 0 := by cases l <;> rfl
@[simp] theorem keptIn_nil (n : Nat) : keptIn n [] = 0 := by cases n <;> rfl
@[simp] theorem keptIn_okForever (n : Nat) (l : List SnkEvent) : keptIn n (.okForever :: l) = n := by cases n <;> rfl

theorem afterWrites_add (m n : Nat) (l : List SnkEvent) : afterWrites (m + n) l = afterWrites n (afterWrites m l) := by
  induction m generalizing l with
  | zero => rw [Nat.zero_add]; rfl
  | succ m ih =>
    rw [Nat.succ_add]
    match l with
    | [] => simp
    | .okForever :: _ => simp
    | .ok :: l | .fail _ :: l | .reset _ :: l => exact ih l

theorem accepting_add (m n : Nat) (l : List SnkEvent) :
    accepting (m + n) l = (accepting m l && accepting n (afterWrites m l)) := by
  induction m generalizing l with
  | zero => simp
  | succ m ih =>
    rw [Nat.succ_add]
    match l with
    | .ok :: l => exact ih l
    | .okForever :: _ => simp
    | [] | .fail _ :: l | .reset _ :: l => simp [accepting]

theorem keptIn_add (m n : Nat) (l : List SnkEvent) : keptIn (m + n) l = keptIn m l + keptIn n (afterWrites m l) := by
  induction m generalizing l with
  | zero => simp
  | succ m ih =>
    rw [Nat.succ_add]
    match l with
    | [] => simp
    | .okForever :: _ => simp; omega
    | .ok :: l | .fail _ :: l | .reset _ :: l => simp only [keptIn, afterWrites, ih l]; omega

theorem accepting_le {m n : Nat} {l : List SnkEvent} (h : accepting n l = true) (hm : m ≤ n) : accepting m l = true := by
  obtain ⟨d, rfl⟩ := Nat.exists_eq_add_of_le hm
  rw [accepting_add, Bool.and_eq_true] at h
  exact h.1

theorem accepting_split {m n : Nat} {l : List SnkEvent} (h : accepting (m + n) l = true) :
    accepting m l = true ∧ accepting n (afterWrites m l) = true := by
  rwa [accepting_add, Bool.and_eq_true] at h

/-- `j` answers Ok, and then `rest`. -/
theorem accepting_replicate (j : Nat) (rest : List SnkEvent) :
    accepting j (List.replicate j SnkEvent.ok ++ rest) = true ∧
    afterWrites j (List.replicate j SnkEvent.ok ++ rest) = rest := by
  induction j with
  | zero => simp
  | succ j ih => exact ih

/-- The shape of a sink whose answer number `j` is the first that is not Ok. -/
theorem eq_of_take {j : Nat} {l : List SnkEvent} {e : SnkEvent} (h : l.take (j + 1) = List.replicate j SnkEvent.ok ++ [e]) :
    l = List.replicate j SnkEvent.ok ++ e :: l.drop (j + 1) := by
  conv_lhs => rw [← List.take_append_drop (j + 1) l, h]
  simp

/-- A write that the sink accepts (R68). -/
theorem snkWrite_ok {b : Byte} {s : State} (h : accepting 1 s.sink = true) :
    snkWrite b s = .cont .ok (appendOutput b { s with sink := afterWrites 1 s.sink }) := by
  unfold snkWrite
  match hs : s.sink with
  | .ok :: rest => rfl
  | .okForever :: rest => rfl
  | [] | .fail _ :: _ | .reset _ :: _ => rw [hs] at h; simp [accepting] at h

/-- From the sink's answers `k` and its output `o` to `k'` and `o'`: some transactions were made, and each that leaves its
byte with the sink has added one to the output, which keeps what it had (R77). -/
def Sent (k : List SnkEvent) (o : List Byte) (k' : List SnkEvent) (o' : List Byte) : Prop :=
  ∃ m bytes, k' = afterWrites m k ∧ o' = o ++ bytes ∧ bytes.length = keptIn m k

theorem Sent.refl (k : List SnkEvent) (o : List Byte) : Sent k o k o := ⟨0, [], by simp⟩

theorem Sent.trans {k k' k'' : List SnkEvent} {o o' o'' : List Byte} (h : Sent k o k' o') (g : Sent k' o' k'' o'') :
    Sent k o k'' o'' := by
  obtain ⟨m, l, rfl, rfl, h3⟩ := h
  obtain ⟨n, l', rfl, rfl, g3⟩ := g
  exact ⟨m + n, l ++ l', (afterWrites_add m n k).symm, List.append_assoc _ _ _,
    by rw [List.length_append, h3, g3, keptIn_add]⟩

theorem mem_afterWrites {n : Nat} {l : List SnkEvent} {e : SnkEvent} (h : e ∈ afterWrites n l) : e ∈ l := by
  induction n generalizing l with
  | zero => exact h
  | succ n ih =>
    match l with
    | [] => simp at h
    | .okForever :: _ => simpa using h
    | .ok :: l | .fail _ :: l | .reset _ :: l => exact List.mem_cons_of_mem _ (ih h)

theorem Sent.mem {k k' : List SnkEvent} {o o' : List Byte} {e : SnkEvent} (h : Sent k o k' o') (he : e ∈ k') : e ∈ k := by
  obtain ⟨m, l, rfl, -, -⟩ := h
  exact mem_afterWrites he

/-- What a sink transaction can do. -/
theorem snkWrite_cases (b : Byte) (s : State) :
    (∃ r k o, snkWrite b s = .cont r { s with sink := k, output := o } ∧ Sent s.sink s.output k o ∧
      (r = .ok → o = s.output ++ [b] ∧ accepting 1 s.sink = true ∧ k = afterWrites 1 s.sink)) ∨
    (∃ k o c, snkWrite b s = .ended (resetCore { s with sink := k, output := o }) ∧ Sent s.sink s.output k o ∧
      SnkEvent.reset c ∈ s.sink) ∨
    snkWrite b s = .stop .sinkNeverAnswers := by
  unfold snkWrite
  match hs : s.sink with
  | [] => exact .inr (.inr rfl)
  | .ok :: rest => exact .inl ⟨_, rest, _, rfl, ⟨1, [b], rfl, rfl, rfl⟩, fun _ => ⟨rfl, rfl, rfl⟩⟩
  | .okForever :: rest =>
    exact .inl ⟨_, .okForever :: rest, _, rfl, ⟨1, [b], rfl, rfl, rfl⟩, fun _ => ⟨rfl, rfl, rfl⟩⟩
  | .fail true :: rest => exact .inl ⟨_, rest, _, rfl, ⟨1, [b], rfl, rfl, rfl⟩, fun h => by cases h⟩
  | .fail false :: rest => exact .inl ⟨_, rest, _, rfl, ⟨1, [], rfl, by simp, rfl⟩, fun h => by cases h⟩
  | .reset true :: rest =>
    exact .inr (.inl ⟨rest, s.output ++ [b], true, rfl, ⟨1, [b], rfl, rfl, rfl⟩, List.mem_cons_self⟩)
  | .reset false :: rest =>
    exact .inr (.inl ⟨rest, s.output, false, rfl, ⟨1, [], rfl, by simp, rfl⟩, List.mem_cons_self⟩)

/-! The source. -/

@[simp] theorem afterReads_zero (l : List SrcEvent) : afterReads 0 l = l := by cases l <;> rfl
@[simp] theorem afterReads_nil (n : Nat) : afterReads n [] = [] := by cases n <;> rfl

theorem afterReads_add (m n : Nat) (l : List SrcEvent) : afterReads (m + n) l = afterReads n (afterReads m l) := by
  induction m generalizing l with
  | zero => simp
  | succ m ih =>
    rw [Nat.succ_add]
    match l with
    | [] => simp
    | .endless b more :: rest => exact ih _
    | .answer _ :: rest | .reset _ :: rest => exact ih rest

/-- `k` is what a source that lists `l` lists after some transactions. -/
def Left (l k : List SrcEvent) : Prop := ∃ n, k = afterReads n l

theorem Left.refl (l : List SrcEvent) : Left l l := ⟨0, by simp⟩

theorem Left.trans {l k j : List SrcEvent} (h : Left l k) (g : Left k j) : Left l j := by
  obtain ⟨m, rfl⟩ := h
  obtain ⟨n, rfl⟩ := g
  exact ⟨m + n, (afterReads_add m n l).symm⟩

theorem Left.tail (e : SrcEvent) (l : List SrcEvent) (h : ∀ b more, e ≠ .endless b more) : Left (e :: l) l := by
  refine ⟨1, ?_⟩
  match e with
  | .endless b more => exact absurd rfl (h b more)
  | .answer _ | .reset _ => simp [afterReads]

theorem Left.period (b : Byte) (more : List Byte) (rest : List SrcEvent) :
    Left (.endless b more :: rest) (afterFirst b more rest) := ⟨1, by simp [afterReads]⟩

theorem reset_mem_afterFirst {b : Byte} {more : List Byte} {rest : List SrcEvent} {c : Bool}
    (h : SrcEvent.reset c ∈ afterFirst b more rest) : SrcEvent.reset c ∈ rest := by
  simpa [afterFirst, yields] using h

theorem Left.reset_mem {l k : List SrcEvent} {c : Bool} (h : Left l k) (hc : SrcEvent.reset c ∈ k) :
    SrcEvent.reset c ∈ l := by
  obtain ⟨n, rfl⟩ := h
  induction n generalizing l with
  | zero => simpa using hc
  | succ n ih =>
    match l with
    | [] => simp at hc
    | .endless b more :: rest => exact List.mem_cons_of_mem _ (reset_mem_afterFirst (ih hc))
    | .answer _ :: rest | .reset _ :: rest => exact List.mem_cons_of_mem _ (ih hc)

theorem left_dropByte (l : List SrcEvent) : Left l (dropByte l) := by
  unfold dropByte
  split
  · exact Left.tail _ _ (by simp)
  · exact Left.period _ _ _
  · exact Left.refl _

/-- What a source transaction can do. -/
theorem srcRead_cases (s : State) :
    (∃ r k, srcRead s = .cont r { s with source := k } ∧ Left s.source k) ∨
    (∃ k c, srcRead s = .ended (resetCore { s with source := k }) ∧ Left s.source k ∧ SrcEvent.reset c ∈ s.source) ∨
    srcRead s = .stop .sourceNeverAnswers := by
  unfold srcRead
  match hs : s.source with
  | [] => exact .inr (.inr rfl)
  | .answer r :: rest => exact .inl ⟨r, rest, rfl, Left.tail _ _ (by simp)⟩
  | .endless b more :: rest => exact .inl ⟨_, _, rfl, Left.period _ _ _⟩
  | .reset c :: rest =>
    refine .inr (.inl ⟨_, c, rfl, ?_, List.mem_cons_self⟩)
    cases c
    · exact Left.tail _ _ (by simp)
    · exact (Left.tail _ _ (by simp)).trans (left_dropByte rest)

end Sys2Proof.Machine
end

