-- ==== Sys2Proof/Laws/Wire.lean ====
section
/-! SUPPORT. The laws of bit strings, of their packing into bytes and of code words (spec/20_memory.md R65;
spec/40_bitstream.md R138 to R141; spec/41_encoder.md R171). -/

namespace Sys2Proof.Wire
open Sys2Proof.Machine

@[simp] theorem bitsOf_length (n : Nat) (v : Byte) : (bitsOf n v).length = n := by
  induction n with
  | zero => rfl
  | succ n ih => simp [bitsOf, ih]

theorem natOfBits_append_one (l : List Bool) (b : Bool) : natOfBits (l ++ [b]) = 2 * natOfBits l + b.toNat := by
  simp [natOfBits]

/-- Reading bits after `v` have been read: the accumulator moves up one place for each. -/
theorem foldl_bits (l : List Bool) (v : Nat) :
    l.foldl (fun v b => 2 * v + b.toNat) v = v * 2 ^ l.length + natOfBits l := by
  induction l generalizing v with
  | nil => simp [natOfBits]
  | cons b l ih =>
    have h := ih (b.toNat)
    simp only [natOfBits, List.foldl_cons, List.length_cons] at h ih ⊢
    rw [ih, ih (2 * 0 + b.toNat)]
    ring

theorem natOfBits_cons (b : Bool) (l : List Bool) : natOfBits (b :: l) = b.toNat * 2 ^ l.length + natOfBits l := by
  have h := foldl_bits l (2 * 0 + b.toNat)
  simpa [natOfBits] using h

theorem natOfBits_append (l m : List Bool) : natOfBits (l ++ m) = natOfBits l * 2 ^ m.length + natOfBits m := by
  rw [natOfBits, List.foldl_append, foldl_bits]; rfl

theorem natOfBits_lt (l : List Bool) : natOfBits l < 2 ^ l.length := by
  induction l with
  | nil => simp [natOfBits]
  | cons b l ih =>
    rw [natOfBits_cons, List.length_cons, pow_succ]
    cases b <;> simp <;> omega

theorem getLsbD_toNat (v : Byte) (n : Nat) : (v.getLsbD n).toNat = v.toNat / 2 ^ n % 2 := by
  rw [BitVec.getLsbD, Nat.testBit_eq_decide_div_mod_eq]
  rcases Nat.mod_two_eq_zero_or_one (v.toNat / 2 ^ n) with h | h <;> simp [h]

theorem natOfBits_bitsOf (n : Nat) (v : Byte) : natOfBits (bitsOf n v) = v.toNat % 2 ^ n := by
  induction n with
  | zero => simp [bitsOf, natOfBits, Nat.mod_one]
  | succ n ih =>
    rw [bitsOf, natOfBits_cons, ih, bitsOf_length, getLsbD_toNat, Nat.pow_succ, Nat.mod_mul]
    ring

/-- A bit string is determined by its length and its number. -/
theorem eq_of_natOfBits_eq {l m : List Bool} (hl : l.length = m.length) (h : natOfBits l = natOfBits m) : l = m := by
  induction l generalizing m with
  | nil => cases m with
    | nil => rfl
    | cons => simp at hl
  | cons a l ih => cases m with
    | nil => simp at hl
    | cons b m =>
      simp only [List.length_cons, Nat.add_right_cancel_iff] at hl
      rw [natOfBits_cons, natOfBits_cons, hl] at h
      have h1 := natOfBits_lt l
      have h2 := natOfBits_lt m
      rw [hl] at h1
      cases a <;> cases b <;> simp at h ⊢
      · exact ih hl h
      · omega
      · omega
      · exact ih hl h

theorem bitsOf_byteOfBits (l : List Bool) (h : l.length ≤ 8) : bitsOf l.length (byteOfBits l) = l := by
  apply eq_of_natOfBits_eq (by simp)
  rw [natOfBits_bitsOf, byteOfBits, BitVec.toNat_ofNat]
  have h1 := natOfBits_lt l
  have h2 : 2 ^ l.length ≤ 2 ^ 8 := Nat.pow_le_pow_right (by decide) h
  have h3 : natOfBits l % 2 ^ 8 = natOfBits l := Nat.mod_eq_of_lt (by omega)
  rw [h3, Nat.mod_eq_of_lt h1]

theorem byteOfBits_bitsOf {n : Nat} {v : Byte} (h : v.toNat < 2 ^ n) : byteOfBits (bitsOf n v) = v := by
  rw [byteOfBits, natOfBits_bitsOf, Nat.mod_eq_of_lt h, BitVec.ofNat_toNat, BitVec.setWidth_eq]

theorem byteOfBits_lt {l : List Bool} : (byteOfBits l).toNat < 2 ^ l.length := by
  rw [byteOfBits, BitVec.toNat_ofNat]
  exact lt_of_le_of_lt (Nat.mod_le _ _) (natOfBits_lt l)

/-- The model's shift joins one bit on the right (R120, R123). -/
theorem shiftIn_toNat (v : Byte) (b : Bool) : (shiftIn v b).toNat = (2 * v.toNat + b.toNat) % 256 := by
  revert v; cases b <;> decide

theorem shiftIn_byteOfBits (l : List Bool) (b : Bool) : shiftIn (byteOfBits l) b = byteOfBits (l ++ [b]) := by
  apply BitVec.eq_of_toNat_eq
  rw [shiftIn_toNat, byteOfBits, byteOfBits, BitVec.toNat_ofNat, BitVec.toNat_ofNat, natOfBits_append_one]
  omega

/-! Packing -/

theorem fullBytes_short {l : List Bool} (h : l.length < 8) : fullBytes l = [] := by
  match l, h with
  | [], _ | [_], _ | [_, _], _ | [_, _, _], _ | [_, _, _, _], _ | [_, _, _, _, _], _ | [_, _, _, _, _, _], _
  | [_, _, _, _, _, _, _], _ => rfl

theorem leftover_short {l : List Bool} (h : l.length < 8) : leftover l = l := by
  match l, h with
  | [], _ | [_], _ | [_, _], _ | [_, _, _], _ | [_, _, _, _], _ | [_, _, _, _, _], _ | [_, _, _, _, _, _], _
  | [_, _, _, _, _, _, _], _ => rfl

theorem fullBytes_eight {l : List Bool} (h : l.length = 8) (m : List Bool) :
    fullBytes (l ++ m) = byteOfBits l :: fullBytes m := by
  match l, h with
  | [_, _, _, _, _, _, _, _], _ => rfl

theorem leftover_eight {l : List Bool} (h : l.length = 8) (m : List Bool) : leftover (l ++ m) = leftover m := by
  match l, h with
  | [_, _, _, _, _, _, _, _], _ => rfl

/-- Induction on a bit string eight bits at a time. -/
theorem eights_induction {P : List Bool → Prop} (short : ∀ l, l.length < 8 → P l)
    (eight : ∀ l m, l.length = 8 → P m → P (l ++ m)) (l : List Bool) : P l := by
  induction hn : l.length using Nat.strong_induction_on generalizing l with
  | _ n ih =>
    by_cases h : l.length < 8
    · exact short l h
    · rw [← List.take_append_drop 8 l]
      apply eight
      · simp; omega
      · exact ih (l.drop 8).length (by simp; omega) _ rfl

theorem fullBytes_length (l : List Bool) : (fullBytes l).length = l.length / 8 := by
  induction l using eights_induction with
  | short l h => simp [fullBytes_short h, Nat.div_eq_of_lt h]
  | eight l m h ih => rw [fullBytes_eight h, List.length_append, List.length_cons, ih, h]; omega

theorem leftover_length (l : List Bool) : (leftover l).length = l.length % 8 := by
  induction l using eights_induction with
  | short l h => rw [leftover_short h, Nat.mod_eq_of_lt h]
  | eight l m h ih => rw [leftover_eight h, List.length_append, ih, h]; omega

theorem fullBytes_append (l m : List Bool) : fullBytes (l ++ m) = fullBytes l ++ fullBytes (leftover l ++ m) := by
  induction l using eights_induction with
  | short l h => simp [fullBytes_short h, leftover_short h]
  | eight l k h ih => rw [List.append_assoc, fullBytes_eight h, fullBytes_eight h, leftover_eight h, ih]; rfl

theorem leftover_append (l m : List Bool) : leftover (l ++ m) = leftover (leftover l ++ m) := by
  induction l using eights_induction with
  | short l h => simp [leftover_short h]
  | eight l k h ih => rw [List.append_assoc, leftover_eight h, leftover_eight h, ih]

theorem unpack_cons (b : Byte) (l : List Byte) : unpack (b :: l) = bitsOf 8 b ++ unpack l := rfl

theorem unpack_append (l m : List Byte) : unpack (l ++ m) = unpack l ++ unpack m := by
  simp [unpack]

@[simp] theorem unpack_length (l : List Byte) : (unpack l).length = 8 * l.length := by
  induction l with
  | nil => rfl
  | cons b l ih => rw [unpack_cons, List.length_append, ih, bitsOf_length, List.length_cons]; omega

/-- Packing and unpacking lose nothing but the bits after the last whole byte (R141). -/
theorem unpack_fullBytes (l : List Bool) : unpack (fullBytes l) ++ leftover l = l := by
  induction l using eights_induction with
  | short l h => simp [fullBytes_short h, leftover_short h, unpack]
  | eight l m h ih =>
    rw [fullBytes_eight h, leftover_eight h, unpack_cons, List.append_assoc, ih]
    have := bitsOf_byteOfBits l (by omega)
    rw [h] at this
    rw [this]

theorem padded_length (f : Bool) (l : List Bool) : (padded f l).length % 8 = 0 := by
  simp [padded, padding]; omega

theorem leftover_padded (f : Bool) (l : List Bool) : leftover (padded f l) = [] := by
  rw [← List.length_eq_zero_iff, leftover_length, padded_length]

theorem unpack_padded (f : Bool) (l : List Bool) : unpack (fullBytes (padded f l)) = padded f l := by
  have h := unpack_fullBytes (padded f l)
  rwa [leftover_padded, List.append_nil] at h

/-! Code words -/

theorem codeWord_length (k : Nat) (s : Byte) : (codeWord k s).length = s.toNat / 2 ^ k + 1 + k := by
  simp [codeWord]; omega

theorem bitsOf_mod (k : Nat) (v : Byte) : bitsOf k (BitVec.ofNat 8 (v.toNat % 2 ^ k)) = bitsOf k v := by
  apply eq_of_natOfBits_eq (by simp)
  rw [natOfBits_bitsOf, natOfBits_bitsOf, BitVec.toNat_ofNat]
  have : v.toNat % 2 ^ k % 2 ^ 8 = v.toNat % 2 ^ k :=
    Nat.mod_eq_of_lt (lt_of_le_of_lt (Nat.mod_le _ _) v.isLt)
  rw [this, Nat.mod_mod]

end Sys2Proof.Wire
end

