-- ==== Sys2Proof/Laws/Write.lean ====
section
/-! SUPPORT. What the write side's internal operations do: each is the writing of one bit string, to a sink that accepts its
bytes, or fails one of them, or never answers, or is cut off by reset (spec/40_bitstream.md R120, R121, R124, R129;
spec/41_encoder.md R172; spec/60_exceptions.md R234; spec/70_reset_and_hazards.md R250). -/

namespace Sys2Proof.Machine
open Sys2Proof.Wire

@[simp] theorem andThen_cont {α β : Type} (a : α) (s : State) (g : α → State → Run β) :
    (Run.cont a s).andThen g = g a s := rfl
@[simp] theorem andThen_ended {α β : Type} (s : State) (g : α → State → Run β) :
    (Run.ended s : Run α).andThen g = .ended s := rfl
@[simp] theorem andThen_stop {α β : Type} (f : Fault) (g : α → State → Run β) :
    (Run.stop f : Run α).andThen g = .stop f := rfl
@[simp] theorem complete_cont (u : Unit) (s : State) : complete (.cont u s) = .next (setErr .noError s) := rfl
@[simp] theorem complete_ended (s : State) : complete (.ended s) = .next s := rfl
@[simp] theorem complete_stop (f : Fault) : complete (.stop f) = .fault f := rfl
@[simp] theorem raise_eq {α : Type} (e : ErrorKind) (s : State) : (raise e s : Run α) = .ended (setErr e s) := rfl

theorem andThen_assoc {α β γ : Type} (r : Run α) (g : α → State → Run β) (h : β → State → Run γ) :
    (r.andThen g).andThen h = r.andThen fun a s => (g a s).andThen h := by
  cases r <;> rfl

theorem andThen_congr {α β : Type} (r : Run α) {g h : α → State → Run β} (e : ∀ a s, g a s = h a s) :
    r.andThen g = r.andThen h := by
  cases r <;> simp [e]

/-! Writing a bit string -/

/-- The bits of a string, written one by one. -/
def putAll : List Bool → State → Run Unit
  | [], s => .cont () s
  | b :: l, s => (putBitInt b s).andThen fun _ t => putAll l t

theorem putAll_append (l m : List Bool) (s : State) :
    putAll (l ++ m) s = (putAll l s).andThen fun _ t => putAll m t := by
  induction l generalizing s with
  | nil => rfl
  | cons b l ih =>
    simp only [List.cons_append, putAll, andThen_assoc]
    exact andThen_congr _ fun _ t => ih t

theorem putBitsInt_eq_putAll (n : Nat) (v : Byte) (s : State) : putBitsInt n v s = putAll (bitsOf n v) s := by
  induction n generalizing s with
  | zero => rfl
  | succ n ih => exact andThen_congr _ fun _ t => ih t

theorem putRepeat_eq_putAll (n : Nat) (b : Bool) (s : State) :
    putRepeat n b s = putAll (List.replicate n b) s := by
  induction n generalizing s with
  | zero => rfl
  | succ n ih => exact andThen_congr _ fun _ t => ih t

theorem putBitInt_eq_putAll (b : Bool) (s : State) : putBitInt b s = putAll [b] s := by
  simp only [putAll]
  cases putBitInt b s <;> rfl

theorem flushInt_eq_putAll (f : Bool) (s : State) :
    flushInt f s = putAll (List.replicate (padding s.wcnt.toNat) f) s := by
  have hlt : s.wcnt.toNat < 8 := s.wcnt.isLt
  unfold flushInt padding
  split
  · rename_i h; rw [h]; rfl
  · rw [putRepeat_eq_putAll]
    congr 2; omega

theorem remainder_eq (x : Byte) (k : Nat) (h : k ≤ 8) : remainder x k = BitVec.ofNat 8 (x.toNat % 2 ^ k) := by
  apply BitVec.eq_of_toNat_eq
  have hp : 1 <<< k - 1 = 2 ^ k - 1 := by rw [Nat.one_shiftLeft]
  have h256 : 2 ^ k ≤ 2 ^ 8 := Nat.pow_le_pow_right (by decide) h
  have hpos : 0 < 2 ^ k := Nat.pow_pos (by decide)
  rw [remainder, BitVec.toNat_and, BitVec.toNat_ofNat, BitVec.toNat_ofNat, hp, Nat.mod_eq_of_lt (by omega),
    Nat.and_two_pow_sub_one_eq_mod, Nat.mod_eq_of_lt (lt_of_le_of_lt (Nat.mod_le _ _) x.isLt)]

theorem quotient_eq (x : Byte) (k : Nat) : quotient x k = x.toNat / 2 ^ k := Nat.shiftRight_eq_div_pow _ _

/-- EncSymInt writes the code word (R171, R172). -/
theorem encSymInt_eq_putAll (x : Byte) (s : State) : encSymInt x s = putAll (codeWord s.k.toNat x) s := by
  have hk : s.k.toNat ≤ 8 := le_of_lt s.k.isLt
  rw [codeWord, putAll_append]
  simp only [encSymInt, putRepeat_eq_putAll, putBitsInt_eq_putAll, quotient_eq, remainder_eq _ _ hk, putAll]

/-- One bit that does not complete a byte (R120). -/
theorem putBitInt_short {b : Bool} {s : State} (h : s.wcnt.toNat < 7) :
    putBitInt b s = .cont () { s with wacc := shiftIn s.wacc b, wcnt := BitVec.ofNat 3 (s.wcnt.toNat + 1) } := by
  unfold putBitInt
  rw [if_neg (by omega)]

/-- One bit that completes a byte (R120). -/
theorem putBitInt_eighth {b : Bool} {s : State} (h : s.wcnt.toNat = 7) :
    putBitInt b s = (snkWrite (shiftIn s.wacc b) { s with wacc := 0#8, wcnt := 0#3 }).andThen byteSent := by
  unfold putBitInt
  rw [if_pos (by omega)]

theorem pending_length (s : State) : s.pending.length = s.wcnt.toNat := by simp [State.pending]

theorem byteOf_pending {s : State} (h : s.wacc.toNat < 2 ^ s.wcnt.toNat) : byteOfBits s.pending = s.wacc :=
  byteOfBits_bitsOf h

theorem pending_of {s : State} {l : List Bool} (hl : l.length < 8) (ha : s.wacc = byteOfBits l)
    (hc : s.wcnt = BitVec.ofNat 3 l.length) : s.pending = l := by
  have : s.wcnt.toNat = l.length := by rw [hc, BitVec.toNat_ofNat]; omega
  rw [State.pending, this, ha]
  exact bitsOf_byteOfBits l (by omega)

theorem bytesDue_length (l : List Bool) (s : State) : (s.bytesDue l).length = (s.wcnt.toNat + l.length) / 8 := by
  rw [State.bytesDue, fullBytes_length, List.length_append, pending_length]

/-- The state once a bit has joined the pending ones without completing a byte (R120). -/
def State.bitJoined (b : Bool) (s : State) : State :=
  { s with wacc := shiftIn s.wacc b, wcnt := BitVec.ofNat 3 (s.wcnt.toNat + 1) }

theorem bitJoined_facts {b : Bool} {s : State} (hw : s.wacc.toNat < 2 ^ s.wcnt.toNat) (h : s.wcnt.toNat < 7) :
    (s.bitJoined b).wacc.toNat < 2 ^ (s.bitJoined b).wcnt.toNat ∧ (s.bitJoined b).pending = s.pending ++ [b] ∧
    ∀ l, (s.bitJoined b).bytesDue l = s.bytesDue (b :: l) := by
  have hacc : (s.bitJoined b).wacc = byteOfBits (s.pending ++ [b]) := by
    rw [← shiftIn_byteOfBits, byteOf_pending hw]; rfl
  have hcnt : (s.bitJoined b).wcnt.toNat = (s.pending ++ [b]).length := by
    simp [State.bitJoined, pending_length]; omega
  have hpu : (s.bitJoined b).pending = s.pending ++ [b] :=
    pending_of (by simp [pending_length]; omega) hacc (by simp [State.bitJoined, pending_length])
  refine ⟨by rw [hacc, hcnt]; exact byteOfBits_lt, hpu, fun l => ?_⟩
  rw [State.bytesDue, State.bytesDue, hpu, List.append_assoc]; rfl

/-- The bytes a string completes whose first bit is the eighth (R120, R138). -/
theorem bytesDue_eighth {b : Bool} {s : State} (hw : s.wacc.toNat < 2 ^ s.wcnt.toNat) (h : s.wcnt.toNat = 7)
    (l : List Bool) : s.bytesDue (b :: l) = shiftIn s.wacc b :: fullBytes l ∧
      leftover (s.pending ++ b :: l) = leftover l := by
  have h8 : (s.pending ++ [b]).length = 8 := by simp [pending_length, h]
  have hsplit : s.pending ++ b :: l = (s.pending ++ [b]) ++ l := by simp
  refine ⟨?_, by rw [hsplit, leftover_eight h8]⟩
  rw [State.bytesDue, hsplit, fullBytes_eight h8, ← shiftIn_byteOfBits, byteOf_pending hw]

/-- The state in which byte number `j` (from 0) of those that writing `l` completes is offered to the sink, the bytes
before it accepted (R120). -/
def State.offering (l : List Bool) (j : Nat) (s : State) : State :=
  { s with
    output := s.output ++ (s.bytesDue l).take j, sink := afterWrites j s.sink, wacc := 0#8, wcnt := 0#3 }

/-- What a bit does to the pending bits (R138): it joins them, and a whole byte of them leaves. -/
theorem putAll_ok {l : List Bool} {s : State} (hw : s.wacc.toNat < 2 ^ s.wcnt.toNat)
    (hs : s.sinkAccepts (s.bytesDue l).length) : putAll l s = .cont () (s.wrote l) := by
  induction l generalizing s with
  | nil =>
    have hp : s.pending.length < 8 := by rw [pending_length]; exact s.wcnt.isLt
    have hb : byteOfBits s.pending = s.wacc := byteOf_pending hw
    simp only [putAll, State.wrote, State.bytesDue, List.append_nil, fullBytes_short hp, leftover_short hp,
      List.length_nil, afterWrites_zero, hb, pending_length, BitVec.ofNat_toNat, BitVec.setWidth_eq]
  | cons b l ih =>
    have hlt : s.wcnt.toNat < 8 := s.wcnt.isLt
    rw [putAll]
    by_cases h7 : s.wcnt.toNat = 7
    · obtain ⟨hdue, hleft⟩ := bytesDue_eighth (b := b) hw h7 l
      rw [State.sinkAccepts, hdue, List.length_cons, Nat.add_comm] at hs
      obtain ⟨h1, h2⟩ := accepting_split hs
      rw [putBitInt_eighth h7, snkWrite_ok (s := { s with wacc := 0#8, wcnt := 0#3 }) h1]
      simp only [andThen_cont, byteSent]
      rw [ih (s := appendOutput _ { s with wacc := 0#8, wcnt := 0#3, sink := afterWrites 1 s.sink }) (by simp) h2]
      unfold State.wrote
      rw [hdue, hleft, List.length_cons, Nat.add_comm (fullBytes l).length, afterWrites_add]
      simp [State.bytesDue, State.pending, bitsOf]
    · obtain ⟨h1, h2, h3⟩ := bitJoined_facts (b := b) hw (by omega)
      rw [putBitInt_short (by omega), andThen_cont]
      have := ih (s := s.bitJoined b) h1 (by rw [h3]; exact hs)
      unfold State.wrote at this ⊢
      rw [h3, h2, List.append_assoc] at this
      exact this

/-- Writing `l` reaches its byte number `j` (from 0), the sink accepting those before: what the sink answers to that byte
decides how the writing goes on (R120, R129). -/
theorem putAll_reach {l : List Bool} {s : State} {j : Nat} (hw : s.wacc.toNat < 2 ^ s.wcnt.toNat)
    (hj : j < (s.bytesDue l).length) (hs : s.sinkAccepts j) :
    ∃ m, putAll l s =
      ((snkWrite ((s.bytesDue l)[j]) (s.offering l j)).andThen byteSent).andThen fun _ t => putAll m t := by
  induction l generalizing s j with
  | nil =>
    exfalso
    have := s.wcnt.isLt
    rw [bytesDue_length] at hj
    simp at hj; omega
  | cons b l ih =>
    have hlt : s.wcnt.toNat < 8 := s.wcnt.isLt
    rw [putAll]
    by_cases h7 : s.wcnt.toNat = 7
    · obtain ⟨hdue, -⟩ := bytesDue_eighth (b := b) hw h7 l
      rw [putBitInt_eighth h7]
      simp only [State.offering, hdue]
      cases j with
      | zero => exact ⟨l, by simp⟩
      | succ j =>
        rw [State.sinkAccepts, Nat.add_comm] at hs
        obtain ⟨h1, h2⟩ := accepting_split hs
        rw [snkWrite_ok (s := { s with wacc := 0#8, wcnt := 0#3 }) h1]
        simp only [andThen_cont, byteSent]
        have hdl : ∀ t : State, t.wcnt = 0#3 → t.bytesDue l = fullBytes l := by
          intro t ht; rw [State.bytesDue, State.pending, ht]; rfl
        set u : State := appendOutput (shiftIn s.wacc b)
          { s with wacc := 0#8, wcnt := 0#3, sink := afterWrites 1 s.sink } with hu
        have hdu := hdl u rfl
        obtain ⟨m, hm⟩ := ih (s := u) (j := j) (by simp [hu]) (by rw [hdu]; rw [hdue] at hj; simpa using hj) h2
        refine ⟨m, ?_⟩
        have haw : afterWrites (j + 1) s.sink = afterWrites j (afterWrites 1 s.sink) := by
          rw [Nat.add_comm j, afterWrites_add]
        rw [hm]
        simp only [State.offering, hdu]
        simp [haw, hu]
    · obtain ⟨h1, h2, h3⟩ := bitJoined_facts (b := b) hw (by omega)
      rw [putBitInt_short (by omega), andThen_cont]
      obtain ⟨m, hm⟩ := ih (s := s.bitJoined b) (j := j) h1 (by rw [h3]; exact hj) hs
      refine ⟨m, ?_⟩
      simp only [State.offering, h3] at hm
      exact hm

/-- The sink fails byte number `j`: the bytes before it stand, and the write side is aborted (R129, R223). -/
theorem putAll_fail {l : List Bool} {s : State} {j : Nat} {kept : Bool} (hw : s.wacc.toNat < 2 ^ s.wcnt.toNat)
    (hj : j < (s.bytesDue l).length) (hs : s.sink.take (j + 1) = List.replicate j SnkEvent.ok ++ [.fail kept]) :
    putAll l s = .ended (setErr .ioFailure (s.writeFailed l j kept)) := by
  have he := eq_of_take hs
  obtain ⟨h1, h2⟩ := accepting_replicate j (.fail kept :: s.sink.drop (j + 1))
  rw [← he] at h1 h2
  obtain ⟨m, hm⟩ := putAll_reach hw hj h1
  rw [hm, snkWrite]
  simp only [State.offering, h2]
  cases kept
  · rfl
  · simp only [if_true, State.writeFailed, ← List.take_append_getElem hj, ← List.append_assoc]
    rfl

/-- Reset is asserted while byte number `j` is in flight: the bytes before it stand, and that byte where `kept` (R250). -/
theorem putAll_reset {l : List Bool} {s : State} {j : Nat} {kept : Bool} {rest : List SnkEvent}
    (hw : s.wacc.toNat < 2 ^ s.wcnt.toNat) (hj : j < (s.bytesDue l).length)
    (hs : s.sink = List.replicate j SnkEvent.ok ++ .reset kept :: rest) :
    putAll l s = .ended (resetCore
      { s with output := s.output ++ (s.bytesDue l).take (if kept then j + 1 else j), sink := rest }) := by
  obtain ⟨h1, h2⟩ := accepting_replicate j (.reset kept :: rest)
  rw [← hs] at h1 h2
  obtain ⟨m, hm⟩ := putAll_reach hw hj h1
  rw [hm, snkWrite]
  simp only [State.offering, h2]
  cases kept
  · rfl
  · simp only [if_true, ← List.take_append_getElem hj, ← List.append_assoc]
    rfl

/-- The sink never answers byte number `j` (R234). -/
theorem putAll_stuck {l : List Bool} {s : State} {j : Nat} (hw : s.wacc.toNat < 2 ^ s.wcnt.toNat)
    (hj : j < (s.bytesDue l).length) (hs : s.sink = List.replicate j SnkEvent.ok) :
    putAll l s = .stop .sinkNeverAnswers := by
  obtain ⟨h1, h2⟩ := accepting_replicate j []
  rw [List.append_nil, ← hs] at h1 h2
  obtain ⟨m, hm⟩ := putAll_reach hw hj h1
  rw [hm, snkWrite]
  simp only [State.offering, h2, andThen_stop]

end Sys2Proof.Machine
end

