-- ==== Sys2Proof/Laws/Read.lean ====
section
/-! SUPPORT. What the read side's internal operations do, in terms of the bits ahead (spec/40_bitstream.md R122, R123). -/

namespace Sys2Proof.Machine
open Sys2Proof.Wire

/-- What the read side's fields satisfy in every state (R38 items 2 and 6). -/
def State.readOk (s : State) : Prop := s.rcnt.toNat ≤ 8 ∧ (s.reoi = true → s.rcnt = 0#4)

@[simp] theorem sourceBytes_yields (bytes : List Byte) (rest : List SrcEvent) :
    sourceBytes (yields bytes rest) = bytes ++ sourceBytes rest := by
  induction bytes with
  | nil => rfl
  | cons b l ih => simp only [yields] at ih; simp [yields, sourceBytes, ih]

theorem rcnt_zero_iff {s : State} : s.rcnt = 0#4 ↔ s.rcnt.toNat = 0 :=
  ⟨fun h => by rw [h]; rfl, fun h => BitVec.eq_of_toNat_eq (by rw [h]; rfl)⟩

theorem bitsOf_succ (n : Nat) (v : Byte) : bitsOf (n + 1) v = v.getLsbD n :: bitsOf n v := rfl

theorem rcnt_pred {s : State} {n : Nat} (h : s.rcnt.toNat = n + 1) : s.rcnt - 1#4 = BitVec.ofNat 4 n := by
  apply BitVec.eq_of_toNat_eq
  have := s.rcnt.isLt
  rw [BitVec.toNat_sub, BitVec.toNat_ofNat]
  simp; omega

/-- A buffered bit is taken (R122). -/
theorem getBitInt_buffered {s : State} {n : Nat} (h : s.rcnt.toNat = n + 1) :
    getBitInt s = .cont (some (s.rbuf.getLsbD n)) { s with rcnt := BitVec.ofNat 4 n } := by
  have h0 : ¬ s.rcnt = 0#4 := by rw [rcnt_zero_iff]; omega
  rw [getBitInt, if_neg h0, takeBit, h, rcnt_pred h]
  rfl

/-- A byte is read and its first bit taken (R122). -/
theorem getBitInt_byte {s : State} {x : Byte} {rest : List SrcEvent} (h : s.rcnt = 0#4) (he : s.reoi = false)
    (hs : s.source = .answer (.byte x) :: rest) :
    getBitInt s = .cont (some (x.getLsbD 7)) { s with rbuf := x, rcnt := 7#4, source := rest } := by
  rw [getBitInt, if_pos h, if_neg (by simp [he])]
  simp [srcRead, hs, byteRead, takeBit]

theorem took_one_buffered {s : State} {n : Nat} (h : s.rcnt.toNat = n + 1) :
    s.took 1 = { s with rcnt := BitVec.ofNat 4 n } := by
  rw [State.took, if_pos (by omega), h]; rfl

theorem took_one_byte {s : State} {x : Byte} {rest : List SrcEvent} (h : s.rcnt = 0#4)
    (hs : s.source = .answer (.byte x) :: rest) :
    s.took 1 = { s with rbuf := x, rcnt := 7#4, source := rest } := by
  rw [rcnt_zero_iff] at h
  rw [State.took, if_neg (by omega), h, hs]
  simp [sourceBytes]

/-- The cases of a read side with a bit ahead. -/
theorem ahead_cons_cases {s : State} {b : Bool} {l : List Bool} (h : s.ahead = b :: l) :
    (∃ n, s.rcnt.toNat = n + 1 ∧ s.rbuf.getLsbD n = b) ∨
    (∃ x rest, s.rcnt = 0#4 ∧ s.reoi = false ∧ s.source = .answer (.byte x) :: rest ∧ x.getLsbD 7 = b) := by
  cases hn : s.rcnt.toNat with
  | succ n =>
    left
    refine ⟨n, rfl, ?_⟩
    rw [State.ahead, hn, bitsOf_succ, List.cons_append, List.cons.injEq] at h
    exact h.1
  | zero =>
    right
    rw [State.ahead, hn] at h
    cases he : s.reoi with
    | true => simp [bitsOf, he] at h
    | false =>
      match hs : s.source with
      | .answer (.byte x) :: rest =>
        refine ⟨x, rest, rcnt_zero_iff.2 hn, rfl, rfl, ?_⟩
        simp only [bitsOf, he, hs, sourceBytes, List.nil_append, unpack_cons] at h
        simp only [Bool.false_eq_true, if_false, List.cons_append, List.cons.injEq] at h
        exact h.1
      | [] => simp [bitsOf, he, hs, sourceBytes, unpack] at h
      | .answer .eoi :: _ => simp [bitsOf, he, hs, sourceBytes, unpack] at h
      | .answer .fail :: _ => simp [bitsOf, he, hs, sourceBytes, unpack] at h
      | .reset _ :: _ => simp [bitsOf, he, hs, sourceBytes, unpack] at h
      | .endless _ _ :: _ => simp [bitsOf, he, hs, sourceBytes, unpack] at h

theorem ahead_took_one {s : State} {b : Bool} {l : List Bool} (h : s.ahead = b :: l) (hr : s.readOk) :
    (s.took 1).ahead = l := by
  rcases ahead_cons_cases h with ⟨n, hn, -⟩ | ⟨x, rest, h0, he, hs, -⟩
  · rw [took_one_buffered hn]
    rw [State.ahead, hn, bitsOf_succ, List.cons_append, List.cons.injEq] at h
    have : (BitVec.ofNat 4 n).toNat = n := by rw [BitVec.toNat_ofNat]; have := hr.1; omega
    simp only [State.ahead, this]
    exact h.2
  · rw [took_one_byte h0 hs]
    simp only [State.ahead, h0, he, hs, sourceBytes, unpack_cons] at h ⊢
    simp only [Bool.false_eq_true, if_false] at h ⊢
    exact (List.cons.inj h).2

theorem getBitInt_ahead {s : State} {b : Bool} {l : List Bool} (h : s.ahead = b :: l) :
    getBitInt s = .cont (some b) (s.took 1) := by
  rcases ahead_cons_cases h with ⟨n, hn, hb⟩ | ⟨x, rest, h0, he, hs, hb⟩
  · rw [getBitInt_buffered hn, took_one_buffered hn, hb]
  · rw [getBitInt_byte h0 he hs, took_one_byte h0 hs, hb]

theorem readOk_took_one {s : State} {b : Bool} {l : List Bool} (h : s.ahead = b :: l) (hr : s.readOk) :
    (s.took 1).readOk := by
  rcases ahead_cons_cases h with ⟨n, hn, -⟩ | ⟨x, rest, h0, he, hs, -⟩
  · rw [took_one_buffered hn]
    have h1 := hr.1
    have h2 := hr.2
    constructor
    · simp; omega
    · intro hre
      rw [rcnt_zero_iff] at h2
      have := h2 hre
      omega
  · rw [took_one_byte h0 hs]
    exact ⟨by simp, fun h => by simp [he] at h⟩

/-- `took` touches the read side only. -/
theorem took_eq (n : Nat) (s : State) : s.took n =
    { s with rbuf := (s.took n).rbuf, rcnt := (s.took n).rcnt, source := (s.took n).source } := by
  unfold State.took; split <;> rfl

/-- Taking one bit and then `n` more is taking `n + 1`. -/
theorem took_took_one {s : State} {b : Bool} {l : List Bool} (h : s.ahead = b :: l) (hr : s.readOk) (n : Nat) :
    (s.took 1).took n = s.took (n + 1) := by
  rcases ahead_cons_cases h with ⟨m, hm, -⟩ | ⟨x, rest, h0, he, hs, -⟩
  · have h8 := hr.1
    have hto : (BitVec.ofNat 4 m).toNat = m := by rw [BitVec.toNat_ofNat]; omega
    rw [took_one_buffered hm, State.took, State.took, hm]
    simp only [hto]
    by_cases hle : n ≤ m
    · rw [if_pos hle, if_pos (by omega)]
      have : m + 1 - (n + 1) = m - n := by omega
      rw [this]
    · rw [if_neg hle, if_neg (by omega)]
      have : n + 1 - (m + 1) = n - m := by omega
      rw [this]
  · have h00 := rcnt_zero_iff.1 h0
    have hl : l.length = 7 + 8 * (sourceBytes rest).length := by
      simp only [State.ahead, h00, he, hs, sourceBytes, unpack_cons, bitsOf] at h
      simp only [Bool.false_eq_true, if_false, List.nil_append, List.cons_append, List.cons.injEq] at h
      rw [← h.2]; simp; omega
    rw [took_one_byte h0 hs, State.took, State.took, h00, hs]
    simp only [sourceBytes, BitVec.toNat_ofNat]
    rw [if_neg (show ¬ n + 1 ≤ 0 by omega)]
    by_cases hle : n ≤ 7 % 2 ^ 4
    · rw [if_pos hle]
      have h1 : (n + 1 - 0 + 7) / 8 = 1 := by omega
      rw [h1]
      simp
    · rw [if_neg hle]
      have h1 : (n + 1 - 0 + 7) / 8 = (n - 7 % 2 ^ 4 + 7) / 8 + 1 := by omega
      have h3 : 8 * ((n - 7 % 2 ^ 4 + 7) / 8 + 1) - (n + 1 - 0) = 8 * ((n - 7 % 2 ^ 4 + 7) / 8) - (n - 7 % 2 ^ 4) := by
        omega
      obtain ⟨m, hm⟩ : ∃ m, (n - 7 % 2 ^ 4 + 7) / 8 = m + 1 := ⟨(n - 7 % 2 ^ 4 + 7) / 8 - 1, by omega⟩
      rw [h1, h3, hm]
      simp

theorem took_zero (s : State) : s.took 0 = s := by
  simp [State.took]

theorem shiftIn_zero_fold (l : List Bool) : byteOfBits l = l.foldl shiftIn 0#8 := by
  induction l using List.reverseRecOn with
  | nil => rfl
  | append_singleton l b ih => rw [List.foldl_append, ← ih, List.foldl_cons, List.foldl_nil, shiftIn_byteOfBits]

theorem getBitsFrom_ahead {n : Nat} {v : Byte} {s : State} (hr : s.readOk) (hn : n ≤ s.ahead.length) :
    getBitsFrom n v s = .cont (some ((s.ahead.take n).foldl shiftIn v)) (s.took n) := by
  induction n generalizing v s with
  | zero => simp [getBitsFrom, took_zero]
  | succ n ih =>
    cases ha : s.ahead with
    | nil => rw [ha] at hn; simp at hn
    | cons b l =>
      rw [getBitsFrom, getBitInt_ahead ha, andThen_cont]
      have hl := ahead_took_one ha hr
      rw [ha] at hn
      have hnl : n ≤ l.length := by simpa using hn
      simp only
      rw [ih (readOk_took_one ha hr) (by rw [hl]; exact hnl), hl, took_took_one ha hr n]
      simp

/-- GetBitsInt with enough bits ahead (R123). -/
theorem getBitsInt_ahead {n : Nat} {s : State} (hr : s.readOk) (hn : n ≤ s.ahead.length) :
    getBitsInt n s = .cont (some (byteOfBits (s.ahead.take n))) (s.took n) := by
  rw [getBitsInt, getBitsFrom_ahead hr hn, shiftIn_zero_fold]

/-! End of stream. -/

theorem ahead_nil {s : State} (h : s.ahead = []) : s.rcnt = 0#4 ∧ (s.reoi = false → sourceBytes s.source = []) := by
  rw [State.ahead, List.append_eq_nil_iff] at h
  constructor
  · rw [rcnt_zero_iff, ← bitsOf_length s.rcnt.toNat s.rbuf, h.1]; rfl
  · intro he
    have h2 := h.2
    rw [he] at h2
    simp only [Bool.false_eq_true, if_false] at h2
    have := unpack_length (sourceBytes s.source)
    rw [h2] at this
    simp at this
    exact this

theorem getBitInt_eoi {s : State} (h : s.ahead = []) (he : s.endsInEoi) : getBitInt s = .cont none s.drained := by
  obtain ⟨h0, hsb⟩ := ahead_nil h
  rw [getBitInt, if_pos h0]
  cases hre : s.reoi with
  | true =>
    have : s.drained = s := by
      rw [State.drained, if_pos hre, ← h0]
    rw [this]; rfl
  | false =>
    rcases he with he | ⟨rest, he⟩
    · rw [hre] at he; cases he
    · rw [hsb hre] at he
      simp only [yields, List.map_nil, List.nil_append] at he
      rw [State.drained, hre]
      have hb : sourceBytes (SrcEvent.answer SrcReply.eoi :: rest) = [] := rfl
      simp [srcRead, he, byteRead, h0, hb]

theorem getBitInt_fail {s : State} (h : s.ahead = []) (he : s.endsInFail) :
    getBitInt s = .ended (setErr .ioFailure s.readFailed) := by
  obtain ⟨h0, hsb⟩ := ahead_nil h
  obtain ⟨hre, rest, he⟩ := he
  rw [hsb hre] at he
  simp only [yields, List.map_nil, List.nil_append] at he
  rw [getBitInt, if_pos h0, hre]
  have hb : sourceBytes (SrcEvent.answer SrcReply.fail :: rest) = [] := rfl
  simp [srcRead, he, byteRead, State.readFailed, hb, abortR, closeR, setErr]

theorem took_one_facts {s : State} {b : Bool} {l : List Bool} (h : s.ahead = b :: l) (hr : s.readOk) :
    (s.endsInEoi → (s.took 1).endsInEoi ∧ (s.took 1).drained = s.drained) ∧
    (s.endsInFail → (s.took 1).endsInFail ∧ (s.took 1).readFailed = s.readFailed) := by
  rcases ahead_cons_cases h with ⟨n, hn, -⟩ | ⟨x, rest, h0, he, hs, -⟩
  · have hre : s.reoi = false := by
      cases hre : s.reoi with
      | false => rfl
      | true => have := rcnt_zero_iff.1 (hr.2 hre); omega
    rw [took_one_buffered hn]
    refine ⟨fun h => ⟨h, ?_⟩, fun h => ⟨h, ?_⟩⟩
    · simp [State.drained, hre]
    · simp [State.readFailed]
  · rw [took_one_byte h0 hs]
    have hsb : sourceBytes s.source = x :: sourceBytes rest := by rw [hs]; rfl
    refine ⟨?_, ?_⟩
    · rintro (h | ⟨more, hm⟩)
      · rw [he] at h; cases h
      · refine ⟨.inr ⟨more, ?_⟩, ?_⟩
        · rw [hs] at hm
          simp only [yields, sourceBytes, List.map_cons, List.cons_append, List.cons.injEq] at hm
          exact hm.2
        · simp [State.drained, he, hs, sourceBytes]
          cases sourceBytes rest with
          | nil => rfl
          | cons y ys => simp [List.getLast?_cons]
    · rintro ⟨-, more, hm⟩
      refine ⟨⟨he, more, ?_⟩, ?_⟩
      · rw [hs] at hm
        simp only [yields, sourceBytes, List.map_cons, List.cons_append, List.cons.injEq] at hm
        exact hm.2
      · simp [State.readFailed, hs, sourceBytes]

theorem getBitsFrom_eoi {n : Nat} {v : Byte} {s : State} (hr : s.readOk) (hn : s.ahead.length < n)
    (he : s.endsInEoi) : getBitsFrom n v s = .cont none s.drained := by
  induction n generalizing v s with
  | zero => omega
  | succ n ih =>
    rw [getBitsFrom]
    cases ha : s.ahead with
    | nil => rw [getBitInt_eoi ha he, andThen_cont]
    | cons b l =>
      rw [getBitInt_ahead ha, andThen_cont]
      obtain ⟨h1, h2⟩ := (took_one_facts ha hr).1 he
      have hl := ahead_took_one ha hr
      rw [ha, List.length_cons] at hn
      simp only
      rw [ih (readOk_took_one ha hr) (by rw [hl]; omega) h1, h2]

theorem getBitsFrom_fail {n : Nat} {v : Byte} {s : State} (hr : s.readOk) (hn : s.ahead.length < n)
    (he : s.endsInFail) : getBitsFrom n v s = .ended (setErr .ioFailure s.readFailed) := by
  induction n generalizing v s with
  | zero => omega
  | succ n ih =>
    rw [getBitsFrom]
    cases ha : s.ahead with
    | nil => rw [getBitInt_fail ha he, andThen_ended]
    | cons b l =>
      rw [getBitInt_ahead ha, andThen_cont]
      obtain ⟨h1, h2⟩ := (took_one_facts ha hr).2 he
      have hl := ahead_took_one ha hr
      rw [ha, List.length_cons] at hn
      simp only
      rw [ih (readOk_took_one ha hr) (by rw [hl]; omega) h1, h2]

end Sys2Proof.Machine
end

