-- ==== Sys2Proof/Laws/DecodeLoop.lean ====
section
/-! SUPPORT. What the decoder's loop does, in terms of the bits ahead (spec/42_decoder.md R191 to R196). -/

namespace Sys2Proof.Machine
open Sys2Proof.Wire

/-- Taking `m` of the bits ahead, all that is to say of it. -/
theorem took_facts {m : Nat} {s : State} (hr : s.readOk) (hm : m ≤ s.ahead.length) :
    (s.took m).ahead = s.ahead.drop m ∧ (s.took m).readOk ∧ (∀ j, (s.took m).took j = s.took (m + j)) ∧
    (s.endsInEoi → (s.took m).endsInEoi ∧ (s.took m).drained = s.drained) ∧
    (s.endsInFail → (s.took m).endsInFail ∧ (s.took m).readFailed = s.readFailed) := by
  induction m generalizing s with
  | zero => simpa [took_zero] using hr
  | succ m ih =>
    cases ha : s.ahead with
    | nil => rw [ha] at hm; simp at hm
    | cons b l =>
      have hl := ahead_took_one ha hr
      have ht : ∀ j, (s.took 1).took j = s.took (j + 1) := fun j => took_took_one ha hr j
      rw [ha, List.length_cons] at hm
      obtain ⟨h1, h2, h3, h4, h5⟩ := ih (readOk_took_one ha hr) (by rw [hl]; omega)
      obtain ⟨e1, e2⟩ := took_one_facts ha hr
      simp only [ht] at h1 h2 h3 h4 h5
      refine ⟨by rw [h1, hl]; rfl, h2, ?_, ?_, ?_⟩
      · intro j; rw [h3 j]; congr 1; omega
      · intro he
        obtain ⟨h6, h7⟩ := e1 he
        obtain ⟨h8, h9⟩ := h4 h6
        exact ⟨h8, h9.trans h7⟩
      · intro he
        obtain ⟨h6, h7⟩ := e2 he
        obtain ⟨h8, h9⟩ := h5 h6
        exact ⟨h8, h9.trans h7⟩

/-! When more is asked for than the bits ahead. -/

/-- What a source lists: its bytes, and then what comes after them. -/
theorem source_split (l : List SrcEvent) : l = yields (sourceBytes l) (l.drop (sourceBytes l).length) := by
  induction l with
  | nil => rfl
  | cons e l ih =>
    match e with
    | .answer (.byte b) => exact congrArg (SrcEvent.answer (.byte b) :: ·) ih
    | .answer .eoi | .answer .fail | .reset _ | .endless _ _ => rfl

theorem drop_yields (bytes : List Byte) (rest : List SrcEvent) : (yields bytes rest).drop bytes.length = rest := by
  rw [yields, List.drop_left' (by simp)]

theorem drop_succ_yields (bytes : List Byte) (e : SrcEvent) (rest : List SrcEvent) :
    (yields bytes (e :: rest)).drop (bytes.length + 1) = rest := by
  rw [← List.drop_drop, drop_yields]; rfl

/-- Taking bits ahead leaves what comes after the listed bytes where it was. -/
theorem took_source {m : Nat} {s : State} {rest : List SrcEvent} (hm : m ≤ s.ahead.length)
    (h : s.source = yields (sourceBytes s.source) rest) :
    (s.took m).source = yields (sourceBytes (s.took m).source) rest := by
  unfold State.took
  split
  · exact h
  · rename_i hlt
    have he : s.reoi = false := by
      cases he : s.reoi with
      | false => rfl
      | true => rw [State.ahead, he] at hm; simp at hm; omega
    have hl : s.ahead.length = s.rcnt.toNat + 8 * (sourceBytes s.source).length := by rw [State.ahead, he]; simp
    have hle : (m - s.rcnt.toNat + 7) / 8 ≤ (sourceBytes s.source).length := by omega
    have hr : sourceBytes rest = [] := by
      have h1 := congrArg (fun l => (sourceBytes l).length) h
      simp only [sourceBytes_yields, List.length_append] at h1
      exact List.length_eq_zero_iff.1 (by omega)
    have hd : s.source.drop ((m - s.rcnt.toNat + 7) / 8) =
        yields ((sourceBytes s.source).drop ((m - s.rcnt.toNat + 7) / 8)) rest := by
      conv_lhs => rw [h]
      rw [yields, yields, List.drop_append_of_le_length (by simpa using hle), List.map_drop]
    simp only
    rw [hd, sourceBytes_yields, hr, List.append_nil]

/-- The state once every bit ahead is taken, before the read that follows. -/
def State.spent (s : State) : State := s.took s.ahead.length

theorem spent_facts {s : State} (hr : s.readOk) (he : s.reoi = false) :
    s.spent.ahead = [] ∧ s.spent.rcnt = 0#4 ∧ s.spent.reoi = false ∧
    ∀ rest, s.source = yields (sourceBytes s.source) rest → s.spent.source = rest := by
  obtain ⟨f1, -, -⟩ := took_facts hr (le_refl s.ahead.length)
  have h1 : s.spent.ahead = [] := by rw [State.spent, f1, List.drop_length]
  have h2 : s.spent.reoi = false := by rw [State.spent, took_eq]; exact he
  refine ⟨h1, (ahead_nil h1).1, h2, fun rest hs => ?_⟩
  have hd := congrArg (List.drop (sourceBytes s.source).length) hs
  rw [drop_yields] at hd
  rw [← hd]
  have hl : s.ahead.length = s.rcnt.toNat + 8 * (sourceBytes s.source).length := by
    rw [State.ahead, he]; simp
  rw [State.spent, State.took, hl]
  split
  · rename_i h
    have : (sourceBytes s.source).length = 0 := by omega
    rw [this]; rfl
  · show s.source.drop _ = _
    congr 1; omega

/-- The read that follows the bits ahead. -/
theorem getBitInt_spent {s : State} (hr : s.readOk) (he : s.reoi = false) :
    getBitInt s.spent = (srcRead s.spent).andThen byteRead := by
  obtain ⟨-, h2, h3, -⟩ := spent_facts hr he
  rw [getBitInt, if_pos h2, if_neg (by simp [h3])]

theorem getBitsFrom_took {m n : Nat} {v : Byte} {s : State} (hr : s.readOk) (hm : m ≤ s.ahead.length) :
    getBitsFrom (m + n) v s = getBitsFrom n ((s.ahead.take m).foldl shiftIn v) (s.took m) := by
  induction m generalizing v s with
  | zero => simp [took_zero]
  | succ m ih =>
    cases ha : s.ahead with
    | nil => rw [ha] at hm; simp at hm
    | cons b l =>
      rw [Nat.succ_add, getBitsFrom, getBitInt_ahead ha, andThen_cont]
      have hl := ahead_took_one ha hr
      rw [ha, List.length_cons] at hm
      simp only
      rw [ih (readOk_took_one ha hr) (by rw [hl]; omega), hl, took_took_one ha hr m]
      rfl

/-- What GetBitsInt does with the bits ahead when it asks for more: it takes them and makes a read, and what the read
answers decides how it goes on. -/
theorem getBitsFrom_more {n : Nat} {v : Byte} {s : State} (hr : s.readOk) (he : s.reoi = false)
    (hn : s.ahead.length < n) :
    getBitsFrom n v s = ((srcRead s.spent).andThen byteRead).andThen fun r t =>
      match r with
      | some b => getBitsFrom (n - s.ahead.length - 1) (shiftIn (s.ahead.foldl shiftIn v) b) t
      | none => .cont none t := by
  obtain ⟨m, rfl⟩ : ∃ m, n = s.ahead.length + (m + 1) := ⟨n - s.ahead.length - 1, by omega⟩
  rw [getBitsFrom_took hr (le_refl _), getBitsFrom, ← State.spent, getBitInt_spent hr he, List.take_length]
  congr 1
  funext r t
  cases r with
  | none => rfl
  | some b => simp only; congr 1; omega

/-- A state with the decoder's registers set. -/
def State.decoder (a : Byte) (d : DecoderState) (s : State) : State := { s with q := a, dst := d }

theorem decoder_self (s : State) : s.decoder s.q s.dst = s := rfl
@[simp] theorem decoder_q (a : Byte) (d : DecoderState) (s : State) : (s.decoder a d).q = a := rfl
@[simp] theorem decoder_dst (a : Byte) (d : DecoderState) (s : State) : (s.decoder a d).dst = d := rfl
@[simp] theorem decoder_k (a : Byte) (d : DecoderState) (s : State) : (s.decoder a d).k = s.k := rfl
@[simp] theorem decoder_ahead (a : Byte) (d : DecoderState) (s : State) : (s.decoder a d).ahead = s.ahead := rfl
@[simp] theorem decoder_decoder (a b : Byte) (d e : DecoderState) (s : State) :
    (s.decoder a d).decoder b e = s.decoder b e := rfl
theorem decoder_readOk {a : Byte} {d : DecoderState} {s : State} : (s.decoder a d).readOk ↔ s.readOk := Iff.rfl
theorem decoder_endsInEoi {a : Byte} {d : DecoderState} {s : State} : (s.decoder a d).endsInEoi ↔ s.endsInEoi := Iff.rfl
theorem decoder_endsInFail {a : Byte} {d : DecoderState} {s : State} : (s.decoder a d).endsInFail ↔ s.endsInFail :=
  Iff.rfl
@[simp] theorem decoder_took (n : Nat) (s : State) (a : Byte) (d : DecoderState) :
    (s.decoder a d).took n = (s.took n).decoder a d := by
  unfold State.took State.decoder; split <;> rfl
@[simp] theorem decoder_drained (s : State) (a : Byte) (d : DecoderState) :
    (s.decoder a d).drained = s.drained.decoder a d := by
  unfold State.drained State.decoder; split <;> rfl
theorem decoder_readFailed (s : State) (a : Byte) (d : DecoderState) :
    (s.decoder a d).readFailed = s.readFailed.decoder a .done := rfl

@[simp] theorem took_q (n : Nat) (s : State) : (s.took n).q = s.q := by rw [took_eq]
@[simp] theorem took_dst (n : Nat) (s : State) : (s.took n).dst = s.dst := by rw [took_eq]
@[simp] theorem took_k (n : Nat) (s : State) : (s.took n).k = s.k := by rw [took_eq]

theorem saturatingSucc_toNat (q : Byte) : (saturatingSucc q).toNat = min (q.toNat + 1) 255 := by
  rw [saturatingSucc, BitVec.toNat_ofNat]
  exact Nat.mod_eq_of_lt (lt_of_le_of_lt (min_le_right _ _) (by decide))

@[simp] theorem quotientAfter_zero (q : Byte) : quotientAfter q 0 = q := by
  have := q.isLt
  rw [quotientAfter, Nat.add_zero, min_eq_left (by omega), BitVec.ofNat_toNat, BitVec.setWidth_eq]

theorem quotientAfter_succ (q : Byte) (n : Nat) : quotientAfter (saturatingSucc q) n = quotientAfter q (n + 1) := by
  rw [quotientAfter, quotientAfter, saturatingSucc_toNat]
  congr 1; omega

theorem sourceBytes_le_reads (l : List SrcEvent) : (sourceBytes l).length ≤ sourceReads l := by
  induction l with
  | nil => exact le_refl _
  | cons e l ih =>
    match e with
    | .answer (.byte _) => simpa [sourceBytes, sourceReads] using ih
    | .answer .eoi | .answer .fail | .reset _ | .endless _ _ => simp [sourceBytes]

theorem ahead_le_bitsAhead (s : State) : s.ahead.length ≤ bitsAhead s := by
  have := sourceBytes_le_reads s.source
  rw [State.ahead, bitsAhead, List.length_append, bitsOf_length]
  split
  · simp
  · rw [unpack_length]; omega

/-- SCAN over a run of 1-bits counts them (R192). -/
theorem decodeLoop_ones {m n : Nat} {a : Byte} {s : State} {l : List Bool} (hr : s.readOk)
    (ha : s.ahead = List.replicate m true ++ l) :
    decodeLoop (n + m) (s.decoder a .scan) = decodeLoop n ((s.took m).decoder (quotientAfter a m) .scan) := by
  induction m generalizing s a with
  | zero => simp [took_zero]
  | succ m ih =>
    rw [List.replicate_succ, List.cons_append] at ha
    have hb : getBitInt (s.decoder a .scan) = .cont (some true) ((s.took 1).decoder a .scan) := by
      rw [getBitInt_ahead (s := s.decoder a .scan) ha, decoder_took]
    have hih := ih (s := s.took 1) (a := saturatingSucc a) (readOk_took_one ha hr) (ahead_took_one ha hr)
    rw [took_took_one ha hr, quotientAfter_succ] at hih
    rw [← hih, show n + (m + 1) = (n + m) + 1 by omega, decodeLoop, decodeTurn]
    simp only [decoder_dst, hb, andThen_cont]
    rfl

/-- SCAN at a 0-bit: the quotient is complete (R192). -/
theorem decodeLoop_zero {n : Nat} {a : Byte} {s : State} {l : List Bool} (ha : s.ahead = false :: l) :
    decodeLoop (n + 1) (s.decoder a .scan) = decodeLoop n ((s.took 1).decoder a .rem) := by
  have hb : getBitInt (s.decoder a .scan) = .cont (some false) ((s.took 1).decoder a .scan) := by
    rw [getBitInt_ahead (s := s.decoder a .scan) ha, decoder_took]
  rw [decodeLoop, decodeTurn]
  simp only [decoder_dst, hb, andThen_cont]
  rfl

/-- REM with the remainder ahead (R193, R194). -/
theorem decodeLoop_rem {n : Nat} {a : Byte} {s : State} (hr : s.readOk) (hk : s.k.toNat ≤ s.ahead.length) :
    decodeLoop (n + 1) (s.decoder a .rem) =
      formSym (byteOfBits (s.ahead.take s.k.toNat)) ((s.took s.k.toNat).decoder a .rem) := by
  rw [decodeLoop, decodeTurn]
  simp only [decoder_dst, decoder_k]
  rw [getBitsInt_ahead (s := s.decoder a .rem) hr hk]
  simp

/-- REM that meets end of stream (R193). -/
theorem decodeLoop_rem_eoi {n : Nat} {a : Byte} {s : State} (hr : s.readOk) (hk : s.ahead.length < s.k.toNat)
    (he : s.endsInEoi) : decodeLoop (n + 1) (s.decoder a .rem) = .cont none (s.drained.decoder a .done) := by
  rw [decodeLoop, decodeTurn]
  simp only [decoder_dst, decoder_k]
  rw [getBitsInt, getBitsFrom_eoi (s := s.decoder a .rem) hr hk he]
  simp
  rfl

/-- SCAN at end of stream (R192). -/
theorem decodeLoop_scan_eoi {n : Nat} {a : Byte} {s : State} (ha : s.ahead = []) (he : s.endsInEoi) :
    decodeLoop (n + 1) (s.decoder a .scan) = .cont none (s.drained.decoder a .done) := by
  rw [decodeLoop, decodeTurn]
  simp only [decoder_dst]
  rw [getBitInt_eoi (s := s.decoder a .scan) ha he]
  simp
  rfl

/-- What `DecSymInt` does where no whole code word is ahead: it takes the bits ahead and makes a read, and what the read
answers decides how it goes on. -/
theorem decSymInt_more {s : State} (hr : s.readOk) (he : s.reoi = false) (hd : s.dst = .scan)
    (hw : noWord s.k.toNat s.ahead) :
    ∃ (q : Byte) (d : DecoderState) (g : Option Bool → State → Run (Option Byte)),
      decSymInt s = ((srcRead (s.spent.decoder q d)).andThen byteRead).andThen g := by
  have hs : s = s.decoder s.q .scan := by rw [← hd]; rfl
  have hfuel := ahead_le_bitsAhead s
  obtain ⟨m, ha | ⟨l, ha, hk⟩⟩ := hw
  · have hlen : s.ahead.length = m := by rw [ha]; simp
    obtain ⟨n, hn⟩ : ∃ n, bitsAhead s + 1 = n + 1 + m := ⟨bitsAhead s - m, by omega⟩
    have hsp : (s.decoder (quotientAfter s.q m) .scan).spent = s.spent.decoder (quotientAfter s.q m) .scan := by
      rw [State.spent, State.spent, decoder_took, decoder_ahead]
    have h : decSymInt s = decodeTurn (decodeLoop n) (s.spent.decoder (quotientAfter s.q m) .scan) := by
      rw [decSymInt, hn]
      conv_lhs => rw [hs]
      rw [decodeLoop_ones hr (l := []) (by simpa using ha), State.spent, hlen]; rfl
    rw [h, decodeTurn, decoder_dst, ← hsp]
    simp only
    rw [getBitInt_spent (s := s.decoder _ .scan) hr he, hsp]
    exact ⟨_, _, _, rfl⟩
  · have hlen : s.ahead.length = m + 1 + l.length := by rw [ha]; simp; omega
    obtain ⟨n, hn⟩ : ∃ n, bitsAhead s + 1 = n + 1 + 1 + m := ⟨bitsAhead s - m - 1, by omega⟩
    obtain ⟨f1, f2, f3, -, -⟩ := took_facts (m := m) hr (by omega)
    obtain ⟨g1, g2, g3, -, -⟩ := took_facts (m := m + 1) hr (by omega)
    have ha1 : (s.took m).ahead = false :: l := by rw [f1, ha]; simp
    have ha2 : (s.took (m + 1)).ahead = l := by rw [g1, ha]; simp [List.drop_append]
    have hsp : ((s.took (m + 1)).decoder (quotientAfter s.q m) .rem).spent =
        s.spent.decoder (quotientAfter s.q m) .rem := by
      rw [State.spent, State.spent, decoder_took, decoder_ahead, ha2, g3, hlen]
    have h : decSymInt s = decodeTurn (decodeLoop n) ((s.took (m + 1)).decoder (quotientAfter s.q m) .rem) := by
      rw [decSymInt, hn]
      conv_lhs => rw [hs]
      rw [decodeLoop_ones hr ha, decodeLoop_zero ha1, f3]; rfl
    rw [h, decodeTurn]
    simp only [decoder_dst, decoder_k, took_k]
    rw [getBitsInt, getBitsFrom_more (s := (s.took (m + 1)).decoder _ .rem) g2 (by rw [took_eq]; exact he)
      (by rw [decoder_ahead, ha2]; exact hk), hsp, andThen_assoc]
    exact ⟨_, _, _, rfl⟩

/-- A whole code word ahead: 1-bits, a 0-bit and a remainder (R191). -/
theorem decSymInt_codeWord {m : Nat} {s : State} {l : List Bool} (hr : s.readOk) (hd : s.dst = .scan)
    (ha : s.ahead = List.replicate m true ++ false :: l) (hk : s.k.toNat ≤ l.length) :
    decSymInt s = formSym (byteOfBits (l.take s.k.toNat))
      ((s.took (m + 1 + s.k.toNat)).decoder (quotientAfter s.q m) .rem) := by
  have hlen : s.ahead.length = m + 1 + l.length := by rw [ha]; simp; omega
  have hfuel := ahead_le_bitsAhead s
  obtain ⟨n, hn⟩ : ∃ n, bitsAhead s + 1 = n + 1 + 1 + m := ⟨bitsAhead s - m - 1, by omega⟩
  have hs : s = s.decoder s.q .scan := by rw [← hd]; rfl
  obtain ⟨f1, f2, f3, -, -⟩ := took_facts (m := m) hr (by omega)
  obtain ⟨g1, g2, g3, -, -⟩ := took_facts (m := m + 1) hr (by omega)
  have ha1 : (s.took m).ahead = false :: l := by rw [f1, ha]; simp
  have ha2 : (s.took (m + 1)).ahead = l := by rw [g1, ha]; simp [List.drop_append]
  rw [decSymInt, hn]
  conv_lhs => rw [hs]
  rw [decodeLoop_ones hr ha, decodeLoop_zero ha1, f3, decodeLoop_rem g2 (by rw [ha2, took_k]; exact hk)]
  rw [ha2, took_k, g3]

/-- End of stream after 1-bits only: path A (R192, R199). -/
theorem decSymInt_pathA {m : Nat} {s : State} (hr : s.readOk) (hd : s.dst = .scan)
    (ha : s.ahead = List.replicate m true) (he : s.endsInEoi) :
    decSymInt s = .cont none (s.drained.decoder (quotientAfter s.q m) .done) := by
  have hlen : s.ahead.length = m := by rw [ha]; simp
  have hfuel := ahead_le_bitsAhead s
  obtain ⟨n, hn⟩ : ∃ n, bitsAhead s + 1 = n + 1 + m := ⟨bitsAhead s - m, by omega⟩
  have hs : s = s.decoder s.q .scan := by rw [← hd]; rfl
  obtain ⟨f1, -, -, f4, -⟩ := took_facts (m := m) hr (by omega)
  obtain ⟨h1, h2⟩ := f4 he
  rw [decSymInt, hn]
  conv_lhs => rw [hs]
  rw [decodeLoop_ones hr (l := []) (by simpa using ha), decodeLoop_scan_eoi (by rw [f1, ha]; simp) h1, h2]

/-- End of stream inside a remainder: path B (R193, R199). -/
theorem decSymInt_pathB {m : Nat} {s : State} {l : List Bool} (hr : s.readOk) (hd : s.dst = .scan)
    (ha : s.ahead = List.replicate m true ++ false :: l) (hk : l.length < s.k.toNat) (he : s.endsInEoi) :
    decSymInt s = .cont none (s.drained.decoder (quotientAfter s.q m) .done) := by
  have hlen : s.ahead.length = m + 1 + l.length := by rw [ha]; simp; omega
  have hfuel := ahead_le_bitsAhead s
  obtain ⟨n, hn⟩ : ∃ n, bitsAhead s + 1 = n + 1 + 1 + m := ⟨bitsAhead s - m - 1, by omega⟩
  have hs : s = s.decoder s.q .scan := by rw [← hd]; rfl
  obtain ⟨f1, f2, f3, -, -⟩ := took_facts (m := m) hr (by omega)
  obtain ⟨g1, g2, g3, g4, -⟩ := took_facts (m := m + 1) hr (by omega)
  obtain ⟨h1, h2⟩ := g4 he
  have ha1 : (s.took m).ahead = false :: l := by rw [f1, ha]; simp
  have ha2 : (s.took (m + 1)).ahead = l := by rw [g1, ha]; simp [List.drop_append]
  rw [decSymInt, hn]
  conv_lhs => rw [hs]
  rw [decodeLoop_ones hr ha, decodeLoop_zero ha1, f3,
    decodeLoop_rem_eoi g2 (by rw [ha2, took_k]; exact hk) h1, h2]

/-- DONE is terminal (R195). -/
theorem decSymInt_done {s : State} (hd : s.dst = .done) : decSymInt s = .cont none s := by
  rw [decSymInt, decodeLoop, decodeTurn, hd]

/-- The source fails before the code word is complete (R129, R191). -/
theorem decSymInt_fail {m : Nat} {s : State} (hr : s.readOk) (hd : s.dst = .scan) (he : s.endsInFail)
    (ha : s.ahead = List.replicate m true ∨
      ∃ l, s.ahead = List.replicate m true ++ false :: l ∧ l.length < s.k.toNat) :
    decSymInt s = .ended (setErr .ioFailure (s.readFailed.decoder (quotientAfter s.q m) .done)) := by
  have hfuel := ahead_le_bitsAhead s
  have hs : s = s.decoder s.q .scan := by rw [← hd]; rfl
  rcases ha with ha | ⟨l, ha, hk⟩
  · have hlen : s.ahead.length = m := by rw [ha]; simp
    obtain ⟨n, hn⟩ : ∃ n, bitsAhead s + 1 = n + 1 + m := ⟨bitsAhead s - m, by omega⟩
    obtain ⟨f1, -, -, -, f5⟩ := took_facts (m := m) hr (by omega)
    obtain ⟨h1, h2⟩ := f5 he
    rw [decSymInt, hn]
    conv_lhs => rw [hs]
    rw [decodeLoop_ones hr (l := []) (by simpa using ha), decodeLoop, decodeTurn]
    simp only [decoder_dst]
    rw [getBitInt_fail (s := (s.took m).decoder _ .scan) (by rw [decoder_ahead, f1, ha]; simp) h1,
      decoder_readFailed, h2]
    rfl
  · have hlen : s.ahead.length = m + 1 + l.length := by rw [ha]; simp; omega
    obtain ⟨n, hn⟩ : ∃ n, bitsAhead s + 1 = n + 1 + 1 + m := ⟨bitsAhead s - m - 1, by omega⟩
    obtain ⟨f1, f2, f3, -, -⟩ := took_facts (m := m) hr (by omega)
    obtain ⟨g1, g2, g3, -, g5⟩ := took_facts (m := m + 1) hr (by omega)
    obtain ⟨h1, h2⟩ := g5 he
    have ha1 : (s.took m).ahead = false :: l := by rw [f1, ha]; simp
    have ha2 : (s.took (m + 1)).ahead = l := by rw [g1, ha]; simp [List.drop_append]
    rw [decSymInt, hn]
    conv_lhs => rw [hs]
    rw [decodeLoop_ones hr ha, decodeLoop_zero ha1, f3, decodeLoop, decodeTurn]
    simp only [decoder_dst, decoder_k, took_k]
    rw [getBitsInt, getBitsFrom_fail (s := (s.took (m + 1)).decoder _ .rem) g2 (by rw [decoder_ahead, ha2]; exact hk) h1,
      decoder_readFailed, h2]
    rfl

theorem joinSymbol_toNat {q r : Byte} {k : Nat} (hk : k ≤ 7) (hr : r.toNat < 2 ^ k) (hq : q.toNat ≤ 255 / 2 ^ k) :
    joinSymbol q r k = BitVec.ofNat 8 (q.toNat * 2 ^ k + r.toNat) := by
  apply BitVec.eq_of_toNat_eq
  have h1 : q.toNat * 2 ^ k + r.toNat < 256 := by
    have := Nat.mul_le_mul_right (2 ^ k) hq
    have h2 : 255 / 2 ^ k * 2 ^ k + 2 ^ k ≤ 256 := by
      interval_cases k <;> decide
    omega
  rw [joinSymbol, BitVec.toNat_or, BitVec.toNat_shiftLeft, BitVec.toNat_ofNat, Nat.shiftLeft_eq]
  rw [Nat.mod_eq_of_lt (show q.toNat * 2 ^ k < 2 ^ 8 by omega), Nat.mod_eq_of_lt (show _ < 2 ^ 8 by omega),
    ← Nat.shiftLeft_eq, ← Nat.shiftLeft_add_eq_or_of_lt hr]

/-- FormSym on the bits of a remainder (R194). -/
theorem formSym_bits {r : List Bool} {a : Byte} {s : State} (hr : r.length = s.k.toNat) :
    formSym (byteOfBits r) (s.decoder a .rem) =
      match symbolOf s.k.toNat a.toNat r with
      | some v => .cont (some v) (s.decoder 0#8 .scan)
      | none => .cont (some (Config.draw8 s.draws)) { s.decoder 0#8 .scan with draws := s.draws + 1, dovf := true } := by
  have hk : s.k.toNat ≤ 7 := by have := s.k.isLt; omega
  have hlt : (byteOfBits r).toNat < 2 ^ s.k.toNat := by rw [← hr]; exact byteOfBits_lt
  have hnat : (byteOfBits r).toNat = natOfBits r := by
    have h1 := natOfBits_lt r
    have : 2 ^ r.length ≤ 2 ^ 8 := Nat.pow_le_pow_right (by decide) (by omega)
    rw [byteOfBits, BitVec.toNat_ofNat, Nat.mod_eq_of_lt (by omega)]
  have hdom : inDomain a s.k.toNat = decide (a.toNat ≤ 255 / 2 ^ s.k.toNat) := by
    rw [inDomain, Nat.shiftRight_eq_div_pow]
  simp only [formSym, decoder_k, decoder_q, symbolOf, hdom]
  by_cases h : a.toNat ≤ 255 / 2 ^ s.k.toNat
  · simp only [h, decide_true, if_true]
    rw [joinSymbol_toNat hk hlt h, hnat]
    rfl
  · simp only [h, decide_false, if_false]
    rfl

end Sys2Proof.Machine
end

