-- ==== Sys2Proof/Laws/Effects.lean ====
section
/-! SUPPORT. One lemma per shared operation that says everything it can do to the state, whatever the channels answer and
wherever reset cuts it off (spec/40_bitstream.md R120 to R129; spec/42_decoder.md; spec/70_reset_and_hazards.md R250). -/

namespace Sys2Proof.Machine
open Sys2Proof.Wire

/-- What an operation leads to: `P` where the command goes on, `E` where it is over. Nothing is said of a stop. -/
def Run.Ends {α : Type} (P : α → State → Prop) (E : State → Prop) (r : Run α) : Prop :=
  match r with
  | .cont a s => P a s
  | .ended s => E s
  | .stop _ => True

theorem Run.Ends.andThen {α β : Type} {P : α → State → Prop} {Q : β → State → Prop} {E F : State → Prop} {r : Run α}
    {g : α → State → Run β} (h : r.Ends P E) (hE : ∀ s, E s → F s) (hg : ∀ a s, P a s → (g a s).Ends Q F) :
    (r.andThen g).Ends Q F := by
  cases r with
  | cont a s => exact hg a s h
  | ended s => exact hE s h
  | stop f => trivial

/-- The write side's accumulator is within its count (R38 item 1). -/
def State.writeOk (s : State) : Prop := s.wacc.toNat < 2 ^ s.wcnt.toNat

/-- What writing bits changes: WSTATE, the sink's answers and its output. -/
def WriteStep (s t : State) : Prop :=
  ∃ a c k o, t = { s with wacc := a, wcnt := c, sink := k, output := o } ∧
    Sent s.sink s.output k o ∧ (s.writeOk → a.toNat < 2 ^ c.toNat)

/-- How writing bits ends a command: a sink failure or a reset. -/
def WriteEnd (s t : State) : Prop :=
  ∃ k o, Sent s.sink s.output k o ∧
    (t = { s with wopen := false, wacc := 0#8, wcnt := 0#3, sink := k, output := o, err := .ioFailure } ∨
      (t = resetCore { s with sink := k, output := o } ∧ ∃ b, SnkEvent.reset b ∈ s.sink))

theorem WriteStep.refl (s : State) : WriteStep s s :=
  ⟨_, _, _, _, rfl, Sent.refl _ _, id⟩

theorem WriteStep.trans {s t u : State} (h : WriteStep s t) (g : WriteStep t u) : WriteStep s u := by
  obtain ⟨a, c, k, o, rfl, h2, h3⟩ := h
  obtain ⟨a', c', k', o', rfl, g2, g3⟩ := g
  exact ⟨a', c', k', o', rfl, h2.trans g2, fun h => g3 (h3 h)⟩

theorem WriteStep.trans_end {s t u : State} (h : WriteStep s t) (g : WriteEnd t u) : WriteEnd s u := by
  obtain ⟨a, c, k, o, rfl, h2, h3⟩ := h
  obtain ⟨k', o', g2, g3⟩ := g
  refine ⟨k', o', h2.trans g2, ?_⟩
  rcases g3 with rfl | ⟨rfl, b, hb⟩
  · exact .inl rfl
  · exact .inr ⟨rfl, b, h2.mem hb⟩

/-- What a sink transaction can do. -/
theorem snkWrite_effect (b : Byte) (s : State) :
    (snkWrite b s).Ends
      (fun _ t => ∃ k o, t = { s with sink := k, output := o } ∧ Sent s.sink s.output k o)
      (fun t => ∃ k o, t = resetCore { s with sink := k, output := o } ∧ Sent s.sink s.output k o ∧
        ∃ c, SnkEvent.reset c ∈ s.sink) := by
  rcases snkWrite_cases b s with ⟨r, k, o, h, h1, -⟩ | ⟨k, o, c, h, h1, h2⟩ | h <;> rw [h]
  · exact ⟨k, o, rfl, h1⟩
  · exact ⟨k, o, rfl, h1, c, h2⟩
  · trivial

theorem putBitInt_effect (b : Bool) (s : State) : (putBitInt b s).Ends (fun _ t => WriteStep s t) (WriteEnd s) := by
  by_cases h7 : s.wcnt.toNat = 7
  · rw [putBitInt_eighth h7]
    refine (snkWrite_effect _ _).andThen ?_ ?_
    · rintro t ⟨k, o, rfl, h2, c, hc⟩
      exact ⟨k, o, h2, .inr ⟨rfl, c, hc⟩⟩
    · rintro r t ⟨k, o, rfl, h2⟩
      cases r with
      | ok => exact ⟨0#8, 0#3, k, o, rfl, h2, fun _ => by decide⟩
      | fail => exact ⟨k, o, h2, .inl rfl⟩
  · have hlt : s.wcnt.toNat < 7 := by have := s.wcnt.isLt; omega
    rw [putBitInt_short hlt]
    exact ⟨_, _, s.sink, s.output, rfl, Sent.refl _ _, fun h => (bitJoined_facts h hlt).1⟩

theorem putAll_effect (l : List Bool) (s : State) : (putAll l s).Ends (fun _ t => WriteStep s t) (WriteEnd s) := by
  induction l generalizing s with
  | nil => exact WriteStep.refl s
  | cons b l ih =>
    refine (putBitInt_effect b s).andThen (fun _ h => h) fun _ t h => ?_
    have := ih t
    cases hp : putAll l t with
    | cont a u => rw [hp] at this; exact h.trans this
    | ended u => rw [hp] at this; exact h.trans_end this
    | stop f => trivial

/-- What reading bits changes: RSTATE and the source's answers. -/
def ReadStep (s t : State) : Prop :=
  ∃ b c e k, t = { s with rbuf := b, rcnt := c, reoi := e, source := k } ∧ Left s.source k ∧
    (s.readOk → c.toNat ≤ 8 ∧ (e = true → c = 0#4)) ∧ (s.reoi = true → e = true ∧ k = s.source)

/-- How reading bits ends a command: a source failure or a reset. -/
def ReadEnd (s t : State) : Prop :=
  ∃ k, Left s.source k ∧ (s.readOk → s.reoi = false) ∧
    (t = { s with
        ropen := false, rbuf := 0#8, rcnt := 0#4, reoi := false, dst := .done, source := k, err := .ioFailure } ∨
      (t = resetCore { s with source := k } ∧ ∃ c, SrcEvent.reset c ∈ s.source))

theorem ReadStep.refl (s : State) : ReadStep s s :=
  ⟨_, _, _, _, rfl, Left.refl _, id, fun h => ⟨h, rfl⟩⟩

theorem ReadStep.ok {s t : State} (h : ReadStep s t) (hs : s.readOk) : t.readOk := by
  obtain ⟨b, c, e, k, rfl, h1, h2, h3⟩ := h
  exact h2 hs

theorem ReadStep.trans {s t u : State} (h : ReadStep s t) (g : ReadStep t u) : ReadStep s u := by
  obtain ⟨b, c, e, k, rfl, h1, h2, h3⟩ := h
  obtain ⟨b', c', e', k', rfl, g1, g2, g3⟩ := g
  refine ⟨b', c', e', k', rfl, h1.trans g1, fun h => g2 (h2 h), fun h => ?_⟩
  obtain ⟨h4, h5⟩ := h3 h
  obtain ⟨h6, h7⟩ := g3 h4
  exact ⟨h6, h7.trans h5⟩

theorem ReadStep.trans_end {s t u : State} (h : ReadStep s t) (g : ReadEnd t u) : ReadEnd s u := by
  obtain ⟨b, c, e, k, rfl, h1, h2, h3⟩ := h
  obtain ⟨k', g1, g2, g3⟩ := g
  refine ⟨k', h1.trans g1, fun h => ?_, ?_⟩
  · cases hr : s.reoi with
    | false => rfl
    | true =>
      have h4 := g2 (h2 h)
      have h5 := (h3 hr).1
      simp only at h4
      rw [h5] at h4; cases h4
  · rcases g3 with rfl | ⟨rfl, c, hc⟩
    · exact .inl rfl
    · exact .inr ⟨rfl, c, h1.reset_mem hc⟩

/-- What a source transaction can do. -/
theorem srcRead_effect (s : State) :
    (srcRead s).Ends
      (fun _ t => ∃ k, t = { s with source := k } ∧ Left s.source k)
      (fun t => ∃ k, t = resetCore { s with source := k } ∧ Left s.source k ∧ ∃ c, SrcEvent.reset c ∈ s.source) := by
  rcases srcRead_cases s with ⟨r, k, h, h1⟩ | ⟨k, c, h, h1, h2⟩ | h <;> rw [h]
  · exact ⟨k, rfl, h1⟩
  · exact ⟨k, rfl, h1, c, h2⟩
  · trivial

theorem takeBit_effect {s : State} (h : s.rcnt ≠ 0#4) (E : State → Prop) : (takeBit s).Ends (fun _ t => ReadStep s t) E := by
  refine ⟨_, _, _, _, rfl, Left.refl _, fun hs => ?_, fun h => ⟨h, rfl⟩⟩
  have h1 := hs.1
  have h0 : s.rcnt.toNat ≠ 0 := fun h2 => h (rcnt_zero_iff.2 h2)
  obtain ⟨n, hn⟩ : ∃ n, s.rcnt.toNat = n + 1 := ⟨s.rcnt.toNat - 1, by omega⟩
  refine ⟨?_, fun he => absurd (hs.2 he) h⟩
  rw [rcnt_pred hn, BitVec.toNat_ofNat]; omega

theorem getBitInt_effect (s : State) :
    (getBitInt s).Ends (fun r t => ReadStep s t ∧ (r = none → t.reoi = true) ∧ (s.readOk → s.reoi = true → r = none))
      (ReadEnd s) := by
  unfold getBitInt
  by_cases h0 : s.rcnt = 0#4
  · rw [if_pos h0]
    cases hr : s.reoi with
    | true => exact ⟨ReadStep.refl s, fun _ => hr, fun _ _ => rfl⟩
    | false =>
      simp only [Bool.false_eq_true, if_false]
      refine (srcRead_effect s).andThen ?_ ?_
      · rintro t ⟨k, rfl, h1, h2⟩
        exact ⟨k, h1, fun _ => hr, .inr ⟨rfl, h2⟩⟩
      · rintro r t ⟨k, rfl, hk⟩
        cases r with
        | byte x =>
          refine ⟨⟨x, 8#4 - 1#4, s.reoi, k, rfl, hk, fun _ => ⟨by decide, fun h => ?_⟩, fun h => ?_⟩, fun h => ?_, fun _ h => ?_⟩
          · rw [hr] at h; cases h
          · rw [hr] at h; cases h
          · cases h
          · cases h
        | eoi =>
          refine ⟨⟨s.rbuf, s.rcnt, true, k, rfl, hk, fun h => ⟨h.1, fun _ => h0⟩, fun h => ?_⟩, fun _ => rfl, fun _ _ => rfl⟩
          rw [hr] at h; cases h
        | fail => exact ⟨k, hk, fun _ => hr, .inl rfl⟩
  · rw [if_neg h0]
    refine ⟨takeBit_effect h0 (fun _ => True), ?_, fun hs he => absurd (hs.2 he) h0⟩
    intro h; cases h

theorem getBitsFrom_effect (n : Nat) (v : Byte) (s : State) :
    (getBitsFrom n v s).Ends
      (fun r t => ReadStep s t ∧ (r = none → t.reoi = true) ∧ (s.readOk → s.reoi = true → 1 ≤ n → r = none)) (ReadEnd s) := by
  induction n generalizing v s with
  | zero =>
    refine ⟨ReadStep.refl s, ?_, ?_⟩
    · intro h; cases h
    · intro _ _ h; omega
  | succ n ih =>
    refine (getBitInt_effect s).andThen (fun _ h => h) fun r t h => ?_
    obtain ⟨h1, h2, h3⟩ := h
    cases r with
    | none => exact ⟨h1, fun _ => h2 rfl, fun _ _ _ => rfl⟩
    | some b =>
      have := ih (shiftIn v b) t
      simp only
      cases hg : getBitsFrom n (shiftIn v b) t with
      | cont a u =>
        rw [hg] at this
        exact ⟨h1.trans this.1, this.2.1, fun a1 a2 _ => absurd (h3 a1 a2) (by simp)⟩
      | ended u => rw [hg] at this; exact h1.trans_end this
      | stop f => trivial

/-- From a count of free values and DOVF to those after: the count grows, and DOVF is not cleared (R23). -/
def Drawn (n : Nat) (v : Bool) (n' : Nat) (v' : Bool) : Prop := n ≤ n' ∧ (v = true → v' = true)

theorem Drawn.refl (n : Nat) (v : Bool) : Drawn n v n v := ⟨le_refl _, id⟩

theorem Drawn.trans {n n' n'' : Nat} {v v' v'' : Bool} (h : Drawn n v n' v') (g : Drawn n' v' n'' v'') :
    Drawn n v n'' v'' := ⟨h.1.trans g.1, fun e => g.2 (h.2 e)⟩

/-- What decoding changes: RSTATE, DSTATE, DOVF, the source's answers and the count of free values. -/
def DecodeStep (s t : State) : Prop :=
  ∃ b c e k q d v n,
    t = { s with rbuf := b, rcnt := c, reoi := e, source := k, q := q, dst := d, dovf := v, draws := n } ∧
    Left s.source k ∧ Drawn s.draws s.dovf n v ∧ (s.readOk → c.toNat ≤ 8 ∧ (e = true → c = 0#4)) ∧
    (s.reoi = true → e = true ∧ k = s.source)

/-- How decoding ends a command: a source failure or a reset. -/
def DecodeEnd (s t : State) : Prop :=
  ∃ k q v n, Left s.source k ∧ Drawn s.draws s.dovf n v ∧ (s.readOk → s.reoi = false) ∧
    (t = { s with
        ropen := false, rbuf := 0#8, rcnt := 0#4, reoi := false, dst := .done, source := k, q := q, dovf := v
        draws := n, err := .ioFailure } ∨
      (t = resetCore { s with source := k, draws := n } ∧ ∃ c, SrcEvent.reset c ∈ s.source))

theorem DecodeStep.refl (s : State) : DecodeStep s s :=
  ⟨_, _, _, _, _, _, _, _, rfl, Left.refl _, Drawn.refl _ _, id, fun h => ⟨h, rfl⟩⟩

theorem DecodeStep.ok {s t : State} (h : DecodeStep s t) (hs : s.readOk) : t.readOk := by
  obtain ⟨b, c, e, k, q, d, v, n, rfl, h1, h2, h3, h4⟩ := h
  exact h3 hs

theorem DecodeStep.trans {s t u : State} (h : DecodeStep s t) (g : DecodeStep t u) : DecodeStep s u := by
  obtain ⟨b, c, e, k, q, d, v, n, rfl, h1, h2, h3, h4⟩ := h
  obtain ⟨b', c', e', k', q', d', v', n', rfl, g1, g2, g3, g4⟩ := g
  refine ⟨b', c', e', k', q', d', v', n', rfl, h1.trans g1, h2.trans g2, fun h => g3 (h3 h), fun h => ?_⟩
  obtain ⟨h5, h6⟩ := h4 h
  obtain ⟨h7, h8⟩ := g4 h5
  exact ⟨h7, h8.trans h6⟩

theorem DecodeStep.trans_end {s t u : State} (h : DecodeStep s t) (g : DecodeEnd t u) : DecodeEnd s u := by
  obtain ⟨b, c, e, k, q, d, v, n, rfl, h1, h2, h3, h4⟩ := h
  obtain ⟨k', q', v', n', g1, g2, g3, g4⟩ := g
  refine ⟨k', q', v', n', h1.trans g1, h2.trans g2, fun h => ?_, ?_⟩
  · cases hr : s.reoi with
    | false => rfl
    | true =>
      have h4' := g3 (h3 h)
      have h5 := (h4 hr).1
      simp only at h4'
      rw [h5] at h4'; cases h4'
  · rcases g4 with rfl | ⟨rfl, c, hc⟩
    · exact .inl rfl
    · exact .inr ⟨rfl, c, h1.reset_mem hc⟩

theorem ReadStep.decode {s t : State} (h : ReadStep s t) (q : Byte) (d : DecoderState) :
    DecodeStep s { t with q := q, dst := d } := by
  obtain ⟨b, c, e, k, rfl, h1, h2, h3⟩ := h
  exact ⟨b, c, e, k, q, d, s.dovf, s.draws, rfl, h1, Drawn.refl _ _, h2, h3⟩

theorem ReadEnd.decode {s t : State} (h : ReadEnd s t) : DecodeEnd s t := by
  obtain ⟨k, h1, h2, h3⟩ := h
  refine ⟨k, s.q, s.dovf, s.draws, h1, Drawn.refl _ _, h2, ?_⟩
  rcases h3 with rfl | ⟨rfl, h⟩
  · exact .inl rfl
  · exact .inr ⟨rfl, h⟩

/-- How a decoder operation leaves the decoder: a symbol in SCAN, end of stream in DONE. -/
def decodedIn (r : Option Byte) (s t : State) : Prop :=
  DecodeStep s t ∧ (r = none → t.dst = .done) ∧ (r.isSome = true → t.dst = .scan)

theorem formSym_effect (r : Byte) (s : State) (E : State → Prop) : (formSym r s).Ends (fun v t => decodedIn v s t ∧ v.isSome) E := by
  unfold formSym
  simp only
  split
  · refine ⟨⟨⟨_, _, _, _, _, _, _, _, rfl, Left.refl _, Drawn.refl _ _, id, fun h => ⟨h, rfl⟩⟩, ?_, fun _ => rfl⟩, rfl⟩
    intro h; cases h
  · refine ⟨⟨⟨_, _, _, _, _, _, _, _, rfl, Left.refl _, ⟨Nat.le_succ _, fun _ => rfl⟩, id, fun h => ⟨h, rfl⟩⟩, ?_, fun _ => rfl⟩,
      rfl⟩
    intro h; cases h

theorem decodeLoop_effect (n : Nat) (s : State) :
    (decodeLoop n s).Ends (fun r t => decodedIn r s t ∧
      (s.readOk → s.reoi = true → s.dst ≠ .rem ∨ 1 ≤ s.k.toNat → r = none)) (DecodeEnd s) := by
  induction n generalizing s with
  | zero => trivial
  | succ n ih =>
    rw [decodeLoop, decodeTurn]
    cases hd : s.dst with
    | done => exact ⟨⟨DecodeStep.refl s, fun _ => hd, fun h => absurd h (by simp)⟩, fun _ _ _ => rfl⟩
    | scan =>
      refine (getBitInt_effect s).andThen (fun _ h => h.decode) fun r t h => ?_
      obtain ⟨h1, h2, h3⟩ := h
      match r with
      | none => exact ⟨⟨h1.decode _ _, fun _ => rfl, fun h => absurd h (by simp)⟩, fun _ _ _ => rfl⟩
      | some true =>
        have hst : DecodeStep s { t with q := saturatingSucc t.q } := h1.decode _ t.dst
        have := ih { t with q := saturatingSucc t.q }
        simp only
        cases hg : decodeLoop n { t with q := saturatingSucc t.q } with
        | cont a u =>
          rw [hg] at this
          exact ⟨⟨hst.trans this.1.1, this.1.2⟩, fun a1 a2 _ => absurd (h3 a1 a2) (by simp)⟩
        | ended u => rw [hg] at this; exact hst.trans_end this
        | stop f => trivial
      | some false =>
        have hst : DecodeStep s { t with dst := .rem } := h1.decode t.q _
        have := ih { t with dst := .rem }
        simp only
        cases hg : decodeLoop n { t with dst := .rem } with
        | cont a u =>
          rw [hg] at this
          exact ⟨⟨hst.trans this.1.1, this.1.2⟩, fun a1 a2 _ => absurd (h3 a1 a2) (by simp)⟩
        | ended u => rw [hg] at this; exact hst.trans_end this
        | stop f => trivial
    | rem =>
      refine (getBitsFrom_effect _ _ s).andThen (fun _ h => h.decode) fun r t h => ?_
      obtain ⟨h1, h2, h3⟩ := h
      match r with
      | none => exact ⟨⟨h1.decode _ _, fun _ => rfl, fun h => absurd h (by simp)⟩, fun _ _ _ => rfl⟩
      | some x =>
        have hst : DecodeStep s t := h1.decode t.q t.dst
        have := formSym_effect x t (DecodeEnd s)
        simp only
        cases hg : formSym x t with
        | cont a u =>
          rw [hg] at this
          exact ⟨⟨hst.trans this.1.1, this.1.2⟩, fun a1 a2 a3 => absurd (h3 a1 a2 (a3.resolve_left (by simp))) (by simp)⟩
        | ended u => rw [hg] at this; exact this
        | stop f => trivial

theorem decSymInt_effect (s : State) :
    (decSymInt s).Ends (fun r t => decodedIn r s t ∧
      (s.readOk → s.reoi = true → s.dst ≠ .rem ∨ 1 ≤ s.k.toNat → r = none)) (DecodeEnd s) :=
  decodeLoop_effect _ s

/-! Whole passes. -/

/-- A reset somewhere in a command. -/
def ResetIn (s t : State) : Prop :=
  ∃ i k o n, t = resetCore { s with source := i, sink := k, output := o, draws := n } ∧
    Left s.source i ∧ Sent s.sink s.output k o ∧ s.draws ≤ n ∧
    ((∃ c, SrcEvent.reset c ∈ s.source) ∨ ∃ c, SnkEvent.reset c ∈ s.sink)

/-- How the loop of ENCODE leaves the machine: the write side closed, or a reset. -/
def EncodeOut (e : ErrorKind) (s t : State) : Prop :=
  ∃ i k o, t = { s with
      wopen := false, wacc := 0#8, wcnt := 0#3, source := i, sink := k, output := o, err := e } ∧
    Left s.source i ∧ Sent s.sink s.output k o

theorem encodeLoop_effect (n : Nat) (s : State) :
    (encodeLoop n s).Ends (fun _ t => EncodeOut s.err s t) (fun t => EncodeOut .ioFailure s t ∨ ResetIn s t) := by
  induction n generalizing s with
  | zero => trivial
  | succ n ih =>
    rw [encodeLoop]
    refine (srcRead_effect s).andThen ?_ ?_
    · rintro t ⟨k, rfl, h1, h2⟩
      exact .inr ⟨k, s.sink, s.output, s.draws, rfl, h1, Sent.refl _ _, le_refl _, .inl h2⟩
    · rintro r t ⟨i, rfl, hi⟩
      have hend : ∀ t, WriteEnd { s with source := i } t → EncodeOut .ioFailure s t ∨ ResetIn s t := by
        rintro t ⟨k, o, g2, rfl | ⟨rfl, g3⟩⟩
        · exact .inl ⟨i, k, o, rfl, hi, g2⟩
        · exact .inr ⟨i, k, o, s.draws, rfl, hi, g2, le_refl _, .inr g3⟩
      cases r with
      | byte x =>
        simp only
        rw [encSymInt_eq_putAll]
        refine (putAll_effect _ _).andThen hend ?_
        rintro _ t ⟨a, c, k, o, rfl, g2, -⟩
        have := ih { s with source := i, wacc := a, wcnt := c, sink := k, output := o }
        cases hg : encodeLoop n { s with source := i, wacc := a, wcnt := c, sink := k, output := o } with
        | cont u v =>
          rw [hg] at this
          obtain ⟨i', k', o', rfl, e1, e3⟩ := this
          exact ⟨i', k', o', rfl, hi.trans e1, g2.trans e3⟩
        | ended v =>
          rw [hg] at this
          rcases this with ⟨i', k', o', rfl, e1, e3⟩ | ⟨i', k', o', n', rfl, e1, e3, e4, e5⟩
          · exact .inl ⟨i', k', o', rfl, hi.trans e1, g2.trans e3⟩
          · refine .inr ⟨i', k', o', n', rfl, hi.trans e1, g2.trans e3, e4, ?_⟩
            rcases e5 with ⟨c, hc⟩ | ⟨c, hc⟩
            · exact .inl ⟨c, hi.reset_mem hc⟩
            · exact .inr ⟨c, g2.mem hc⟩
        | stop f => trivial
      | eoi =>
        simp only
        rw [flushInt_eq_putAll]
        refine (putAll_effect _ _).andThen hend ?_
        rintro _ t ⟨a, c, k, o, rfl, g2, -⟩
        exact ⟨i, k, o, rfl, hi, g2⟩
      | fail => exact .inl ⟨i, s.sink, s.output, rfl, hi, Sent.refl _ _⟩

/-- How the loop of DECODE leaves the machine: the read side closed and DST DONE, or a reset. -/
def DecodeOut (e : ErrorKind) (s t : State) : Prop :=
  ∃ i k o q v n a b, t = { s with
      ropen := false, rbuf := 0#8, rcnt := 0#4, reoi := false, dst := .done, q := q, dovf := v, draws := n
      data := a, eos := b, source := i, sink := k, output := o, err := e } ∧
    Left s.source i ∧ Sent s.sink s.output k o ∧ Drawn s.draws s.dovf n v

theorem decodePassLoop_effect (m : Nat) (s : State) :
    (decodePassLoop m s).Ends (fun _ t => DecodeOut s.err s t)
      (fun t => (DecodeOut .ioFailure s t ∧ t.data = s.data ∧ t.eos = s.eos) ∨ ResetIn s t) := by
  induction m generalizing s with
  | zero => trivial
  | succ m ih =>
    rw [decodePassLoop]
    refine (decSymInt_effect s).andThen ?_ ?_
    · rintro t ⟨k, q, v, n, h1, h2, -, rfl | ⟨rfl, h3⟩⟩
      · exact .inl ⟨⟨k, s.sink, s.output, q, v, n, s.data, s.eos, rfl, h1, Sent.refl _ _, h2⟩, rfl, rfl⟩
      · exact .inr ⟨k, s.sink, s.output, n, rfl, h1, Sent.refl _ _, h2.1, .inl h3⟩
    · rintro r t ⟨⟨⟨b, c, e, i, q, d, v, n, rfl, h1, h2, -, -⟩, hd, -⟩, -⟩
      cases r with
      | none =>
        have hdd : d = .done := hd rfl
        subst hdd
        exact ⟨i, s.sink, s.output, q, v, n + 1, _, true, rfl, h1, Sent.refl _ _, h2.trans ⟨Nat.le_succ _, id⟩⟩
      | some x =>
        simp only
        refine (snkWrite_effect x _).andThen ?_ ?_
        · rintro t ⟨k, o, rfl, g2, g3⟩
          exact .inr ⟨i, k, o, n, rfl, h1, g2, h2.1, .inr g3⟩
        · rintro w t ⟨k, o, rfl, g2⟩
          cases w with
          | fail => exact .inl ⟨⟨i, k, o, q, v, n, s.data, s.eos, rfl, h1, g2, h2⟩, rfl, rfl⟩
          | ok =>
            simp only
            have := ih { s with
              rbuf := b, rcnt := c, reoi := e, source := i, q := q, dst := d, dovf := v, draws := n, sink := k
              output := o }
            cases hg : decodePassLoop m { s with
              rbuf := b, rcnt := c, reoi := e, source := i, q := q, dst := d, dovf := v, draws := n, sink := k
              output := o } with
            | cont a u =>
              rw [hg] at this
              obtain ⟨i', k', o', q', v', n', a', b', rfl, e1, e3, e4⟩ := this
              exact ⟨i', k', o', q', v', n', a', b', rfl, h1.trans e1, g2.trans e3, h2.trans e4⟩
            | ended u =>
              rw [hg] at this
              rcases this with ⟨⟨i', k', o', q', v', n', a', b', rfl, e1, e3, e4⟩, ed, ee⟩ | ⟨i', k', o', n', rfl, e1, e3, e4, e5⟩
              · exact .inl ⟨⟨i', k', o', q', v', n', a', b', rfl, h1.trans e1, g2.trans e3, h2.trans e4⟩, ed, ee⟩
              · refine .inr ⟨i', k', o', n', rfl, h1.trans e1, g2.trans e3, h2.1.trans e4, ?_⟩
                rcases e5 with ⟨c, hc⟩ | ⟨c, hc⟩
                · exact .inl ⟨c, h1.reset_mem hc⟩
                · exact .inr ⟨c, g2.mem hc⟩
            | stop f => trivial

end Sys2Proof.Machine
end

