-- ==== Sys2Proof/Laws/Passes.lean ====
section
/-! SUPPORT. The laws of decoding as mathematics, and what the loops of the two passes do on a source that yields bytes
(spec/41_encoder.md R174, R175; spec/42_decoder.md R197, R200, R202). -/

namespace Sys2Proof.Wire

theorem unaryRun_le (l : List Bool) : unaryRun l ≤ l.length := by
  induction l with
  | nil => simp [unaryRun]
  | cons b l ih => cases b <;> simp [unaryRun, ih]

theorem unaryRun_all {l : List Bool} (h : ¬ unaryRun l < l.length) : l = List.replicate (unaryRun l) true := by
  induction l with
  | nil => rfl
  | cons b l ih =>
    cases b with
    | false => simp [unaryRun] at h
    | true =>
      simp only [unaryRun, List.length_cons, Nat.add_lt_add_iff_right] at h
      rw [unaryRun, List.replicate_succ, ← ih h]

theorem unaryRun_split {l : List Bool} (h : unaryRun l < l.length) :
    l = List.replicate (unaryRun l) true ++ false :: l.drop (unaryRun l + 1) := by
  induction l with
  | nil => simp at h
  | cons b l ih =>
    cases b with
    | false => rfl
    | true =>
      simp only [unaryRun, List.length_cons, Nat.add_lt_add_iff_right] at h
      rw [unaryRun, List.replicate_succ, List.cons_append, List.drop_succ_cons, ← ih h]

theorem unaryRun_replicate (m : Nat) (l : List Bool) : unaryRun (List.replicate m true ++ false :: l) = m := by
  induction m with
  | zero => rfl
  | succ m ih => rw [List.replicate_succ, List.cons_append, unaryRun, ih]

theorem unaryRun_ones (m : Nat) : unaryRun (List.replicate m true) = m := by
  induction m with
  | zero => rfl
  | succ m ih => rw [List.replicate_succ, unaryRun, ih]

/-- Saturation changes no emitted value (R192). -/
theorem symbolOf_saturated {k : Nat} (hk : 1 ≤ k) (q : Nat) (r : List Bool) :
    symbolOf k (min q 255) r = symbolOf k q r := by
  unfold symbolOf
  have h1 : 255 / 2 ^ k ≤ 255 / 2 ^ 1 := Nat.div_le_div_left (Nat.pow_le_pow_right (by decide) hk) (by decide)
  by_cases h : q ≤ 255 / 2 ^ k
  · rw [if_pos (by omega), if_pos h, min_eq_left (by omega)]
  · rw [if_neg (by omega), if_neg h]

/-- Decoding takes at least `k + 1` bits for each symbol (R200). -/
theorem decodeWords_length (k n : Nat) (l : List Bool) : (k + 1) * (decodeWords k n l).1.length ≤ l.length := by
  induction n generalizing l with
  | zero => simp [decodeWords]
  | succ n ih =>
    simp only [decodeWords]
    split
    · rename_i h
      have := ih ((l.drop (unaryRun l + 1)).drop k)
      simp only [List.length_drop, List.length_cons] at this h ⊢
      rw [Nat.mul_add]
      omega
    · simp

theorem decodeWords_fuel {k n m : Nat} {l : List Bool} (hn : l.length ≤ n) (hm : l.length ≤ m) :
    decodeWords k n l = decodeWords k m l := by
  induction n generalizing m l with
  | zero =>
    have : l = [] := List.eq_nil_of_length_eq_zero (by omega)
    subst this
    cases m with
    | zero => rfl
    | succ m => rfl
  | succ n ih =>
    cases m with
    | zero =>
      have : l = [] := List.eq_nil_of_length_eq_zero (by omega)
      subst this
      simp [decodeWords, unaryRun]
    | succ m =>
      simp only [decodeWords]
      rw [ih (m := m) (by simp; omega) (by simp; omega)]

theorem decodeBits_word {k : Nat} (m : Nat) (r l : List Bool) (hr : r.length = k) :
    decodeBits k (List.replicate m true ++ false :: (r ++ l)) =
      (symbolOf k m r :: (decodeBits k l).1, (decodeBits k l).2) := by
  have h0 : (List.replicate m true ++ false :: (r ++ l)).length = (m + k + l.length) + 1 := by simp; omega
  have hd : (List.replicate m true ++ false :: (r ++ l)).drop (m + 1) = r ++ l := by
    rw [List.drop_append]; simp
  rw [decodeBits, h0, decodeWords]
  simp only [unaryRun_replicate, hd]
  rw [if_pos (by constructor <;> simp <;> omega)]
  have h1 : (r ++ l).take k = r := by rw [← hr]; simp
  have h2 : (r ++ l).drop k = l := by rw [← hr]; simp
  rw [h1, h2, decodeWords_fuel (m := l.length) (by omega) (le_refl _)]
  rfl

/-- Decoding a code word gives its symbol (R198). -/
theorem decodeBits_codeWord (k : Nat) (x : Byte) (l : List Bool) :
    decodeBits k (codeWord k x ++ l) = (some x :: (decodeBits k l).1, (decodeBits k l).2) := by
  have hx := x.isLt
  have hpos : 0 < 2 ^ k := Nat.pow_pos (by decide)
  have h1 : x.toNat / 2 ^ k ≤ 255 / 2 ^ k := Nat.div_le_div_right (by omega)
  have h2 : symbolOf k (x.toNat / 2 ^ k) (bitsOf k (BitVec.ofNat 8 (x.toNat % 2 ^ k))) = some x := by
    rw [bitsOf_mod, symbolOf, if_pos h1, natOfBits_bitsOf, Nat.div_add_mod', BitVec.ofNat_toNat, BitVec.setWidth_eq]
  rw [codeWord, List.append_assoc, List.cons_append, decodeBits_word _ _ _ (by simp), h2]

theorem decodeBits_codeBits (k : Nat) (symbols : List Byte) (l : List Bool) :
    decodeBits k (codeBits k symbols ++ l) = (symbols.map some ++ (decodeBits k l).1, (decodeBits k l).2) := by
  induction symbols with
  | nil => rfl
  | cons x xs ih =>
    have : codeBits k (x :: xs) = codeWord k x ++ codeBits k xs := rfl
    rw [this, List.append_assoc, decodeBits_codeWord k, ih]
    rfl

theorem decodeBits_ones (k m : Nat) : decodeBits k (List.replicate m true) = ([], m) := by
  cases m with
  | zero => rfl
  | succ m =>
    rw [decodeBits, List.length_replicate, decodeWords]
    simp only [unaryRun_ones, List.length_replicate]
    rw [if_neg (by omega)]

/-- Decoding 0-bits gives a symbol 0 for each `k + 1` of them (R202). -/
theorem decodeBits_zeros (k p : Nat) :
    decodeBits k (List.replicate p false) = (List.replicate (p / (k + 1)) (some 0#8), 0) := by
  induction p using Nat.strong_induction_on with
  | _ p ih =>
    by_cases h : k + 1 ≤ p
    · obtain ⟨n, rfl⟩ : ∃ n, p = k + 1 + n := ⟨p - (k + 1), by omega⟩
      have h1 : List.replicate (k + 1 + n) false =
          List.replicate 0 true ++ false :: (List.replicate k false ++ List.replicate n false) := by
        rw [List.replicate_append_replicate, List.replicate_zero, List.nil_append, ← List.replicate_succ]
        congr 1; omega
      have h2 : natOfBits (List.replicate k false) = 0 := by
        clear h1 ih h
        induction k with
        | zero => rfl
        | succ k ih => rw [List.replicate_succ, natOfBits_cons, ih]; simp
      have h3 : symbolOf k 0 (List.replicate k false) = some 0#8 := by
        simp [symbolOf, h2]
      rw [h1, decodeBits_word _ _ _ (by simp), h3, ih n (by omega), Nat.add_comm (k + 1) n,
        Nat.add_div_right _ (by omega), List.replicate_succ]
    · rw [Nat.div_eq_of_lt (by omega)]
      cases p with
      | zero => rfl
      | succ p =>
        rw [decodeBits, List.length_replicate, decodeWords]
        have h0 : unaryRun (List.replicate (p + 1) false) = 0 := rfl
        simp only [h0, List.length_drop, List.length_replicate]
        rw [if_neg (by omega)]
        rfl

end Sys2Proof.Wire

namespace Sys2Proof.Machine
open Sys2Proof.Wire

theorem leftover_lt (l : List Bool) : (leftover l).length < 8 := by rw [leftover_length]; omega

@[simp] theorem wrote_pending (l : List Bool) (s : State) : (s.wrote l).pending = leftover (s.pending ++ l) :=
  pending_of (leftover_lt _) rfl rfl

theorem bytesDue_append (l m : List Bool) (s : State) : s.bytesDue (l ++ m) = s.bytesDue l ++ (s.wrote l).bytesDue m := by
  rw [State.bytesDue, State.bytesDue, State.bytesDue, wrote_pending, ← List.append_assoc, fullBytes_append]

theorem wrote_wrote (l m : List Bool) (s : State) : (s.wrote l).wrote m = s.wrote (l ++ m) := by
  have h := bytesDue_append l m s
  have hp : leftover (leftover (s.pending ++ l) ++ m) = leftover (s.pending ++ (l ++ m)) := by
    rw [← leftover_append, List.append_assoc]
  unfold State.wrote at h ⊢
  simp only at h ⊢
  have hp' := wrote_pending l s
  unfold State.wrote at hp'
  simp only [hp', hp, h, List.length_append, List.append_assoc, afterWrites_add]

theorem wrote_wacc_lt (l : List Bool) (s : State) : (s.wrote l).wacc.toNat < 2 ^ (s.wrote l).wcnt.toNat := by
  have h := leftover_lt (s.pending ++ l)
  have : (s.wrote l).wcnt.toNat = (leftover (s.pending ++ l)).length := by
    simp only [State.wrote, BitVec.toNat_ofNat]; omega
  rw [this]
  exact byteOfBits_lt

theorem sinkAccepts_append {l m : List Bool} {s : State} (h : s.sinkAccepts (s.bytesDue (l ++ m)).length) :
    s.sinkAccepts (s.bytesDue l).length ∧ (s.wrote l).sinkAccepts ((s.wrote l).bytesDue m).length := by
  rw [bytesDue_append, List.length_append] at h
  exact accepting_split h

/-- The symbols of an encode pass, each written as its code word (R174). -/
theorem encodeLoop_symbols {symbols : List Byte} {n : Nat} {s : State} {rest : List SrcEvent}
    (hw : s.wacc.toNat < 2 ^ s.wcnt.toNat) (hs : s.source = yields symbols rest)
    (ha : s.sinkAccepts (s.bytesDue (codeBits s.k.toNat symbols)).length) :
    encodeLoop (n + symbols.length) s =
      encodeLoop n { s.wrote (codeBits s.k.toNat symbols) with source := rest } := by
  induction symbols generalizing s with
  | nil =>
    have h0 := putAll_ok (l := []) hw (by
      have : (s.bytesDue []).length = 0 := by rw [bytesDue_length]; have := s.wcnt.isLt; simp; omega
      rw [this]; exact accepting_zero _)
    simp only [putAll, Run.cont.injEq, true_and] at h0
    have h1 : codeBits s.k.toNat [] = [] := rfl
    rw [h1, ← h0]
    have : s.source = rest := hs
    rw [← this]; rfl
  | cons x xs ih =>
    have hcb : codeBits s.k.toNat (x :: xs) = codeWord s.k.toNat x ++ codeBits s.k.toNat xs := rfl
    rw [hcb] at ha ⊢
    obtain ⟨h1, h2⟩ := sinkAccepts_append ha
    rw [List.length_cons, ← Nat.add_assoc, encodeLoop]
    have hsrc : s.source = .answer (.byte x) :: yields xs rest := hs
    simp only [srcRead, hsrc, andThen_cont]
    rw [encSymInt_eq_putAll]
    have h3 := putAll_ok (l := codeWord s.k.toNat x) (s := { s with source := yields xs rest }) hw h1
    simp only
    rw [h3, andThen_cont]
    have h4 := ih (s := ({ s with source := yields xs rest } : State).wrote (codeWord s.k.toNat x))
      (wrote_wacc_lt _ { s with source := yields xs rest }) rfl h2
    rw [h4, ← wrote_wrote]
    rfl

/-- The bits of an encode pass that are still to be written: the code words, and the fill bits of the flush (R174). -/
def encodeBits (symbols : List Byte) (s : State) : List Bool :=
  codeBits s.k.toNat symbols ++
    List.replicate (padding (s.wcnt.toNat + (codeBits s.k.toNat symbols).length)) true

/-- An encode pass on a source that yields the symbols and then EOI reaches its byte number `j` (from 0), the sink accepting
those before: what the sink answers to that byte decides how the pass goes on (R174, R120). -/
theorem encodeLoop_reach {symbols : List Byte} {n j : Nat} {s : State} {rest : List SrcEvent}
    (hw : s.wacc.toNat < 2 ^ s.wcnt.toNat) (hs : s.source = yields symbols (.answer .eoi :: rest))
    (hj : j < (s.bytesDue (encodeBits symbols s)).length) (ha : s.sinkAccepts j) :
    ∃ (src : List SrcEvent) (g : Unit → State → Run Unit), encodeLoop (n + 1 + symbols.length) s =
      ((snkWrite ((s.bytesDue (encodeBits symbols s))[j])
        { s.offering (encodeBits symbols s) j with source := src }).andThen byteSent).andThen g := by
  induction symbols generalizing s j with
  | nil =>
    have he : encodeBits [] s = List.replicate (padding s.wcnt.toNat) true := by simp [encodeBits, codeBits]
    simp only [he] at hj ⊢
    have hsrc : s.source = .answer .eoi :: rest := hs
    obtain ⟨m, hm⟩ := putAll_reach (s := { s with source := rest }) hw hj ha
    rw [List.length_nil, Nat.add_zero, encodeLoop]
    simp only [srcRead, hsrc, andThen_cont]
    rw [flushInt_eq_putAll]
    simp only at hm ⊢
    rw [hm, andThen_assoc]
    exact ⟨rest, _, rfl⟩
  | cons x xs ih =>
    have hsrc : s.source = .answer (.byte x) :: yields xs (.answer .eoi :: rest) := hs
    rw [List.length_cons, ← Nat.add_assoc, encodeLoop]
    simp only [srcRead, hsrc, andThen_cont]
    rw [encSymInt_eq_putAll]
    simp only
    set u : State := { s with source := yields xs (.answer .eoi :: rest) } with hu
    set w : State := u.wrote (codeWord s.k.toNat x) with hwd
    have hwc : w.wcnt.toNat = (s.wcnt.toNat + (codeWord s.k.toNat x).length) % 8 := by
      have : w.wcnt.toNat = (leftover (s.pending ++ codeWord s.k.toNat x)).length % 8 := by
        rw [hwd, State.wrote, BitVec.toNat_ofNat]; rfl
      rw [this, leftover_length, List.length_append, pending_length, Nat.mod_mod]
    have hbits : encodeBits (x :: xs) s = codeWord s.k.toNat x ++ encodeBits xs w := by
      have hcb : codeBits s.k.toNat (x :: xs) = codeWord s.k.toNat x ++ codeBits s.k.toNat xs := rfl
      have hwk : w.k = s.k := rfl
      rw [encodeBits, encodeBits, hcb, hwk, hwc, List.append_assoc, List.length_append]
      congr 3
      unfold padding; omega
    have hdue : s.bytesDue (encodeBits (x :: xs) s) =
        u.bytesDue (codeWord s.k.toNat x) ++ w.bytesDue (encodeBits xs w) := by
      rw [hbits]; exact bytesDue_append _ _ u
    simp only [hdue] at hj ⊢
    by_cases hin : j < (u.bytesDue (codeWord s.k.toNat x)).length
    · obtain ⟨m, hm⟩ := putAll_reach (s := u) hw hin ha
      have : ({ s.offering (encodeBits (x :: xs) s) j with source := u.source } : State) =
          u.offering (codeWord s.k.toNat x) j := by
        simp only [State.offering, hdue, List.take_append_of_le_length (le_of_lt hin)]
        rfl
      refine ⟨u.source, fun _ t => (putAll m t).andThen fun _ t => encodeLoop (n + 1 + xs.length) t, ?_⟩
      rw [List.getElem_append_left hin, this, hm, andThen_assoc]
    · set d := (u.bytesDue (codeWord s.k.toNat x)).length with hd
      have hle : d ≤ j := by omega
      have hsp : accepting (d + (j - d)) u.sink = true := by rw [Nat.add_sub_cancel' hle]; exact ha
      obtain ⟨h1, h2⟩ := accepting_split hsp
      rw [putAll_ok (s := u) hw h1, andThen_cont]
      have hjd : j - d < (w.bytesDue (encodeBits xs w)).length := by
        rw [List.length_append, ← hd] at hj; omega
      obtain ⟨src, g, hih⟩ := ih (s := w) (j := j - d) (wrote_wacc_lt _ _) rfl hjd h2
      refine ⟨src, g, hih.trans ?_⟩
      rw [List.getElem_append_right hle]
      have : ({ s.offering (encodeBits (x :: xs) s) j with source := src } : State) =
          { w.offering (encodeBits xs w) (j - d) with source := src } := by
        have hout : w.output = s.output ++ u.bytesDue (codeWord s.k.toNat x) := rfl
        have hsk : w.sink = afterWrites d s.sink := rfl
        simp only [State.offering, hdue, hout, hsk, ← afterWrites_add, Nat.add_sub_cancel' hle, List.append_assoc]
        rw [List.take_append, List.take_of_length_le hle]
        rfl
      rw [this]

/-- One turn of a decode pass with a whole code word ahead. -/
theorem decSymInt_word {s : State} (hr : s.readOk) (hd : s.dst = .scan) (hq : s.q = 0#8) (hk : s.k ≠ 0#3)
    (h1 : unaryRun s.ahead < s.ahead.length)
    (h2 : s.k.toNat ≤ (s.ahead.drop (unaryRun s.ahead + 1)).length) :
    ∃ (v : Byte) (d : Nat),
      emits (symbolOf s.k.toNat (unaryRun s.ahead) ((s.ahead.drop (unaryRun s.ahead + 1)).take s.k.toNat)) v ∧
      decSymInt s = .cont (some v)
        { s.took (unaryRun s.ahead + 1 + s.k.toNat) with
          q := 0#8, dst := .scan, draws := d
          dovf := s.dovf || (symbolOf s.k.toNat (unaryRun s.ahead)
            ((s.ahead.drop (unaryRun s.ahead + 1)).take s.k.toNat)).isNone } := by
  have hk1 : 1 ≤ s.k.toNat := by
    rcases Nat.eq_zero_or_pos s.k.toNat with h | h
    · exact absurd (BitVec.eq_of_toNat_eq h) hk
    · exact h
  have hq' : (quotientAfter s.q (unaryRun s.ahead)).toNat = min (unaryRun s.ahead) 255 := by
    rw [hq, quotientAfter, BitVec.toNat_ofNat]
    simp only [BitVec.toNat_ofNat, Nat.zero_mod, Nat.zero_add]
    exact Nat.mod_eq_of_lt (by omega)
  rw [decSymInt_codeWord hr hd (unaryRun_split h1) h2,
    formSym_bits (by rw [List.length_take, min_eq_left h2, took_k]), hq']
  simp only [took_k, symbolOf_saturated hk1]
  have hdv : (s.took (unaryRun s.ahead + 1 + s.k.toNat)).dovf = s.dovf := by rw [took_eq]
  have hdr : (s.took (unaryRun s.ahead + 1 + s.k.toNat)).draws = s.draws := by rw [took_eq]
  cases hsym : symbolOf s.k.toNat (unaryRun s.ahead) ((s.ahead.drop (unaryRun s.ahead + 1)).take s.k.toNat) with
  | some v =>
    refine ⟨v, s.draws, fun w hw => Option.some.inj hw, ?_⟩
    simp [State.decoder, ← hdv, ← hdr]
  | none =>
    refine ⟨Config.draw8 s.draws, s.draws + 1, ?_, ?_⟩
    · intro w hw; exact absurd hw (by simp)
    · simp [State.decoder, hdr]

/-- The last turn of a decode pass: no whole code word is ahead. -/
theorem decSymInt_end {s : State} (hr : s.readOk) (hd : s.dst = .scan) (he : s.endsInEoi)
    (h : ¬ (unaryRun s.ahead < s.ahead.length ∧ s.k.toNat ≤ (s.ahead.drop (unaryRun s.ahead + 1)).length)) :
    decSymInt s = .cont none (s.drained.decoder (quotientAfter s.q (unaryRun s.ahead)) .done) := by
  by_cases h1 : unaryRun s.ahead < s.ahead.length
  · exact decSymInt_pathB hr hd (unaryRun_split h1) (by by_contra h2; exact h ⟨h1, by omega⟩) he
  · exact decSymInt_pathA hr hd (unaryRun_all h1) he

theorem decSymInt_end_fail {s : State} (hr : s.readOk) (hd : s.dst = .scan) (he : s.endsInFail)
    (h : ¬ (unaryRun s.ahead < s.ahead.length ∧ s.k.toNat ≤ (s.ahead.drop (unaryRun s.ahead + 1)).length)) :
    decSymInt s = .ended (setErr .ioFailure (s.readFailed.decoder (quotientAfter s.q (unaryRun s.ahead)) .done)) := by
  by_cases h1 : unaryRun s.ahead < s.ahead.length
  · exact decSymInt_fail hr hd he (.inr ⟨_, unaryRun_split h1, by by_contra h2; exact h ⟨h1, by omega⟩⟩)
  · exact decSymInt_fail hr hd he (.inl (unaryRun_all h1))

/-- What stays the same of a state in the middle of a decode pass. -/
def State.sameBut (s t : State) : Prop :=
  t = { s with
    rbuf := t.rbuf, rcnt := t.rcnt, source := t.source, sink := t.sink, output := t.output, draws := t.draws
    dovf := t.dovf }

/-- The turns of a decode pass over the code words ahead, the sink accepting `j` symbols and `j` of them decoded: the
state then, from which the loop goes on. -/
theorem decodePassLoop_words {n f j : Nat} {s : State} (hr : s.readOk) (hd : s.dst = .scan) (hq : s.q = 0#8)
    (hk : s.k ≠ 0#3) (hn : s.ahead.length ≤ n) (hj : j ≤ (decodeWords s.k.toNat n s.ahead).1.length)
    (hs : s.sinkAccepts j) :
    ∃ (out : List Byte) (t : State),
      List.Forall₂ emits ((decodeWords s.k.toNat n s.ahead).1.take j) out ∧
      decodePassLoop (f + j) s = decodePassLoop f t ∧ s.sameBut t ∧ t.readOk ∧
      t.output = s.output ++ out ∧ t.sink = afterWrites j s.sink ∧
      t.dovf = (s.dovf || ((decodeWords s.k.toNat n s.ahead).1.take j).any Option.isNone) ∧
      (∀ rest, s.source = yields (sourceBytes s.source) rest → t.source = yields (sourceBytes t.source) rest) ∧
      ∃ m, t.ahead.length ≤ m ∧
        decodeWords s.k.toNat m t.ahead =
          ((decodeWords s.k.toNat n s.ahead).1.drop j, (decodeWords s.k.toNat n s.ahead).2) := by
  induction j generalizing n s with
  | zero =>
    exact ⟨[], s, by simp, rfl, rfl, hr, by simp, by simp, by simp, fun _ h => h, n, hn, by simp⟩
  | succ j ih =>
    cases n with
    | zero =>
      simp only [decodeWords, List.length_nil] at hj; omega
    | succ n =>
      by_cases h : unaryRun s.ahead < s.ahead.length ∧ s.k.toNat ≤ (s.ahead.drop (unaryRun s.ahead + 1)).length
      · -- a code word is ahead
        have hlen : unaryRun s.ahead + 1 + s.k.toNat ≤ s.ahead.length := by
          have := h.2; rw [List.length_drop] at this; omega
        obtain ⟨v, d, hv, hdec⟩ := decSymInt_word hr hd hq hk h.1 h.2
        obtain ⟨f1, f2, -⟩ := took_facts hr hlen
        have hw : decodeWords s.k.toNat (n + 1) s.ahead =
            (symbolOf s.k.toNat (unaryRun s.ahead) ((s.ahead.drop (unaryRun s.ahead + 1)).take s.k.toNat) ::
              (decodeWords s.k.toNat n ((s.ahead.drop (unaryRun s.ahead + 1)).drop s.k.toNat)).1,
              (decodeWords s.k.toNat n ((s.ahead.drop (unaryRun s.ahead + 1)).drop s.k.toNat)).2) := by
          rw [decodeWords]; simp only; rw [if_pos h]
        rw [hw] at hj ⊢
        simp only [List.length_cons, List.take_succ_cons, List.drop_succ_cons, List.any_cons] at hj ⊢
        rw [State.sinkAccepts, Nat.add_comm] at hs
        obtain ⟨hs1, hs'⟩ := accepting_split hs
        have htk : (s.took (unaryRun s.ahead + 1 + s.k.toNat)).sink = s.sink := by rw [took_eq]
        set sym := symbolOf s.k.toNat (unaryRun s.ahead) ((s.ahead.drop (unaryRun s.ahead + 1)).take s.k.toNat)
        set u : State := { s.took (unaryRun s.ahead + 1 + s.k.toNat) with
          q := 0#8, dst := .scan, draws := d, dovf := s.dovf || sym.isNone, sink := afterWrites 1 s.sink
          output := s.output ++ [v] }
          with hu
        have huk : u.k = s.k := took_k _ s
        have hua : u.ahead = (s.ahead.drop (unaryRun s.ahead + 1)).drop s.k.toNat := by
          rw [List.drop_drop]; exact f1
        have hun : u.ahead.length ≤ n := by rw [hua]; simp; omega
        obtain ⟨out, t, g1, g2, g3, g4, g5, g6, g7, g8, m, g10, g11⟩ :=
          ih (n := n) (s := u) f2 rfl rfl (by rw [huk]; exact hk) hun (by rw [huk, hua]; omega) hs'
        rw [huk, hua] at g1 g7 g11
        refine ⟨v :: out, t, List.Forall₂.cons hv g1, ?_, ?_, g4, ?_, ?_, ?_, fun rest h => ?_, m, g10, ?_⟩
        · rw [show f + (j + 1) = (f + j) + 1 by omega, decodePassLoop, hdec, andThen_cont]
          have hok : snkWrite v { s.took (unaryRun s.ahead + 1 + s.k.toNat) with
              q := 0#8, dst := .scan, draws := d, dovf := s.dovf || sym.isNone } = .cont .ok u := by
            have hto : (s.took (unaryRun s.ahead + 1 + s.k.toNat)).output = s.output := by rw [took_eq]
            rw [snkWrite_ok (by rw [htk]; exact hs1), hu, appendOutput]
            simp only [hto, htk]
          simp only
          rw [hok, andThen_cont]
          exact g2
        · unfold State.sameBut at g3 ⊢
          rw [g3, hu, took_eq]
          ext <;> simp [hd, hq]
        · rw [g5, hu]; simp
        · rw [g6, hu, ← afterWrites_add, Nat.add_comm]
        · rw [g7, hu]; simp [Bool.or_assoc]
        · exact g8 rest (took_source hlen h)
        · exact g11
      · rw [decodeWords] at hj
        simp only at hj
        rw [if_neg h] at hj
        simp at hj

end Sys2Proof.Machine
end

