-- ==== Sys2Proof/Laws/Hang.lean ====
section
/-! SUPPORT. Loops without an end (spec/60_exceptions.md R234): what the commands do on channels that never end, and that the
turns the loops are given are enough (log 17). -/

namespace Sys2Proof.Machine
open Sys2Proof.Wire

/-! One transaction. -/

/-- A read that answers a byte takes it off the list, or begins a period of an endless source. -/
theorem srcRead_byte {s t : State} {x : Byte} (h : srcRead s = .cont (.byte x) t) :
    ∃ k, t = { s with source := k } ∧ (s.source = .answer (.byte x) :: k ∨
      ∃ more rest, s.source = .endless x more :: rest ∧ k = afterFirst x more rest) := by
  unfold srcRead at h
  match hs : s.source with
  | [] | .reset _ :: _ => rw [hs] at h; cases h
  | .answer r :: rest => rw [hs] at h; cases h; exact ⟨rest, rfl, .inl rfl⟩
  | .endless b more :: rest => rw [hs] at h; cases h; exact ⟨_, rfl, .inr ⟨more, rest, rfl, rfl⟩⟩

theorem srcRead_ne_hang (s : State) : srcRead s ≠ .stop .hang := by
  rcases srcRead_cases s with ⟨r, k, h, -⟩ | ⟨k, c, h, -⟩ | h <;> rw [h] <;> simp

theorem snkWrite_ne_hang (b : Byte) (s : State) : snkWrite b s ≠ .stop .hang := by
  rcases snkWrite_cases b s with ⟨r, k, o, h, -⟩ | ⟨k, o, c, h, -⟩ | h <;> rw [h] <;> simp

/-- Where an operation and all that may follow it do not hang, neither does the whole. -/
theorem andThen_ne_hang {α β : Type} {r : Run α} {g : α → State → Run β} (hr : r ≠ .stop .hang)
    (hg : ∀ a t, r = .cont a t → g a t ≠ .stop .hang) : r.andThen g ≠ .stop .hang := by
  cases r with
  | cont a t => exact hg a t rfl
  | ended t => simp
  | stop f => simpa using hr

theorem yieldsForever_byte {x : Byte} {k : List SrcEvent} (h : yieldsForever k) :
    yieldsForever (.answer (.byte x) :: k) := by
  obtain ⟨bytes, b, more, rest, rfl⟩ := h
  exact ⟨x :: bytes, b, more, rest, rfl⟩

theorem yieldsForever_cons (b : Byte) (more : List Byte) (rest : List SrcEvent) :
    yieldsForever (.endless b more :: rest) := ⟨[], b, more, rest, rfl⟩

/-- An endless source always answers a byte, and stays endless. -/
theorem srcRead_endless {s : State} (h : yieldsForever s.source) :
    ∃ x k, srcRead s = .cont (.byte x) { s with source := k } ∧ yieldsForever k := by
  obtain ⟨bytes, b, more, rest, hs⟩ := h
  unfold srcRead
  rw [hs]
  cases bytes with
  | nil => exact ⟨b, _, rfl, more, b, more, rest, rfl⟩
  | cons x l => exact ⟨x, _, rfl, l, b, more, rest, rfl⟩

/-- A source that is not endless loses one of its listed events with every byte, and does not become endless. -/
theorem srcRead_finite {s t : State} {x : Byte} (h : ¬ yieldsForever s.source) (hr : srcRead s = .cont (.byte x) t) :
    ∃ k, t = { s with source := k } ∧ ¬ yieldsForever k ∧ sourceReads s.source = sourceReads k + 1 ∧
      s.source.length = k.length + 1 := by
  obtain ⟨k, rfl, hs | ⟨more, rest, hs, -⟩⟩ := srcRead_byte hr
  · rw [hs] at h ⊢
    exact ⟨k, rfl, fun hk => h (yieldsForever_byte hk), rfl, rfl⟩
  · rw [hs] at h
    exact absurd (yieldsForever_cons _ _ _) h

theorem acceptsForever_after {l : List SnkEvent} (h : acceptsForever l) (m : Nat) : acceptsForever (afterWrites m l) :=
  fun n => (accepting_split (h (m + n))).2

/-- A sink that does not accept forever loses one of its listed answers with every Ok, and does not become one. -/
theorem snkWrite_finite {b : Byte} {s t : State} (h : ¬ acceptsForever s.sink) (hr : snkWrite b s = .cont .ok t) :
    ∃ k, t = { s with sink := k, output := s.output ++ [b] } ∧ ¬ acceptsForever k ∧ s.sink.length = k.length + 1 := by
  unfold snkWrite at hr
  match hs : s.sink with
  | [] | .fail _ :: _ | .reset _ :: _ => rw [hs] at hr; cases hr
  | .okForever :: rest => rw [hs] at h; exact absurd (accepting_okForever · rest) h
  | .ok :: rest =>
    rw [hs] at hr h
    cases hr
    refine ⟨rest, rfl, fun hk => h fun n => ?_, rfl⟩
    cases n with
    | zero => rfl
    | succ n => exact hk n

/-! ENCODE. -/

theorem putBitInt_ne_hang (b : Bool) (s : State) : putBitInt b s ≠ .stop .hang := by
  unfold putBitInt
  simp only
  split
  · exact andThen_ne_hang (snkWrite_ne_hang _ _) fun r t _ => by cases r <;> simp [byteSent]
  · simp

theorem putAll_ne_hang (l : List Bool) (s : State) : putAll l s ≠ .stop .hang := by
  induction l generalizing s with
  | nil => simp [putAll]
  | cons b l ih => exact andThen_ne_hang (putBitInt_ne_hang b s) fun _ t _ => ih t

/-- The most bits that can be written before the sink's listed answers run out. -/
def State.room (s : State) : Nat := 8 * s.sink.length + 7 - s.wcnt.toNat

theorem putBitInt_finite {b : Bool} {s t : State} {u : Unit} (h : ¬ acceptsForever s.sink)
    (hp : putBitInt b s = .cont u t) : ¬ acceptsForever t.sink ∧ t.room + 1 ≤ s.room := by
  have hlt := s.wcnt.isLt
  by_cases h7 : s.wcnt.toNat = 7
  · rw [putBitInt_eighth h7] at hp
    cases hw : snkWrite (shiftIn s.wacc b) { s with wacc := 0#8, wcnt := 0#3 } with
    | cont r v =>
      rw [hw] at hp
      cases r with
      | ok =>
        obtain ⟨k, rfl, h1, h2⟩ := snkWrite_finite (s := { s with wacc := 0#8, wcnt := 0#3 }) h hw
        cases hp
        refine ⟨h1, ?_⟩
        simp only at h2
        simp only [State.room, h2, BitVec.toNat_ofNat]
        omega
      | fail => simp [byteSent] at hp
    | ended v => rw [hw] at hp; cases hp
    | stop f => rw [hw] at hp; cases hp
  · rw [putBitInt_short (by omega)] at hp
    cases hp
    refine ⟨h, ?_⟩
    simp only [State.room, BitVec.toNat_ofNat]
    omega

theorem putAll_finite {l : List Bool} {s t : State} {u : Unit} (h : ¬ acceptsForever s.sink)
    (hp : putAll l s = .cont u t) : ¬ acceptsForever t.sink ∧ t.room + l.length ≤ s.room := by
  induction l generalizing s with
  | nil => cases hp; exact ⟨h, le_refl _⟩
  | cons b l ih =>
    rw [putAll] at hp
    cases hb : putBitInt b s with
    | cont v w =>
      rw [hb] at hp
      obtain ⟨h1, h2⟩ := putBitInt_finite h hb
      obtain ⟨h3, h4⟩ := ih h1 hp
      exact ⟨h3, by rw [List.length_cons]; omega⟩
    | ended w => rw [hb] at hp; cases hp
    | stop f => rw [hb] at hp; cases hp

/-- A sink that accepts forever takes every bit string, and stays one. -/
theorem putAll_endless {l : List Bool} {s : State} (h : acceptsForever s.sink) :
    ∃ t, putAll l s = .cont () t ∧ acceptsForever t.sink ∧ t.source = s.source ∧ t.k = s.k := by
  induction l generalizing s with
  | nil => exact ⟨s, rfl, h, rfl, rfl⟩
  | cons b l ih =>
    rw [putAll]
    by_cases h7 : s.wcnt.toNat = 7
    · rw [putBitInt_eighth h7, snkWrite_ok (s := { s with wacc := 0#8, wcnt := 0#3 }) (h 1)]
      simp only [andThen_cont, byteSent]
      exact ih (s := appendOutput _ { s with wacc := 0#8, wcnt := 0#3, sink := afterWrites 1 s.sink })
        (acceptsForever_after h 1)
    · rw [putBitInt_short (by have := s.wcnt.isLt; omega), andThen_cont]
      exact ih (s := s.bitJoined b) h

/-- With both channels endless no number of turns ends ENCODE's loop. -/
theorem encodeLoop_endless (n : Nat) {s : State} (hy : yieldsForever s.source) (ha : acceptsForever s.sink) :
    encodeLoop n s = .stop .hang := by
  induction n generalizing s with
  | zero => rfl
  | succ n ih =>
    obtain ⟨x, k, h, hk⟩ := srcRead_endless hy
    rw [encodeLoop, h, andThen_cont]
    simp only
    rw [encSymInt_eq_putAll]
    obtain ⟨t, h1, h2, h3, -⟩ := putAll_endless (l := codeWord s.k.toNat x) (s := { s with source := k }) ha
    simp only at h1 ⊢
    rw [h1, andThen_cont]
    exact ih (by rw [h3]; exact hk) h2

/-- With one of them not endless, the loop ends within as many turns as that channel allows. -/
theorem encodeLoop_ne_hang {n : Nat} {s : State}
    (h : ¬ yieldsForever s.source ∧ s.source.length < n ∨ ¬ acceptsForever s.sink ∧ s.room < n) :
    encodeLoop n s ≠ .stop .hang := by
  induction n generalizing s with
  | zero => omega
  | succ n ih =>
    rw [encodeLoop]
    refine andThen_ne_hang (srcRead_ne_hang s) fun r t hr => ?_
    cases r with
    | eoi =>
      simp only
      rw [flushInt_eq_putAll]
      exact andThen_ne_hang (putAll_ne_hang _ _) fun _ _ _ => by simp
    | fail => simp
    | byte x =>
      simp only
      rw [encSymInt_eq_putAll]
      refine andThen_ne_hang (putAll_ne_hang _ _) fun v u hp => ih ?_
      have hws := putAll_effect (codeWord t.k.toNat x) t
      rw [hp] at hws
      obtain ⟨a, c, k', o, hu, -⟩ := hws
      rcases h with ⟨h1, h2⟩ | ⟨h1, h2⟩
      · obtain ⟨k, rfl, e1, -, e3⟩ := srcRead_finite h1 hr
        subst hu
        exact .inl ⟨e1, by show k.length < n; omega⟩
      · obtain ⟨k, rfl, -⟩ := srcRead_byte hr
        obtain ⟨e1, e2⟩ := putAll_finite (s := { s with source := k }) h1 hp
        refine .inr ⟨e1, ?_⟩
        have hpos : 0 < (codeWord s.k.toNat x).length := List.length_pos_of_ne_nil (by simp [codeWord])
        simp only at e2
        have : State.room { s with source := k } = s.room := rfl
        omega

/-- The turns ENCODE is given are enough: it hangs exactly on endless channels. -/
theorem encodeTurns_enough (s : State) :
    encodeLoop (encodeTurns s) (openW (closeR s)) = .stop .hang ↔ yieldsForever s.source ∧ acceptsForever s.sink := by
  constructor
  · intro h
    by_contra hn
    refine encodeLoop_ne_hang (s := openW (closeR s)) ?_ h
    rw [not_and_or] at hn
    unfold encodeTurns
    rcases hn with hn | hn
    · exact .inl ⟨hn, by show s.source.length < _; omega⟩
    · exact .inr ⟨hn, by show 8 * s.sink.length + 7 - 0 < _; omega⟩
  · rintro ⟨hy, ha⟩
    exact encodeLoop_endless _ (s := openW (closeR s)) hy ha

/-- More turns change nothing where those given are enough. -/
theorem encodeLoop_mono {n : Nat} {s : State} (h : encodeLoop n s ≠ .stop .hang) (m : Nat) :
    encodeLoop (n + m) s = encodeLoop n s := by
  induction n generalizing s with
  | zero => exact absurd rfl h
  | succ n ih =>
    rw [encodeLoop] at h
    rw [Nat.succ_add, encodeLoop, encodeLoop]
    cases hr : srcRead s with
    | ended t => rfl
    | stop f => rfl
    | cont r t =>
      rw [hr] at h
      cases r with
      | eoi => rfl
      | fail => rfl
      | byte x =>
        simp only [andThen_cont] at h ⊢
        cases hp : encSymInt x t with
        | ended u => rfl
        | stop f => rfl
        | cont v u => rw [hp] at h; exact ih h

/-! The decoder's loop. -/

theorem getBitInt_ne_hang (s : State) : getBitInt s ≠ .stop .hang := by
  unfold getBitInt
  split
  · split
    · simp
    · exact andThen_ne_hang (srcRead_ne_hang s) fun r t _ => by cases r <;> simp [byteRead, takeBit]
  · simp [takeBit]

theorem getBitsFrom_ne_hang (n : Nat) (v : Byte) (s : State) : getBitsFrom n v s ≠ .stop .hang := by
  induction n generalizing v s with
  | zero => simp [getBitsFrom]
  | succ n ih =>
    refine andThen_ne_hang (getBitInt_ne_hang s) fun r t _ => ?_
    cases r with
    | none => simp
    | some b => exact ih _ t

/-- Every bit taken from a source that is not endless is one of those it can still give. -/
theorem getBitInt_finite {s t : State} {b : Bool} (h : ¬ yieldsForever s.source) (hg : getBitInt s = .cont (some b) t) :
    ¬ yieldsForever t.source ∧ bitsAhead t + 1 = bitsAhead s := by
  unfold getBitInt at hg
  split at hg
  · rename_i h0
    split at hg
    · cases hg
    · cases hr : srcRead s with
      | cont r u =>
        rw [hr] at hg
        cases r with
        | byte x =>
          obtain ⟨k, rfl, h1, h2, -⟩ := srcRead_finite h hr
          cases hg
          refine ⟨h1, ?_⟩
          simp only [bitsAhead, h2, h0]
          show 7 + 8 * sourceReads k + 1 = 0 + 8 * (sourceReads k + 1)
          omega
        | eoi => cases hg
        | fail => simp [byteRead] at hg
      | ended u => rw [hr] at hg; cases hg
      | stop f => rw [hr] at hg; cases hg
  · rename_i h0
    cases hg
    refine ⟨h, ?_⟩
    obtain ⟨n, hn⟩ : ∃ n, s.rcnt.toNat = n + 1 :=
      ⟨s.rcnt.toNat - 1, by have : s.rcnt.toNat ≠ 0 := fun e => h0 (rcnt_zero_iff.2 e); omega⟩
    have := s.rcnt.isLt
    simp only [bitsAhead, rcnt_pred hn, BitVec.toNat_ofNat]
    omega

theorem getBitsFrom_finite {n : Nat} {v x : Byte} {s t : State} (h : ¬ yieldsForever s.source)
    (hg : getBitsFrom n v s = .cont (some x) t) : ¬ yieldsForever t.source ∧ bitsAhead t ≤ bitsAhead s := by
  induction n generalizing v s with
  | zero => cases hg; exact ⟨h, le_refl _⟩
  | succ n ih =>
    rw [getBitsFrom] at hg
    cases hb : getBitInt s with
    | cont r u =>
      rw [hb] at hg
      cases r with
      | none => cases hg
      | some b =>
        obtain ⟨h1, h2⟩ := getBitInt_finite h hb
        obtain ⟨h3, h4⟩ := ih h1 hg
        exact ⟨h3, by omega⟩
    | ended u => rw [hb] at hg; cases hg
    | stop f => rw [hb] at hg; cases hg

theorem formSym_cont (r : Byte) (s : State) :
    ∃ v t, formSym r s = .cont (some v) t ∧ t.source = s.source ∧ t.rcnt = s.rcnt ∧ t.reoi = s.reoi := by
  unfold formSym
  simp only
  split
  · exact ⟨_, _, rfl, rfl, rfl, rfl⟩
  · exact ⟨_, _, rfl, rfl, rfl, rfl⟩

/-- REM does not hang: it is the last turn (R193, R194). -/
theorem decodeLoop_rem_ne_hang {n : Nat} {s : State} (hd : s.dst = .rem) : decodeLoop (n + 1) s ≠ .stop .hang := by
  rw [decodeLoop, decodeTurn, hd]
  refine andThen_ne_hang (getBitsFrom_ne_hang _ _ s) fun r t _ => ?_
  cases r with
  | none => simp
  | some x => obtain ⟨v, u, h, -⟩ := formSym_cont x t; simp only; rw [h]; simp

/-- On a source that is not endless one turn more than the bits it can give ends the loop, and a symbol has taken some. -/
theorem decodeLoop_finite {n : Nat} {s : State} (h : ¬ yieldsForever s.source) (hn : bitsAhead s < n) :
    decodeLoop n s ≠ .stop .hang ∧
    ∀ v t, decodeLoop n s = .cont (some v) t → ¬ yieldsForever t.source ∧ bitsAhead t ≤ bitsAhead s ∧
      (s.dst = .scan → bitsAhead t < bitsAhead s) := by
  induction n generalizing s with
  | zero => omega
  | succ n ih =>
    cases hd : s.dst with
    | done => rw [decodeLoop, decodeTurn, hd]; simp
    | rem =>
      refine ⟨decodeLoop_rem_ne_hang hd, fun v t ht => ?_⟩
      rw [decodeLoop, decodeTurn, hd] at ht
      simp only [getBitsInt] at ht
      cases hb : getBitsFrom s.k.toNat 0#8 s with
      | cont r u =>
        rw [hb] at ht
        cases r with
        | none => cases ht
        | some x =>
          obtain ⟨h1, h2⟩ := getBitsFrom_finite h hb
          obtain ⟨v', u', hf, e1, e2, -⟩ := formSym_cont x u
          simp only [andThen_cont] at ht
          rw [hf] at ht
          cases ht
          refine ⟨by rw [e1]; exact h1, ?_, fun h => by cases h⟩
          unfold bitsAhead at h2 ⊢
          rw [e1, e2]; exact h2
      | ended u => rw [hb] at ht; cases ht
      | stop f => rw [hb] at ht; cases ht
    | scan =>
      have key : ∀ r t, getBitInt s = .cont r t →
          (match r with
            | none => .cont none { t with dst := .done }
            | some true => decodeLoop n { t with q := saturatingSucc t.q }
            | some false => decodeLoop n { t with dst := .rem } : Run (Option Byte)) ≠ .stop .hang ∧
          ∀ v u, (match r with
            | none => .cont none { t with dst := .done }
            | some true => decodeLoop n { t with q := saturatingSucc t.q }
            | some false => decodeLoop n { t with dst := .rem } : Run (Option Byte)) = .cont (some v) u →
            ¬ yieldsForever u.source ∧ bitsAhead u < bitsAhead s := by
        intro r t hg
        match r with
        | none => simp
        | some true =>
          obtain ⟨h1, h2⟩ := getBitInt_finite h hg
          obtain ⟨h3, h4⟩ := ih (s := { t with q := saturatingSucc t.q }) h1 (by show bitsAhead t < n; omega)
          refine ⟨h3, fun v u hu => ?_⟩
          obtain ⟨h5, h6, -⟩ := h4 v u hu
          exact ⟨h5, by have : bitsAhead u ≤ bitsAhead t := h6; omega⟩
        | some false =>
          obtain ⟨h1, h2⟩ := getBitInt_finite h hg
          obtain ⟨h3, h4⟩ := ih (s := { t with dst := .rem }) h1 (by show bitsAhead t < n; omega)
          refine ⟨h3, fun v u hu => ?_⟩
          obtain ⟨h5, h6, -⟩ := h4 v u hu
          exact ⟨h5, by have : bitsAhead u ≤ bitsAhead t := h6; omega⟩
      rw [decodeLoop, decodeTurn, hd]
      simp only
      refine ⟨andThen_ne_hang (getBitInt_ne_hang s) fun r t hg => (key r t hg).1, fun v u hu => ?_⟩
      cases hg : getBitInt s with
      | cont r t =>
        rw [hg] at hu
        obtain ⟨h1, h2⟩ := (key r t hg).2 v u hu
        exact ⟨h1, le_of_lt h2, fun _ => h2⟩
      | ended t => rw [hg] at hu; cases hu
      | stop f => rw [hg] at hu; cases hu

/-- An endless source gives every bit asked for, and stays endless. -/
theorem getBitInt_endless {s : State} (h : yieldsForever s.source) (he : s.reoi = false) :
    ∃ b t, getBitInt s = .cont (some b) t ∧ yieldsForever t.source ∧ t.reoi = false ∧ t.dst = s.dst ∧
      t.sink = s.sink := by
  unfold getBitInt
  split
  · obtain ⟨x, k, hr, hk⟩ := srcRead_endless h
    rw [he, hr]
    exact ⟨_, _, rfl, hk, he, rfl, rfl⟩
  · exact ⟨_, _, rfl, h, he, rfl, rfl⟩

theorem getBitsFrom_endless {n : Nat} {v : Byte} {s : State} (h : yieldsForever s.source) (he : s.reoi = false) :
    ∃ x t, getBitsFrom n v s = .cont (some x) t ∧ yieldsForever t.source ∧ t.reoi = false ∧ t.sink = s.sink := by
  induction n generalizing v s with
  | zero => exact ⟨v, s, rfl, h, he, rfl⟩
  | succ n ih =>
    obtain ⟨b, t, hg, h1, h2, -, h4⟩ := getBitInt_endless h he
    obtain ⟨x, u, hu, h5, h6, h7⟩ := ih (v := shiftIn v b) h1 h2
    rw [getBitsFrom, hg]
    exact ⟨x, u, hu, h5, h6, h7.trans h4⟩

/-- On an endless source the loop hangs or gives a symbol, and the source stays endless. -/
theorem decodeLoop_endless {n : Nat} {s : State} (h : yieldsForever s.source) (he : s.reoi = false)
    (hd : s.dst ≠ .done) :
    decodeLoop n s = .stop .hang ∨
    ∃ v t, decodeLoop n s = .cont (some v) t ∧ yieldsForever t.source ∧ t.reoi = false ∧ t.dst = .scan ∧
      t.sink = s.sink := by
  induction n generalizing s with
  | zero => exact .inl rfl
  | succ n ih =>
    rw [decodeLoop, decodeTurn]
    cases hs : s.dst with
    | done => exact absurd hs hd
    | rem =>
      right
      obtain ⟨x, t, hg, h1, h2, h3⟩ := getBitsFrom_endless (n := s.k.toNat) (v := 0#8) h he
      simp only [getBitsInt, hg, andThen_cont]
      unfold formSym
      simp only
      split
      · exact ⟨_, _, rfl, h1, h2, rfl, h3⟩
      · exact ⟨_, _, rfl, h1, h2, rfl, h3⟩
    | scan =>
      obtain ⟨b, t, hg, h1, h2, h3, h4⟩ := getBitInt_endless h he
      simp only [hg, andThen_cont]
      cases b with
      | true =>
        rcases ih (s := { t with q := saturatingSucc t.q }) h1 h2 (by rw [show State.dst { t with q := saturatingSucc t.q } = t.dst from rfl, h3, hs]; simp) with
          hh | ⟨v, u, hu, e1, e2, e3, e4⟩
        · exact .inl hh
        · exact .inr ⟨v, u, hu, e1, e2, e3, e4.trans h4⟩
      | false =>
        rcases ih (s := { t with dst := .rem }) h1 h2 (by simp) with hh | ⟨v, u, hu, e1, e2, e3, e4⟩
        · exact .inl hh
        · exact .inr ⟨v, u, hu, e1, e2, e3, e4.trans h4⟩

/-- More turns change nothing where those given are enough. -/
theorem decodeLoop_mono {n : Nat} {s : State} (h : decodeLoop n s ≠ .stop .hang) (m : Nat) :
    decodeLoop (n + m) s = decodeLoop n s := by
  induction n generalizing s with
  | zero => exact absurd rfl h
  | succ n ih =>
    rw [Nat.succ_add]
    rw [decodeLoop, decodeTurn] at h
    rw [decodeLoop, decodeLoop, decodeTurn, decodeTurn]
    cases hd : s.dst with
    | done => rfl
    | rem => rfl
    | scan =>
      rw [hd] at h
      simp only at h ⊢
      cases hg : getBitInt s with
      | ended t => rfl
      | stop f => rfl
      | cont r t =>
        rw [hg] at h
        match r with
        | none => rfl
        | some true => exact ih h
        | some false => exact ih h

/-- A source of periods of 1-bits only: no number of turns ends the loop. -/
theorem decodeLoop_ones_endless {b : Byte} {more : List Byte} {rest : List SrcEvent} (n : Nat) {s : State}
    (hd : s.dst = .scan) (h0 : s.rcnt = 0#4) (he : s.reoi = false) (hs : s.source = .endless b more :: rest)
    (h1 : unpack (b :: more) = List.replicate (8 * (more.length + 1)) true) : decodeLoop n s = .stop .hang := by
  induction n using Nat.strong_induction_on generalizing s with
  | _ n ih =>
    cases n with
    | zero => rfl
    | succ n =>
      set u : State := { s with source := yields (b :: more) (.endless b more :: rest) } with hu
      have hsu : decodeLoop (n + 1) s = decodeLoop (n + 1) u := by
        have : getBitInt s = getBitInt u := by
          rw [getBitInt, getBitInt, if_pos h0, if_pos (show u.rcnt = 0#4 from h0), hu]
          simp only [he, srcRead, hs]
          rfl
        rw [decodeLoop, decodeLoop, decodeTurn, decodeTurn, this]
        simp only [hd, hu]
      have hua : u.ahead = List.replicate (8 * (more.length + 1)) true := by
        have h00 := rcnt_zero_iff.1 h0
        have hsb : sourceBytes u.source = b :: more := by
          rw [hu]; simp only [sourceBytes_yields]; simp [sourceBytes]
        rw [← h1, State.ahead, hsb, show u.rcnt.toNat = 0 from h00, show u.reoi = false from he]
        simp [bitsOf]
      have hr : u.readOk := ⟨by rw [show u.rcnt = 0#4 from h0]; decide, fun h => by rw [show u.reoi = false from he] at h; cases h⟩
      have hus : u = u.decoder u.q .scan := by rw [← show u.dst = .scan from hd]; rfl
      rw [hsu]
      by_cases hle : n + 1 ≤ 8 * (more.length + 1)
      · have := decodeLoop_ones (m := n + 1) (n := 0) (a := u.q) (s := u)
          (l := List.replicate (8 * (more.length + 1) - (n + 1)) true) hr
          (by rw [hua, List.replicate_append_replicate]; congr 1; omega)
        rw [← hus, Nat.zero_add] at this
        rw [this]; rfl
      · obtain ⟨m, hm⟩ : ∃ m, n + 1 = m + 8 * (more.length + 1) := ⟨n + 1 - 8 * (more.length + 1), by omega⟩
        have := decodeLoop_ones (m := 8 * (more.length + 1)) (n := m) (a := u.q) (s := u) (l := []) hr
          (by rw [hua, List.append_nil])
        rw [← hus, ← hm] at this
        rw [this]
        have hlen : u.ahead.length = 8 * (more.length + 1) := by rw [hua, List.length_replicate]
        obtain ⟨-, f2, f3, f4⟩ := spent_facts hr he
        have hsrc := f4 (.endless b more :: rest) (by rw [hu]; simp only [sourceBytes_yields]; simp [sourceBytes])
        rw [State.spent, hlen] at f2 f3 hsrc
        exact ih m (by omega) (s := (u.took (8 * (more.length + 1))).decoder _ .scan) rfl f2 f3 hsrc

/-- A 0-bit ahead ends SCAN, so the loop ends. -/
theorem decodeLoop_zero_ne_hang {m n : Nat} {s : State} {l : List Bool} (hr : s.readOk) (hd : s.dst = .scan)
    (ha : s.ahead = List.replicate m true ++ false :: l) (hn : m + 2 ≤ n) : decodeLoop n s ≠ .stop .hang := by
  obtain ⟨d, rfl⟩ : ∃ d, n = d + 1 + 1 + m := ⟨n - 2 - m, by omega⟩
  have hs : s = s.decoder s.q .scan := by rw [← hd]; rfl
  obtain ⟨f1, -⟩ := took_facts (m := m) hr (by rw [ha]; simp)
  rw [hs, decodeLoop_ones hr ha, decodeLoop_zero (l := l) (by rw [f1, ha]; simp)]
  exact decodeLoop_rem_ne_hang rfl

/-- The turns the decoder's loop is given are enough: where they run out no number of turns ends it. -/
theorem decSymInt_hang {s : State} (hr : s.readOk) (h : decSymInt s = .stop .hang) (n : Nat) :
    decodeLoop n s = .stop .hang := by
  have hd : s.dst = .scan := by
    cases hd : s.dst with
    | scan => rfl
    | rem => exact absurd h (decodeLoop_rem_ne_hang hd)
    | done => rw [decSymInt_done hd] at h; cases h
  have hy : yieldsForever s.source := by
    by_contra hy
    exact (decodeLoop_finite hy (Nat.lt_succ_self _)).1 h
  have he : s.reoi = false := by
    cases he : s.reoi with
    | false => rfl
    | true =>
      have h0 := hr.2 he
      rw [decSymInt, decodeLoop, decodeTurn, hd] at h
      simp only at h
      rw [getBitInt, if_pos h0, if_pos he] at h
      cases h
  have hfuel := ahead_le_bitsAhead s
  -- what is listed before the endless run holds no 0-bit
  have hones : s.ahead = List.replicate s.ahead.length true := by
    by_cases hz : unaryRun s.ahead < s.ahead.length
    · exact absurd h (decodeLoop_zero_ne_hang hr hd (unaryRun_split hz) (by omega))
    · have h1 := unaryRun_le s.ahead
      have h2 := unaryRun_all hz
      rwa [show unaryRun s.ahead = s.ahead.length by omega] at h2
  obtain ⟨bytes, b, more, rest, hs⟩ := hy
  have hsb : sourceBytes s.source = bytes := by rw [hs, sourceBytes_yields]; simp [sourceBytes]
  have hlen : s.ahead.length = s.rcnt.toNat + 8 * bytes.length := by rw [State.ahead, he, hsb]; simp
  have hself : s = s.decoder s.q .scan := by rw [← hd]; rfl
  have hstep : ∀ k, decodeLoop (k + s.ahead.length) s =
      decodeLoop k (s.spent.decoder (quotientAfter s.q s.ahead.length) .scan) := by
    intro k
    have := decodeLoop_ones (m := s.ahead.length) (n := k) (a := s.q) (s := s) (l := []) hr (by rw [List.append_nil]; exact hones)
    rw [← hself] at this
    exact this
  obtain ⟨-, f2, f3, f4⟩ := spent_facts hr he
  have hsrc := f4 (.endless b more :: rest) (by rw [hsb]; exact hs)
  set u := s.spent.decoder (quotientAfter s.q s.ahead.length) .scan with hu
  -- so the period holds none either
  have hall : unpack (b :: more) = List.replicate (8 * (more.length + 1)) true := by
    by_cases hz : unaryRun (unpack (b :: more)) < (unpack (b :: more)).length
    · exfalso
      set v : State := { u with source := yields (b :: more) (.endless b more :: rest) } with hv
      have hva : v.ahead = unpack (b :: more) := by
        have hvb : sourceBytes v.source = b :: more := by
          rw [hv]; simp only [sourceBytes_yields]; simp [sourceBytes]
        have hv0 : v.rcnt = 0#4 := f2
        have hve : v.reoi = false := f3
        rw [State.ahead, hvb, hv0, hve]
        simp [bitsOf]
      have hvr : v.readOk := ⟨by rw [show v.rcnt = 0#4 from f2]; decide, fun h => by rw [show v.reoi = false from f3] at h; cases h⟩
      rw [unpack_length, List.length_cons] at hz
      have hreads : ∀ l : List Byte, sourceReads (yields l (.endless b more :: rest)) = l.length + (more.length + 1 + sourceReads rest) := by
        intro l
        induction l with
        | nil => simp [yields, sourceReads]
        | cons x l ih =>
          have : sourceReads (yields (x :: l) (.endless b more :: rest)) = sourceReads (yields l (.endless b more :: rest)) + 1 := rfl
          rw [this, ih, List.length_cons]; omega
      have hba : bitsAhead s = s.ahead.length + 8 * (more.length + 1 + sourceReads rest) := by
        rw [bitsAhead, hs, hreads, hlen]; omega
      obtain ⟨k, hk⟩ : ∃ k, bitsAhead s + 1 = (k + 1) + s.ahead.length := ⟨bitsAhead s - s.ahead.length, by omega⟩
      have huv : decodeLoop (k + 1) u = decodeLoop (k + 1) v := by
        have hg : getBitInt u = getBitInt v := by
          have h0u : u.rcnt = 0#4 := f2
          have h0v : v.rcnt = 0#4 := f2
          have heu : u.reoi = false := f3
          have hsu : u.source = .endless b more :: rest := hsrc
          rw [getBitInt, getBitInt, if_pos h0u, if_pos h0v, hv]
          simp only [heu, srcRead, hsu]
          rfl
        rw [decodeLoop, decodeLoop, decodeTurn, decodeTurn, hg]
        rfl
      rw [decSymInt, hk, hstep, huv] at h
      refine decodeLoop_zero_ne_hang (s := v) hvr rfl (unaryRun_split (l := v.ahead) ?_) ?_ h
      · rw [hva, unpack_length, List.length_cons]; exact hz
      · rw [hva]; omega
    · have h1 := unaryRun_le (unpack (b :: more))
      have h2 := unaryRun_all hz
      have h3 : (unpack (b :: more)).length = 8 * (more.length + 1) := by rw [unpack_length, List.length_cons]
      rwa [show unaryRun (unpack (b :: more)) = 8 * (more.length + 1) by omega] at h2
  by_cases hle : n ≤ s.ahead.length
  · have := decodeLoop_ones (m := n) (n := 0) (a := s.q) (s := s) (l := List.replicate (s.ahead.length - n) true) hr
      (by rw [List.replicate_append_replicate, Nat.add_sub_cancel' hle]; exact hones)
    rw [← hself, Nat.zero_add] at this
    rw [this]; rfl
  · obtain ⟨k, rfl⟩ : ∃ k, n = k + s.ahead.length := ⟨n - s.ahead.length, by omega⟩
    rw [hstep]
    exact decodeLoop_ones_endless k rfl f2 f3 hsrc hall

/-! DECODE. -/

/-- A turn of DECODE that goes on has decoded a symbol that the sink accepted. -/
theorem decodePassLoop_turn {n : Nat} {s : State} (h : decodePassLoop (n + 1) s = .stop .hang) :
    decSymInt s = .stop .hang ∨
    ∃ v t u, decSymInt s = .cont (some v) t ∧ snkWrite v t = .cont .ok u ∧ decodePassLoop n u = .stop .hang := by
  rw [decodePassLoop] at h
  cases hd : decSymInt s with
  | ended t => rw [hd] at h; cases h
  | stop f => rw [hd] at h; cases h; exact .inl rfl
  | cont r t =>
    rw [hd] at h
    cases r with
    | none => cases h
    | some v =>
      simp only [andThen_cont] at h
      cases hw : snkWrite v t with
      | ended u => rw [hw] at h; cases h
      | stop f => rw [hw] at h; cases h; exact absurd hw (snkWrite_ne_hang v t)
      | cont w u =>
        rw [hw] at h
        cases w with
        | ok => exact .inr ⟨v, t, u, rfl, hw, h⟩
        | fail => simp at h

/-- The same turn, given what it did. -/
theorem decodePassLoop_next {n : Nat} {s t u : State} {v : Byte} (hd : decSymInt s = .cont (some v) t)
    (hw : snkWrite v t = .cont .ok u) : decodePassLoop (n + 1) s = decodePassLoop n u := by
  rw [decodePassLoop, hd]
  simp only [andThen_cont, hw]

theorem decodePassLoop_stop {n : Nat} {s : State} (hd : decSymInt s = .stop .hang) :
    decodePassLoop n s = .stop .hang := by
  cases n with
  | zero => rfl
  | succ n => rw [decodePassLoop, hd]; rfl

/-- More turns change nothing where those given are enough. -/
theorem decodePassLoop_mono {n : Nat} {s : State} (h : decodePassLoop n s ≠ .stop .hang) (m : Nat) :
    decodePassLoop (n + m) s = decodePassLoop n s := by
  induction n generalizing s with
  | zero => exact absurd rfl h
  | succ n ih =>
    rw [decodePassLoop] at h
    rw [Nat.succ_add, decodePassLoop, decodePassLoop]
    cases hr : decSymInt s with
    | ended t => rfl
    | stop f => rfl
    | cont r t =>
      rw [hr] at h
      cases r with
      | none => rfl
      | some x =>
        simp only [andThen_cont] at h ⊢
        cases hp : snkWrite x t with
        | ended u => rfl
        | stop f => rfl
        | cont v u =>
          rw [hp] at h
          cases v with
          | ok => exact ih h
          | fail => rfl

/-- With both channels endless no number of turns ends DECODE's loop. -/
theorem decodePassLoop_endless (n : Nat) {s : State} (hy : yieldsForever s.source) (ha : acceptsForever s.sink)
    (he : s.reoi = false) (hd : s.dst = .scan) : decodePassLoop n s = .stop .hang := by
  induction n generalizing s with
  | zero => rfl
  | succ n ih =>
    rcases decodeLoop_endless (n := bitsAhead s + 1) hy he (by rw [hd]; simp) with h | ⟨v, t, h, h1, h2, h3, h4⟩
    · exact decodePassLoop_stop h
    · have hw := snkWrite_ok (b := v) (s := t) (by rw [h4]; exact ha 1)
      rw [decodePassLoop_next h hw]
      exact ih (s := appendOutput v { t with sink := afterWrites 1 t.sink }) h1
        (by show acceptsForever (afterWrites 1 t.sink); rw [h4]; exact acceptsForever_after ha 1) h2 h3

/-- What a turn of DECODE that goes on leaves. -/
theorem decodeTurn_facts {s t u : State} {v : Byte} (hd : decSymInt s = .cont (some v) t)
    (hw : snkWrite v t = .cont .ok u) :
    u.dst = .scan ∧ (s.readOk → u.readOk) ∧ u.source = t.source ∧ bitsAhead u = bitsAhead t ∧ t.sink = s.sink := by
  have he := decSymInt_effect s
  rw [hd] at he
  obtain ⟨⟨hst, -, hsc⟩, -⟩ := he
  have hdu := hsc rfl
  obtain ⟨k, o, rfl⟩ : ∃ k o, u = { t with sink := k, output := o } := by
    rcases snkWrite_cases v t with ⟨r, k, o, h, -⟩ | ⟨k, o, c, h, -⟩ | h <;> rw [h] at hw <;> cases hw
    exact ⟨k, o, rfl⟩
  refine ⟨hdu, hst.ok, rfl, rfl, ?_⟩
  obtain ⟨_, _, _, _, _, _, _, _, rfl, -⟩ := hst
  rfl

/-- On a source that is not endless DECODE's loop ends within as many turns as the source has bits. -/
theorem decodePassLoop_ne_hang {n : Nat} {s : State} (hd : s.dst = .scan) (hy : ¬ yieldsForever s.source)
    (hn : bitsAhead s < n) : decodePassLoop n s ≠ .stop .hang := by
  induction n generalizing s with
  | zero => omega
  | succ n ih =>
    intro h
    obtain ⟨h1, h2⟩ := decodeLoop_finite hy (Nat.lt_succ_self _)
    rcases decodePassLoop_turn h with h3 | ⟨v, t, u, h3, h4, h5⟩
    · exact h1 h3
    · obtain ⟨e1, -, e3, e4, -⟩ := decodeTurn_facts h3 h4
      obtain ⟨g1, -, g3⟩ := h2 v t h3
      have := g3 hd
      exact ih e1 (by rw [e3]; exact g1) (by omega) h5

/-- On a sink that does not accept forever, where as many turns as it has answers run out no number of turns ends the loop. -/
theorem decodePassLoop_hang {n : Nat} {s : State} (hr : s.readOk) (ha : ¬ acceptsForever s.sink)
    (hn : s.sink.length < n) (h : decodePassLoop n s = .stop .hang) (m : Nat) : decodePassLoop m s = .stop .hang := by
  induction n generalizing s m with
  | zero => omega
  | succ n ih =>
    rcases decodePassLoop_turn h with h1 | ⟨v, t, u, h1, h2, h3⟩
    · exact decodePassLoop_stop h1
    · cases m with
      | zero => rfl
      | succ m =>
        rw [decodePassLoop_next h1 h2]
        obtain ⟨-, e2, -, -, e5⟩ := decodeTurn_facts h1 h2
        obtain ⟨k, rfl, h6, h7⟩ := snkWrite_finite (by rw [e5]; exact ha) h2
        exact ih (e2 hr) h6 (by show k.length < n; rw [e5] at h7; omega) h3 m

/-- The turns DECODE is given are enough: where they run out no number of turns ends it. -/
theorem decodeTurns_enough {s : State}
    (h : decodePassLoop (decodeTurns s) (openR (closeW s)) = .stop .hang) (m : Nat) :
    decodePassLoop m (openR (closeW s)) = .stop .hang := by
  have hr : (openR (closeW s)).readOk := ⟨by show (0#4).toNat ≤ 8; decide, fun h => by cases h⟩
  by_cases hy : yieldsForever s.source
  · by_cases ha : acceptsForever s.sink
    · exact decodePassLoop_endless m (s := openR (closeW s)) hy ha rfl rfl
    · exact decodePassLoop_hang hr ha (by show s.sink.length < _; unfold decodeTurns; omega) h m
  · exact absurd h (decodePassLoop_ne_hang rfl hy (by show 0 + 8 * sourceReads s.source < _; unfold decodeTurns; omega))

end Sys2Proof.Machine
end

