-- ==== Sys2Proof/Laws/PerInstr.lean ====
section
/-! SUPPORT. For every command: its word matches its own row of the opcode map, by the map's match and mask columns
(spec/30_encoding.md R92). -/

namespace Sys2Proof.Laws.Row

/-- The mask column of R92. -/
def mask : Instr → Word
  | .openWr | .openRd | .getBit | .decSym | .encodePass | .decodePass => 0xFFFF#16
  | .close _ => 0xFFFC#16
  | .putBit _ | .flush _ => 0xFFFE#16
  | .putBits _ _ => 0xF000#16
  | .getBits _ => 0xF0FF#16
  | .encSym _ => 0xFF00#16

/-- The match column of R92. -/
def pattern : Instr → Word
  | .openWr => 0x1000#16
  | .openRd => 0x2000#16
  | .close _ => 0x3000#16
  | .putBit _ => 0x4000#16
  | .putBits _ _ => 0x5000#16
  | .getBit => 0x6000#16
  | .getBits _ => 0x7000#16
  | .flush _ => 0x8000#16
  | .encSym _ => 0x9000#16
  | .decSym => 0xA000#16
  | .encodePass => 0xB000#16
  | .decodePass => 0xC000#16

/-- The command's word matches its row: `w & mask = match` (R92). -/
def Statement (i : Instr) : Prop := encode i &&& mask i = pattern i

theorem openWr : Statement .openWr := rfl

theorem openRd : Statement .openRd := rfl

theorem close (sel : BitVec 2) : Statement (.close sel) := by unfold Statement; revert sel; decide

theorem putBit (b : Bool) : Statement (.putBit b) := by cases b <;> rfl

theorem putBits (n : BitVec 4) (d : Byte) : Statement (.putBits n d) := by
  show (0x5#4 ++ n ++ d) &&& (0xF#4 ++ 0#4 ++ 0#8) = 0x5#4 ++ 0#4 ++ 0#8
  rw [BitVec.and_append, BitVec.and_append, BitVec.and_zero, BitVec.and_zero]
  rfl

theorem getBit : Statement .getBit := rfl

theorem getBits (n : BitVec 4) : Statement (.getBits n) := by unfold Statement; revert n; decide

theorem flush (f : Bool) : Statement (.flush f) := by cases f <;> rfl

theorem encSym (s : Byte) : Statement (.encSym s) := by unfold Statement; revert s; decide

theorem decSym : Statement .decSym := rfl

theorem encodePass : Statement .encodePass := rfl

theorem decodePass : Statement .decodePass := rfl

end Sys2Proof.Laws.Row
end

