-- ==== Sys2Proof/Laws/Step.lean ====
section
/-! SUPPORT. What one step can do, said once (spec/20_memory.md R61, R62, R73; spec/70_reset_and_hazards.md R250). -/

namespace Sys2Proof.Machine

/-- A run whose first step gives a next state goes on from it. -/
theorem run_next {n : Nat} {s t : State} (h : step s = .next t) : core.run (n + 1) s = core.run n t := by
  have h1 := Host.Core.run.eq_2 core s n
  have h2 : core.step s = .next t := h
  rw [h2] at h1
  exact h1

/-- Every next state of a step: nothing was to be done, or the host's next event `e` was: a command ran, an illegal word
was refused, K was written, a register was read, a write was ignored, reset was asserted, or a channel was attached or
detached. -/
theorem step_cases {s t : State} (h : step s = .next t) :
    (s.host = [] ∧ t = s) ∨ ∃ e rest, s.host = e :: rest ∧
      ((∃ i, exec i { s with host := rest } = .next t) ∨
       (∃ err, t = { s with host := rest, err := err }) ∨
       (∃ k, t = { s with host := rest, k := k }) ∨
       (∃ l, t = { s with host := rest, readLog := l }) ∨
       t = { s with host := rest } ∨
       t = resetCore { s with host := rest } ∨
       (∃ p l, (s.ropen && s.srcPresent) = false ∧ t = { s with host := rest, srcPresent := p, source := l }) ∨
       (∃ p l, (s.wopen && s.snkPresent) = false ∧ t = { s with host := rest, snkPresent := p, sink := l })) := by
  unfold step nextEvent at h
  split at h
  · rename_i hh
    exact .inl ⟨hh, (Host.Outcome.next.inj h).symm⟩
  · rename_i e rest hh
    refine .inr ⟨e, rest, hh, ?_⟩
    unfold perform at h
    split at h
    · exact .inr (.inr (.inr (.inl ⟨_, (Host.Outcome.next.inj h).symm⟩)))
    · unfold regWrite at h
      split at h
      · unfold execute at h
        split at h
        · exact .inl ⟨_, h⟩
        · exact .inr (.inl ⟨_, (Host.Outcome.next.inj h).symm⟩)
      · exact .inr (.inr (.inl ⟨_, (Host.Outcome.next.inj h).symm⟩))
      · exact .inr (.inr (.inr (.inr (.inl (Host.Outcome.next.inj h).symm))))
    · exact .inr (.inr (.inr (.inr (.inr (.inl (Host.Outcome.next.inj h).symm)))))
    all_goals
      first | unfold setSource at h | unfold setSink at h
      split at h
      · simp at h
      · rename_i hh
        simp only [Bool.not_eq_true] at hh
        injection h with h
        first
          | exact .inr (.inr (.inr (.inr (.inr (.inr (.inl ⟨_, _, hh, h.symm⟩))))))
          | exact .inr (.inr (.inr (.inr (.inr (.inr (.inr ⟨_, _, hh, h.symm⟩))))))

end Sys2Proof.Machine
end

