-- ==== Sys2Proof/Laws/Words.lean ====
section
/-! SUPPORT. The laws of command words: their three fields, and the word built of three fields (spec/30_encoding.md R90,
R91). -/

namespace Sys2Proof

theorem packWord_toNat (op n : BitVec 4) (d : Byte) :
    (packWord op n d).toNat = op.toNat * 4096 + n.toNat * 256 + d.toNat := by
  have h1 := n.isLt
  have h2 := d.isLt
  simp only [packWord, BitVec.toNat_append]
  rw [← Nat.shiftLeft_add_eq_or_of_lt h2, ← Nat.shiftLeft_add_eq_or_of_lt h1, Nat.shiftLeft_eq, Nat.shiftLeft_eq]
  omega

theorem opField_toNat (w : Word) : (opField w).toNat = w.toNat / 4096 := by
  have := w.isLt
  rw [opField, BitVec.extractLsb'_toNat, Nat.shiftRight_eq_div_pow]
  omega

theorem nField_toNat (w : Word) : (nField w).toNat = w.toNat / 256 % 16 := by
  rw [nField, BitVec.extractLsb'_toNat, Nat.shiftRight_eq_div_pow]

theorem dField_toNat (w : Word) : (dField w).toNat = w.toNat % 256 := by
  rw [dField, BitVec.extractLsb'_toNat, Nat.shiftRight_eq_div_pow]
  simp

theorem opField_packWord (op n : BitVec 4) (d : Byte) : opField (packWord op n d) = op := by
  apply BitVec.eq_of_toNat_eq
  rw [opField_toNat, packWord_toNat]
  have := n.isLt
  have := d.isLt
  omega

theorem nField_packWord (op n : BitVec 4) (d : Byte) : nField (packWord op n d) = n := by
  apply BitVec.eq_of_toNat_eq
  rw [nField_toNat, packWord_toNat]
  have := n.isLt
  have := d.isLt
  omega

theorem dField_packWord (op n : BitVec 4) (d : Byte) : dField (packWord op n d) = d := by
  apply BitVec.eq_of_toNat_eq
  rw [dField_toNat, packWord_toNat]
  have := d.isLt
  omega

/-- A word is its three fields: no bit of it is outside them (R90). -/
theorem packWord_fields (w : Word) : packWord (opField w) (nField w) (dField w) = w := by
  apply BitVec.eq_of_toNat_eq
  rw [packWord_toNat, opField_toNat, nField_toNat, dField_toNat]
  omega

theorem whenZero_ok {b : Bool} {i j : Instr} : whenZero b i = .ok j ↔ b = true ∧ j = i := by
  cases b <;> simp [whenZero, eq_comm]

end Sys2Proof
end

