-- ==== Sys2Proof/Tests/Slice0.lean ====
section
/-! SUPPORT. The model's own tests. Words are written out from spec/30_encoding.md R90 and R92; expected results are those
of spec/95_test_vectors.md, the section named at each; no test compares a free value. The last part shows, for every
statement with hypotheses, states and operands that meet them, each clause at the ends of its range. -/

namespace Sys2Proof.Tests
open Sys2Proof.Machine Sys2Proof.Wire

/-! Helpers. -/

/-- The next state, if there is one. -/
def nextOf : Host.Outcome State Fault Refusal → Option State
  | .next s => some s
  | _ => none

/-- The fault, if there is one. -/
def faultOf : Host.Outcome State Fault Refusal → Option Fault
  | .fault f => some f
  | _ => none

theorem of_isSome {o : Host.Outcome State Fault Refusal} (h : (nextOf o).isSome = true) : ∃ t, o = .next t := by
  cases o with
  | next s => exact ⟨s, rfl⟩
  | fault f => simp [nextOf] at h
  | refused r => simp [nextOf] at h

theorem of_fault {o : Host.Outcome State Fault Refusal} {f : Fault} (h : faultOf o = some f) : o = .fault f := by
  cases o with
  | next s => simp [faultOf] at h
  | fault g => simp [faultOf] at h; rw [h]
  | refused r => simp [faultOf] at h

/-- A source that yields bytes and then answers `fin`. -/
def src (bytes : List Byte) (fin : SrcReply) : List SrcEvent := yields bytes [.answer fin]

/-- K = 3 and both channels attached, each side closed; the sink accepts. -/
def idle (source : List SrcEvent) : State := { State.reset with k := 3#3, source := source, sink := List.replicate 9 .ok }

/-- The write side open with K = 3 and a given WSTATE; the sink accepts. -/
def writing (wcnt : BitVec 3) (wacc : Byte) : State := { idle [] with wopen := true, wcnt := wcnt, wacc := wacc }

/-- The read side open with K = 3 and a given RSTATE and source. -/
def reading (rcnt : BitVec 4) (rbuf : Byte) (source : List SrcEvent) : State :=
  { idle source with ropen := true, rcnt := rcnt, rbuf := rbuf }

/-- What the tests read of a next state: STATUS, WSTATE, RSTATE, DSTATE and the sink's output. -/
def view (o : Host.Outcome State Fault Refusal) : Option (Word × Word × Word × Word × List Byte) :=
  (nextOf o).map fun s => (statusWord s, wstateWord s, rstateWord s, dstateWord s, s.output)

/-! Well-formedness: an ill-formed term for each check. -/

theorem test_wellFormed_refuses_putBits : (Instr.putBits 9#4 0#8).wellFormed = false := by decide
theorem test_wellFormed_refuses_getBits : (Instr.getBits 15#4).wellFormed = false := by decide
theorem test_wellFormed_accepts : (Instr.putBits 8#4 0#8).wellFormed = true ∧ (Instr.getBits 8#4).wellFormed = true := by
  decide

/-- An ill-formed count has the effect of its word, which is illegal (R95 item 3; log 11). -/
theorem test_illFormed_raises :
    (nextOf (exec (.putBits 9#4 0#8) (writing 0#3 0#8))).map State.err = some .illegalCommand ∧
    (nextOf (exec (.getBits 9#4) (reading 0#4 0#8 []))).map State.err = some .illegalCommand := by decide

/-! Decoding: a word of every command, bit by bit (R90, R92). -/

theorem test_decode_openWr : decode 0b0001_0000_0000_0000#16 = .ok .openWr := by rfl
theorem test_decode_openRd : decode 0b0010_0000_0000_0000#16 = .ok .openRd := by rfl
theorem test_decode_close : decode 0b0011_0000_0000_0010#16 = .ok (.close 2#2) := by rfl
theorem test_decode_putBit : decode 0b0100_0000_0000_0001#16 = .ok (.putBit true) := by rfl
theorem test_decode_putBits : decode 0b0101_0010_1111_1101#16 = .ok (.putBits 2#4 0xFD#8) := by rfl
theorem test_decode_getBit : decode 0b0110_0000_0000_0000#16 = .ok .getBit := by rfl
theorem test_decode_getBits : decode 0b0111_1000_0000_0000#16 = .ok (.getBits 8#4) := by rfl
theorem test_decode_flush : decode 0b1000_0000_0000_0001#16 = .ok (.flush true) := by rfl
theorem test_decode_encSym : decode 0b1001_0000_0010_1101#16 = .ok (.encSym 45#8) := by rfl
theorem test_decode_decSym : decode 0b1010_0000_0000_0000#16 = .ok .decSym := by rfl
theorem test_decode_encodePass : decode 0b1011_0000_0000_0000#16 = .ok .encodePass := by rfl
theorem test_decode_decodePass : decode 0b1100_0000_0000_0000#16 = .ok .decodePass := by rfl

/-- The illegal words of section 2.1. -/
theorem test_decode_illegal :
    decode 0x0000#16 = .error .reservedOpcode ∧ decode 0x1001#16 = .error .mustBeZero ∧
    decode 0x3004#16 = .error .mustBeZero ∧ decode 0x4002#16 = .error .mustBeZero ∧
    decode 0x5900#16 = .error .countTooLarge ∧ decode 0x7301#16 = .error .mustBeZero ∧
    decode 0x7900#16 = .error .countTooLarge ∧ decode 0x8002#16 = .error .mustBeZero ∧
    decode 0x9100#16 = .error .mustBeZero ∧ decode 0xA001#16 = .error .mustBeZero ∧
    decode 0xD000#16 = .error .reservedOpcode ∧ decode 0xFFFF#16 = .error .reservedOpcode :=
  ⟨rfl, rfl, rfl, rfl, rfl, rfl, rfl, rfl, rfl, rfl, rfl, rfl⟩

/-- `withFetchWord` places a word that the very next step runs (log 16). -/
theorem test_withFetchWord : view (step (State.reset.withFetchWord 16 0x1000)) = some (0x0008#16, 0#16, 0#16, 0#16, []) := by
  decide

theorem test_decodeTableWord : decodeTableWord 16 0x902D = some (.encSym 45#8) ∧ decodeTableWord 16 0x5900 = none := by
  decide

/-! The register port (section 2.2). -/

theorem test_write_cfg : (nextOf (regWrite 1#3 0xFFFB#16 State.reset)).map cfgWord = some 3#16 := by decide
theorem test_write_status : nextOf (regWrite 2#3 0xFFFF#16 State.reset) = some State.reset := by decide
theorem test_illegal_word : view (execute 0xFFFF#16 (idle [])) = some (0x0003#16, 0#16, 0#16, 0#16, []) := by decide

/-! The write side (section 2.3). -/

theorem test_openWr : view (exec .openWr (writing 3#3 5#8)) = some (0x0008#16, 0#16, 0#16, 0#16, []) := by decide
theorem test_openRd : view (exec .openRd { idle [] with reoi := true, ropen := true, dst := .done }) =
    some (0x0010#16, 0#16, 0#16, 0#16, []) := by decide
theorem test_close_w : view (exec (.close 1#2) (writing 3#3 5#8)) = some (0#16, 0#16, 0#16, 0#16, []) := by decide
theorem test_close_r : view (exec (.close 2#2) { reading 7#4 0xFA#8 [] with wopen := true, dovf := true, q := 5#8 }) =
    some (0x0028#16, 0#16, 0#16, 0x0005#16, []) := by decide
theorem test_putBit : view (exec (.putBit false) (writing 7#3 0x7D#8)) =
    some (0x0008#16, 0#16, 0#16, 0#16, [0xFA#8]) := by decide
theorem test_putBit_closed : view (exec (.putBit true) State.reset) = some (0x0001#16, 0#16, 0#16, 0#16, []) := by decide
theorem test_putBits : view (exec (.putBits 8#4 0xA5#8) (writing 3#3 3#8)) =
    some (0x0008#16, 0x0305#16, 0#16, 0#16, [0x74#8]) := by decide
theorem test_putBits_ignores : view (exec (.putBits 2#4 0xFD#8) (writing 0#3 0#8)) =
    some (0x0008#16, 0x0201#16, 0#16, 0#16, []) := by decide
theorem test_flush_one : view (exec (.flush true) (writing 3#3 5#8)) =
    some (0x0008#16, 0#16, 0#16, 0#16, [0xBF#8]) := by decide
theorem test_flush_zero : view (exec (.flush false) (writing 1#3 1#8)) =
    some (0x0008#16, 0#16, 0#16, 0#16, [0x80#8]) := by decide

/-! The read side (section 2.4). -/

theorem test_getBit : view (exec .getBit (reading 0#4 0#8 (src [0xFA#8] .eoi))) =
    some (0x0010#16, 0#16, 0x07FA#16, 0#16, []) := by decide
theorem test_getBit_eoi : view (exec .getBit (reading 0#4 0#8 (src [] .eoi))) =
    some (0x0010#16, 0#16, 0x1000#16, 0#16, []) := by decide
theorem test_getBits : (nextOf (exec (.getBits 3#4) (reading 2#4 0xFA#8 (src [0xFF#8] .eoi)))).map
    (fun s => (resultWord s, rstateWord s)) = some (0x0005#16, 0x07FF#16) := by decide
theorem test_getBits_eoi : (nextOf (exec (.getBits 8#4) (reading 7#4 0xFF#8 (src [] .eoi)))).map
    (fun s => (s.eos, rstateWord s)) = some (true, 0x10FF#16) := by decide

/-! The encoder (sections 1.1 and 1.2). -/

theorem test_encSym : view (exec (.encSym 45#8) (writing 0#3 0#8)) =
    some (0x0008#16, 0x0101#16, 0#16, 0#16, [0xFA#8]) := by decide
theorem test_encSym_zero : view (exec (.encSym 0#8) { writing 0#3 0#8 with k := 7#3 }) =
    some (0x0008#16, 0#16, 0#16, 0#16, [0x00#8]) := by decide
theorem test_encode : view (exec .encodePass (idle (src [0x2D#8] .eoi))) =
    some (0#16, 0#16, 0#16, 0#16, [0xFA#8, 0xFF#8]) := by decide
theorem test_encode_empty : view (exec .encodePass (idle (src [] .eoi))) = some (0#16, 0#16, 0#16, 0#16, []) := by decide

/-! The decoder (sections 1.1, 1.6 and 1.7). -/

theorem test_decSym : (nextOf (exec .decSym (reading 0#4 0#8 (src [0xFA#8, 0xFF#8] .eoi)))).map
    (fun s => (resultWord s, rstateWord s, dstateWord s)) = some (0x002D#16, 0x07FF#16, 0#16) := by decide
theorem test_decSym_end : view (exec .decSym (reading 7#4 0xFF#8 (src [] .eoi))) =
    some (0x0010#16, 0#16, 0x10FF#16, 0x0207#16, []) := by decide
theorem test_decode : view (exec .decodePass (idle (src [0xFA#8, 0xFF#8] .eoi))) =
    some (0#16, 0#16, 0#16, 0x0207#16, [0x2D#8]) := by decide
theorem test_decode_phantom : view (exec .decodePass (idle (src [0xFA#8, 0x80#8] .eoi))) =
    some (0#16, 0#16, 0#16, 0x0200#16, [0x2D#8, 0x00#8]) := by decide

/-! What meets the hypotheses of each statement. -/

theorem test_inv_writing : (writing 7#3 0x7F#8).Inv := by constructor <;> decide
theorem test_inv_writing_empty : (writing 0#3 0#8).Inv := by constructor <;> decide
theorem test_inv_reading : (reading 8#4 0xFF#8 (src [] .eoi)).Inv := by constructor <;> decide
theorem test_inv_reading_last : (reading 1#4 0x01#8 (src [] .fail)).Inv := by constructor <;> decide
theorem test_inv_reading_empty (source : List SrcEvent) : (reading 0#4 0#8 source).Inv :=
  ⟨show (0#3).toNat ≤ 7 by decide, show (0#8).toNat < 2 ^ (0#3).toNat by decide, show (0#4).toNat ≤ 8 by decide, .inl rfl,
    fun _ => ⟨rfl, rfl⟩, fun _ => ⟨rfl, rfl, rfl⟩, fun _ => rfl, show (0#3).toNat ≤ 3 by decide⟩
theorem test_inv_latched : ({ reading 0#4 0#8 [] with reoi := true } : State).Inv := by constructor <;> decide

theorem test_hyps_EncodedCommandDecodesToItself : (Instr.putBits 8#4 0xA5#8).wellFormed = true := by decide

theorem test_hyps_DecodedWordIsItsCommandsWord : decode 0x58A5#16 = .ok (.putBits 8#4 0xA5#8) := by rfl

/-- Each of R95's three ways, and a legal word next to it. -/
theorem test_hyps_IllegalWordsRaiseIllegalCommand :
    (illegalWord 0xD000#16 ∧ illegalWord 0x4002#16 ∧ illegalWord 0x5900#16 ∧ illegalWord 0x7900#16) ∧
    (¬ illegalWord 0xC000#16 ∧ ¬ illegalWord 0x4001#16 ∧ ¬ illegalWord 0x58FF#16 ∧ ¬ illegalWord 0x7800#16) ∧
    ({ State.reset with host := [.write 0#3 0xD000#16] } : State).host = .write 0#3 0xD000#16 :: [] := by
  unfold illegalWord
  exact ⟨by decide, by decide, rfl⟩

theorem test_hyps_StepRunsTheDecodedCommand :
    ({ State.reset with host := [.write 0#3 0x4001#16] } : State).host = .write 0#3 0x4001#16 :: [] ∧
    decode 0x4001#16 = .ok (.putBit true) := ⟨rfl, rfl⟩

/-- For RegReadReturnsTheRegister, RegWriteSetsOnlyK (CFG, and the first and the last other address), IdleCoreKeepsItsState
and ResetSetsEveryField. -/
theorem test_hyps_port :
    ({ State.reset with host := [.read 7#3] } : State).host = .read 7#3 :: [] ∧
    ({ State.reset with host := [.write 1#3 0xFFFF#16] } : State).host = .write 1#3 0xFFFF#16 :: [] ∧
    (2 ≤ (2#3).toNat ∧ ({ State.reset with host := [.write 2#3 0#16] } : State).host = .write 2#3 0#16 :: []) ∧
    (2 ≤ (7#3).toNat ∧ ({ State.reset with host := [.write 7#3 0#16] } : State).host = .write 7#3 0#16 :: []) ∧
    State.reset.host = [] ∧
    ({ State.reset with host := [.reset] } : State).host = .reset :: [] := by decide

theorem test_hyps_LiveChannelCannotBeDetached :
    let s : State := { reading 0#4 0#8 [] with wopen := true, host := [.detachSource] }
    let t : State := { idle [] with host := [.attachSink [.ok]] }
    (s.ropen = true ∧ s.srcPresent = true ∧ s.host = .detachSource :: []) ∧
    (s.wopen = true ∧ s.snkPresent = true ∧ ({ s with host := [.detachSink] } : State).host = .detachSink :: []) ∧
    (t.wopen = false ∧ t.host = .attachSink [.ok] :: []) ∧
    (t.ropen = false ∧ ({ t with host := [.attachSource []] } : State).host = .attachSource [] :: []) ∧
    ({ t with host := [.detachSource] } : State).host = .detachSource :: [] ∧
    ({ t with host := [.detachSink] } : State).host = .detachSink :: [] := by decide

/-- The read side of ResetAbandonsTheTransfer and SilentChannelLeavesTheCommandStuck: GET_BIT with nothing ahead; GET_BITS 8 with
the seven bits of a listed byte's rest ahead; DEC_SYM after 1-bits, and with K - 1 bits of a remainder ahead. -/
theorem test_asks_for_more :
    (∀ source, sourceBytes source = [] → asksForMore .getBit (reading 0#4 0#8 source)) ∧
    asksForMore (.getBits 8#4) (reading 7#4 0x7F#8 []) ∧
    asksForMore .decSym (reading 1#4 1#8 []) ∧ asksForMore .decSym (reading 3#4 0#8 [.reset true]) := by
  refine ⟨fun source h => ⟨rfl, ?_⟩, ⟨rfl, by decide, by decide⟩, ⟨rfl, by decide, rfl, 1, .inl rfl⟩,
    rfl, by decide, rfl, 0, .inr ⟨[false, false], rfl, by decide⟩⟩
  show bitsOf 0 0#8 ++ unpack (sourceBytes source) = []
  rw [h]; rfl

/-- The write side of the same: each of the four commands at its only byte; for ENC_SYM 255 under K = 3 the fourth of four. -/
theorem test_bytes_due :
    let s := writing 7#3 0x7F#8
    let u := writing 0#3 0#8
    (writtenBits (.putBit true) s = some [true] ∧ 0 < (s.bytesDue [true]).length) ∧
    ((Instr.putBits 8#4 0xA5#8).wellFormed = true ∧ writtenBits (.putBits 8#4 0xA5#8) s = some (bitsOf 8 0xA5#8) ∧
      0 < (s.bytesDue (bitsOf 8 0xA5#8)).length) ∧
    (writtenBits (.flush false) s = some [false] ∧ 0 < (s.bytesDue [false]).length) ∧
    (u.k ≠ 0#3 ∧ writtenBits (.encSym 255#8) u = some (codeWord 3 255#8) ∧ 3 < (u.bytesDue (codeWord 3 255#8)).length) :=
  ⟨⟨rfl, by decide⟩, ⟨rfl, rfl, by decide⟩, ⟨rfl, by decide⟩, by decide, rfl, by decide⟩

theorem test_hyps_ResetAbandonsTheTransfer :
    let s : State := { writing 7#3 0x7F#8 with sink := [.reset true] }
    let u : State := { writing 0#3 0#8 with sink := [.ok, .ok, .ok, .reset false] }
    let r := reading 0#4 0#8 [.reset true, .answer (.byte 9#8)]
    (s.Inv ∧ s.wopen = true ∧ s.sink = List.replicate 0 SnkEvent.ok ++ .reset true :: []) ∧
    (u.Inv ∧ u.wopen = true ∧ u.sink = List.replicate 3 SnkEvent.ok ++ .reset false :: []) ∧
    (r.Inv ∧ asksForMore .getBit r ∧ r.reoi = false ∧
      r.source = yields (sourceBytes r.source) (.reset true :: [.answer (.byte 9#8)])) ∧
    ((reading 3#4 0#8 [.reset true]).Inv ∧
      (reading 3#4 0#8 [.reset true]).source = yields [] (.reset true :: [])) :=
  ⟨⟨by constructor <;> decide, rfl, rfl⟩, ⟨by constructor <;> decide, rfl, rfl⟩,
    ⟨test_inv_reading_empty _, test_asks_for_more.1 _ rfl, rfl, rfl⟩, by constructor <;> decide, rfl⟩

theorem test_hyps_StepKeepsTheInvariants :
    ∃ t, (writing 7#3 0x7F#8).Inv ∧ step ((writing 7#3 0x7F#8).withFetchWord 16 0x4001) = .next t ∧
      ((writing 7#3 0x7F#8).withFetchWord 16 0x4001).Inv := by
  obtain ⟨t, h⟩ := of_isSome (o := step ((writing 7#3 0x7F#8).withFetchWord 16 0x4001)) (by decide)
  exact ⟨t, test_inv_writing, h, by constructor <;> decide⟩

theorem test_hyps_StepKeepsOpenSidesAttached :
    ∃ t, ((writing 7#3 0x7F#8).withFetchWord 16 0x4001).attached ∧
      step ((writing 7#3 0x7F#8).withFetchWord 16 0x4001) = .next t := by
  obtain ⟨t, h⟩ := of_isSome (o := step ((writing 7#3 0x7F#8).withFetchWord 16 0x4001)) (by decide)
  exact ⟨t, ⟨fun _ => rfl, fun _ => rfl⟩, h⟩

/-- A command and a step that send a byte, and a command that a reset cuts off. -/
theorem test_hyps_OutputIsNeverRolledBack :
    (∃ t, exec (.putBit true) (writing 7#3 0x7F#8) = .next t) ∧
    (∃ t, exec (.encSym 255#8) { writing 7#3 0x7F#8 with sink := [.ok, .reset true] } = .next t) :=
  ⟨of_isSome (by decide), of_isSome (by decide)⟩

theorem test_hyps_CommandsWriteOnlyTheirColumns :
    (reading 1#4 1#8 []).noReset ∧ (∃ t, exec .getBit (reading 1#4 1#8 []) = .next t ∧ t.err ≠ .ioFailure) ∧
    mayWrite .getBit .wopen = false ∧ (∃ t, exec (.putBit true) (writing 0#3 0#8) = .next t) ∧
    mayWrite (.putBit true) .result = false :=
  ⟨⟨fun _ h => (by cases h), fun _ h => (by simp [reading, idle] at h)⟩, ⟨_, rfl, by decide⟩, rfl,
    of_isSome (by decide), rfl⟩

theorem test_hyps_CommandsKeepTheEnvironment :
    (∃ t, exec .openRd (idle []) = .next t) ∧ readsSource .openRd = false ∧ writesSink .openRd = false :=
  ⟨of_isSome (by decide), rfl, rfl⟩

theorem test_hyps_ErrorsLeaveResultAlone :
    State.reset.noReset ∧ ∃ t, exec (.putBit true) State.reset = .next t ∧ t.err ≠ .noError :=
  ⟨⟨fun _ h => (by cases h), fun _ h => (by cases h)⟩, _, rfl, by decide⟩

/-- A get with everything latched; the same state serves DST, REOI and DOVF. -/
theorem test_hyps_LatchesAreClearedOnlyByTheirCommands :
    let s : State := { reading 0#4 0#8 [] with reoi := true, dst := .done, dovf := true, sink := [] }
    s.Inv ∧ s.noReset ∧ (∃ t, exec .getBit s = .next t) ∧ (s.dst = .done ∧ s.reoi = true ∧ s.dovf = true) :=
  ⟨by constructor <;> decide, ⟨fun _ h => (by cases h), fun _ h => (by cases h)⟩, of_isSome (by decide), rfl, rfl, rfl⟩

/-- R222's five cases. -/
theorem test_hyps_MissingHandleRaisesInvalidHandle :
    let s : State := { State.reset with srcPresent := false, snkPresent := false }
    handleMissing .openWr s = true ∧ handleMissing .openRd s = true ∧ handleMissing .encodePass s = true ∧
    handleMissing .decodePass s = true ∧ handleMissing (.putBits 8#4 0#8) s = true ∧ handleMissing (.putBit true) s = true ∧
    handleMissing (.flush true) s = true ∧ handleMissing (.encSym 0#8) s = true ∧ handleMissing .getBit s = true ∧
    handleMissing (.getBits 8#4) s = true ∧ handleMissing .decSym s = true ∧
    (Instr.putBits 8#4 0#8).wellFormed = true ∧ (Instr.getBits 8#4).wellFormed = true := by decide

theorem test_hyps_ZeroKStopsCodingCommands :
    let s : State := { State.reset with wopen := true, ropen := true }
    s.k = 0#3 ∧ (readsK (.encSym 0#8) = true ∧ handleMissing (.encSym 0#8) s = false) ∧
    (readsK .decSym = true ∧ handleMissing .decSym s = false) ∧
    (readsK .encodePass = true ∧ handleMissing .encodePass s = false) ∧
    (readsK .decodePass = true ∧ handleMissing .decodePass s = false) := by decide

/-- The passes: a source that stops answering after a byte, and a sink that stops at the second byte of ENCODE and at the
second symbol of DECODE. -/
theorem test_hyps_SilentChannelLeavesTheCommandStuck :
    let s : State := { writing 0#3 0#8 with sink := List.replicate 3 .ok }
    let r := reading 7#4 0x7F#8 []
    let e := idle (yields [0x2D#8] [])
    let f : State := { idle (src [0x2D#8] .eoi) with sink := [.ok] }
    let d := idle (yields [0xFA#8, 0x80#8] [])
    let g : State := { idle (src [0xFA#8, 0x80#8] .eoi) with sink := [.ok] }
    (s.Inv ∧ s.wopen = true ∧ s.sink = List.replicate 3 SnkEvent.ok) ∧
    (r.Inv ∧ r.reoi = false ∧ r.source = yields (sourceBytes r.source) []) ∧
    (e.srcPresent = true ∧ e.snkPresent = true ∧ e.k ≠ 0#3 ∧ e.source = yields [0x2D#8] [] ∧
      e.sinkAccepts (fullBytes (codeBits e.k.toNat [0x2D#8])).length) ∧
    (f.source = yields [0x2D#8] (.answer .eoi :: []) ∧ f.sink = List.replicate 1 SnkEvent.ok ∧
      1 < (streamBytes f.k.toNat true [0x2D#8]).length) ∧
    (d.source = yields [0xFA#8, 0x80#8] [] ∧
      d.sinkAccepts (decodeBits d.k.toNat (unpack [0xFA#8, 0x80#8])).1.length) ∧
    (g.source = yields [0xFA#8, 0x80#8] (.answer .eoi :: []) ∧ g.sink = List.replicate 1 SnkEvent.ok ∧
      1 < (decodeBits g.k.toNat (unpack [0xFA#8, 0x80#8])).1.length) :=
  ⟨⟨by constructor <;> decide, rfl, rfl⟩, ⟨by constructor <;> decide, rfl, rfl⟩,
    ⟨rfl, rfl, by decide, rfl, by unfold State.sinkAccepts; decide⟩, ⟨rfl, rfl, by decide⟩,
    ⟨rfl, by unfold State.sinkAccepts; decide⟩, rfl, rfl, by decide⟩

/-- For OpenWrOpensTheWriteSide and OpenRdOpensTheReadSide. -/
theorem test_hyps_Open :
    State.reset.snkPresent = true ∧ State.reset.srcPresent = true ∧
    ({ State.reset with snkPresent := false, srcPresent := false } : State).snkPresent = false ∧
    ({ State.reset with snkPresent := false, srcPresent := false } : State).srcPresent = false := by decide

theorem test_hyps_PutBitAppendsOneBit :
    let s := writing 7#3 0x7F#8
    (s.wopen = true ∧ (writing 6#3 0x3F#8).wcnt.toNat < 7 ∧ (writing 6#3 0x3F#8).wopen = true) ∧
    (s.wcnt.toNat = 7 ∧ s.sink = .ok :: List.replicate 8 .ok) ∧
    ({ s with sink := [.fail true] } : State).sink = .fail true :: [] := by decide

/-- N = 8 with seven bits pending, the sink accepting one byte; N = 0 with none. -/
theorem test_hyps_PutBitsAppendsTheLowBits :
    (writing 7#3 0x7F#8).Inv ∧ (writing 7#3 0x7F#8).wopen = true ∧ (8#4).toNat ≤ 8 ∧
    (writing 7#3 0x7F#8).sinkAccepts ((7 + 8) / 8) ∧
    (writing 0#3 0#8).Inv ∧ (writing 0#3 0#8).sinkAccepts ((0 + 0) / 8) :=
  ⟨test_inv_writing, rfl, by decide, rfl, test_inv_writing_empty, rfl⟩

theorem test_hyps_FlushEmitsThePaddedByte :
    (writing 0#3 0#8).Inv ∧ (writing 0#3 0#8).wopen = true ∧ (writing 0#3 0#8).wcnt = 0#3 ∧
    (writing 7#3 0x7F#8).Inv ∧ (writing 7#3 0x7F#8).wcnt ≠ 0#3 ∧
    (writing 7#3 0x7F#8).sink = .ok :: List.replicate 8 .ok :=
  ⟨test_inv_writing_empty, rfl, rfl, test_inv_writing, by decide, rfl⟩

/-- Each of the four commands, the sink failing the only byte; for ENC_SYM 255 under K = 3 the fourth of four. -/
theorem test_hyps_SinkFailureClosesTheWriteSide :
    let s : State := { writing 7#3 0x7F#8 with sink := [.fail true] }
    let u : State := { writing 0#3 0#8 with sink := [.ok, .ok, .ok, .fail false] }
    s.Inv ∧ s.wopen = true ∧ s.sink.take 1 = List.replicate 0 SnkEvent.ok ++ [.fail true] ∧
    (writtenBits (.putBit true) s = some [true] ∧ 0 < (s.bytesDue [true]).length) ∧
    ((Instr.putBits 8#4 0xA5#8).wellFormed = true ∧ writtenBits (.putBits 8#4 0xA5#8) s = some (bitsOf 8 0xA5#8) ∧
      0 < (s.bytesDue (bitsOf 8 0xA5#8)).length) ∧
    (writtenBits (.flush false) s = some [false] ∧ 0 < (s.bytesDue [false]).length) ∧
    u.Inv ∧ u.wopen = true ∧ u.k ≠ 0#3 ∧ writtenBits (.encSym 255#8) u = some (codeWord 3 255#8) ∧
    3 < (u.bytesDue (codeWord 3 255#8)).length ∧
    u.sink.take 4 = List.replicate 3 SnkEvent.ok ++ [.fail false] :=
  ⟨by constructor <;> decide, rfl, rfl, ⟨rfl, by decide⟩, ⟨rfl, rfl, by decide⟩, ⟨rfl, by decide⟩,
    by constructor <;> decide, rfl, by decide, rfl, by decide, rfl⟩

theorem test_hyps_GetBitTakesOneBit :
    ((reading 8#4 0xFF#8 (src [] .eoi)).Inv ∧ (reading 8#4 0xFF#8 (src [] .eoi)).rcnt.toNat = 7 + 1) ∧
    ((reading 1#4 1#8 (src [] .fail)).Inv ∧ (reading 1#4 1#8 (src [] .fail)).rcnt.toNat = 0 + 1) ∧
    (∀ source, (reading 0#4 0#8 source).Inv ∧ (reading 0#4 0#8 source).ropen = true ∧ (reading 0#4 0#8 source).rcnt = 0#4 ∧
      (reading 0#4 0#8 source).reoi = false ∧ (reading 0#4 0#8 source).source = source) ∧
    src [5#8] .eoi = .answer (.byte 5#8) :: src [] .eoi ∧ (reading 0#4 0#8 [.endless 5#8 []]).source = [.endless 5#8 []] ∧
    src [] .eoi = .answer .eoi :: [] ∧
    src [] .fail = .answer .fail :: [] ∧
    ({ reading 0#4 0#8 [] with reoi := true } : State).Inv :=
  ⟨⟨test_inv_reading, rfl⟩, ⟨test_inv_reading_last, rfl⟩,
    fun source => ⟨test_inv_reading_empty source, rfl, rfl, rfl, rfl⟩, rfl, rfl, rfl, rfl, test_inv_latched⟩

/-- All eight bits ahead; N = 0 at end of stream; one bit short, before EOI and before Fail. -/
theorem test_hyps_GetBitsTakesNBits :
    let a := reading 8#4 0xFF#8 (src [] .eoi)
    let b := reading 0#4 0#8 (src [] .eoi)
    let c := reading 1#4 1#8 (src [] .fail)
    (a.Inv ∧ a.ropen = true ∧ (8#4).toNat ≤ a.ahead.length) ∧ (b.Inv ∧ (0#4).toNat ≤ b.ahead.length) ∧
    (b.ahead.length < (1#4).toNat ∧ b.endsInEoi) ∧ (c.Inv ∧ c.ahead.length < (2#4).toNat ∧ c.endsInFail) :=
  ⟨⟨test_inv_reading, rfl, by decide⟩, ⟨test_inv_reading_empty _, by decide⟩, ⟨by decide, .inr ⟨[], rfl⟩⟩,
    test_inv_reading_last, by decide, rfl, [], rfl⟩

theorem test_hyps_LatchedEndOfInputReadsNothing :
    let s : State := { reading 0#4 0#8 [] with reoi := true }
    s.Inv ∧ s.ropen = true ∧ s.reoi = true ∧ s.k ≠ 0#3 ∧ 1 ≤ (1#4).toNat ∧ (8#4).toNat ≤ 8 :=
  ⟨test_inv_latched, rfl, rfl, by decide, by decide, by decide⟩

/-- For WritesPackTheirBitString and FlushedWritesPackThePaddedString: a mix of the three commands; with K = 0 seven bits by PUT_BIT alone. -/
theorem test_hyps_WritesPackTheirBitString :
    (idle []).snkPresent = true ∧ (idle []).k ≠ 0#3 ∧
    (∀ i ∈ [Instr.putBit true, .putBits 8#4 0xA5#8, .encSym 45#8], i.wellFormed = true ∧
      ((∃ b, i = .putBit b) ∨ (∃ n d, i = .putBits n d) ∨ (∃ x, i = .encSym x ∧ (idle []).k ≠ 0#3))) ∧
    (idle []).sinkAccepts (18 / 8) ∧ (idle []).sinkAccepts ((18 + 7) / 8) ∧ State.reset.sinkAccepts (7 / 8) := by
  refine ⟨rfl, by decide, ?_, rfl, rfl, rfl⟩
  intro i hi
  simp only [List.mem_cons, List.not_mem_nil, or_false] at hi
  rcases hi with rfl | rfl | rfl
  · exact ⟨rfl, .inl ⟨_, rfl⟩⟩
  · exact ⟨rfl, .inr (.inl ⟨_, _, rfl⟩)⟩
  · exact ⟨rfl, .inr (.inr ⟨_, rfl, by decide⟩)⟩

/-- A source of one byte: gets number 7 and 8 are the two sides of its end. -/
theorem test_hyps_GetsUnpackTheSource :
    (idle (src [0xB4#8] .eoi)).srcPresent = true ∧
    (idle (src [0xB4#8] .eoi)).source = yields [0xB4#8] (.answer .eoi :: []) ∧
    7 < 8 * [0xB4#8].length ∧ 8 * [0xB4#8].length ≤ 8 := ⟨rfl, rfl, by decide, by decide⟩

/-- Section 1.1's symbol 45 under K = 3, nine bits, with FLUSH 1; gets number 15 and 16 are the two sides of the end. -/
theorem test_hyps_ReadSideSeesWhatTheWriteSidePacked :
    (idle []).snkPresent = true ∧ (idle []).output = [] ∧ (idle []).sinkAccepts ((9 + 7) / 8) ∧
    (Instr.encSym 45#8).wellFormed = true ∧ (idle []).k ≠ 0#3 ∧
    (nextOf (execAll (.openWr :: ([.encSym 45#8] ++ [.flush true])) (idle []))).map State.output = some [0xFA#8, 0xFF#8] ∧
    (idle (src [0xFA#8, 0xFF#8] .eoi)).srcPresent = true ∧
    (idle (src [0xFA#8, 0xFF#8] .eoi)).source = yields [0xFA#8, 0xFF#8] (.answer .eoi :: []) ∧
    15 < (padded true (codeWord 3 45#8)).length ∧ (padded true (codeWord 3 45#8)).length ≤ 16 :=
  ⟨rfl, rfl, rfl, rfl, by decide, by decide, rfl, rfl, by decide, by decide⟩

/-- For QuotientAndRemainderGiveTheSymbol and CodeWordLength: the ends of k's range. -/
theorem test_hyps_k_range : 1 ≤ 1 ∧ 1 ≤ 7 ∧ 7 ≤ 7 := by decide

theorem test_hyps_EncSymWritesTheCodeWord :
    (writing 7#3 0x7F#8).Inv ∧ (writing 7#3 0x7F#8).wopen = true ∧ (writing 7#3 0x7F#8).k ≠ 0#3 ∧
    (writing 7#3 0x7F#8).sinkAccepts ((7 + 255 / 2 ^ 3 + 1 + 3) / 8) := ⟨test_inv_writing, rfl, by decide, rfl⟩

theorem test_hyps_EncodeWritesTheWireFormat :
    let s := idle (src [0x2D#8] .eoi)
    s.srcPresent = true ∧ s.snkPresent = true ∧ s.k ≠ 0#3 ∧ s.source = yields [0x2D#8] (.answer .eoi :: []) ∧
    s.sinkAccepts (streamBytes s.k.toNat true [0x2D#8]).length ∧
    (idle (src [] .eoi)).source = yields [] (.answer .eoi :: []) ∧
    (idle (src [] .eoi)).sinkAccepts (streamBytes 3 true []).length :=
  ⟨rfl, rfl, by decide, rfl, by unfold State.sinkAccepts; decide, rfl, rfl⟩

theorem test_hyps_SourceFailureAbortsEncode :
    let s := idle (src [0x2D#8] .fail)
    s.srcPresent = true ∧ s.snkPresent = true ∧ s.k ≠ 0#3 ∧ s.source = yields [0x2D#8] (.answer .fail :: []) ∧
    s.sinkAccepts (fullBytes (codeBits s.k.toNat [0x2D#8])).length :=
  ⟨rfl, rfl, by decide, rfl, by unfold State.sinkAccepts; decide⟩

/-- The sink fails the padded byte, the last of two. -/
theorem test_hyps_SinkFailureAbortsEncode :
    let s : State := { idle (src [0x2D#8] .eoi) with sink := [.ok, .fail true] }
    s.srcPresent = true ∧ s.snkPresent = true ∧ s.k ≠ 0#3 ∧ s.source = yields [0x2D#8] (.answer .eoi :: []) ∧
    1 < (streamBytes s.k.toNat true [0x2D#8]).length ∧
    s.sink.take (1 + 1) = List.replicate 1 SnkEvent.ok ++ [.fail true] :=
  ⟨rfl, rfl, by decide, rfl, by decide, rfl⟩

/-- For DecSymReturnsTheSymbol and DecSymOutOfDomainSetsDovf: the largest quotient in the domain under K = 6 is 3; 4 is the least outside. -/
theorem test_hyps_DecSym :
    let s : State := { reading 0#4 0#8 (src [0xE0#8, 0x0F#8] .eoi) with k := 6#3 }
    let t : State := { reading 0#4 0#8 (src [0xF0#8, 0x0F#8] .eoi) with k := 6#3 }
    (s.Inv ∧ s.ropen = true ∧ s.k ≠ 0#3 ∧ s.dst = .scan ∧
      (∃ l, s.ahead = List.replicate 3 true ++ false :: l ∧ s.k.toNat ≤ l.length) ∧
      s.q.toNat + 3 ≤ 255 / 2 ^ s.k.toNat) ∧
    (t.Inv ∧ (∃ l, t.ahead = List.replicate 4 true ++ false :: l ∧ t.k.toNat ≤ l.length) ∧
      255 / 2 ^ t.k.toNat < t.q.toNat + 4) :=
  ⟨⟨by constructor <;> decide, rfl, by decide, rfl, ⟨_, rfl, by decide⟩, by decide⟩,
    by constructor <;> decide, ⟨_, rfl, by decide⟩, by decide⟩

/-- Path A with no bit left; path B with K - 1 bits left; DONE. -/
theorem test_hyps_DecSymEndOfStream :
    let a := reading 0#4 0#8 (src [] .eoi)
    let b := reading 3#4 0#8 (src [] .eoi)
    let c : State := { a with dst := .done }
    (a.Inv ∧ a.dst = .scan ∧ a.endsInEoi ∧ a.ahead = List.replicate 0 true) ∧
    (b.Inv ∧ b.dst = .scan ∧ b.endsInEoi ∧ b.ahead = List.replicate 0 true ++ false :: [false, false] ∧
      [false, false].length < b.k.toNat) ∧
    (c.Inv ∧ c.ropen = true ∧ c.k ≠ 0#3 ∧ c.dst = .done) :=
  ⟨⟨test_inv_reading_empty _, rfl, .inr ⟨[], rfl⟩, rfl⟩,
    ⟨by constructor <;> decide, rfl, .inr ⟨[], rfl⟩, rfl, by decide⟩, by constructor <;> decide, rfl, by decide, rfl⟩

theorem test_hyps_SourceFailureAbortsDecSym :
    let a := reading 1#4 1#8 (src [] .fail)
    let b := reading 3#4 0#8 (src [] .fail)
    (a.Inv ∧ a.ropen = true ∧ a.k ≠ 0#3 ∧ a.dst = .scan ∧ a.endsInFail ∧ a.ahead = List.replicate 1 true) ∧
    (b.Inv ∧ b.endsInFail ∧ b.ahead = List.replicate 0 true ++ false :: [false, false] ∧
      [false, false].length < b.k.toNat) :=
  ⟨⟨test_inv_reading_last, rfl, by decide, rfl, ⟨rfl, [], rfl⟩, rfl⟩, by constructor <;> decide, ⟨rfl, [], rfl⟩, rfl,
    by decide⟩

/-- For DecodeEmitsTheDecodedStream and DecodeEmitsBoundedlyManySymbols. -/
theorem test_hyps_DecodeEmitsTheDecodedStream :
    let s := idle (src [0xFA#8, 0x80#8] .eoi)
    s.srcPresent = true ∧ s.snkPresent = true ∧ s.k ≠ 0#3 ∧
    s.source = yields [0xFA#8, 0x80#8] (.answer .eoi :: []) ∧
    s.sinkAccepts (decodeBits s.k.toNat (unpack [0xFA#8, 0x80#8])).1.length ∧
    s.sinkAccepts (8 * [0xFA#8, 0x80#8].length / (s.k.toNat + 1)) :=
  ⟨rfl, rfl, by decide, rfl, by unfold State.sinkAccepts; decide, by unfold State.sinkAccepts; decide⟩

/-- By ENCODE and by single commands. -/
theorem test_hyps_DecodeInvertsEncode :
    let s := idle (src [0x2D#8] .eoi)
    let u := idle (src [0xFA#8, 0xFF#8] .eoi)
    s.snkPresent = true ∧ s.k ≠ 0#3 ∧ s.output = [] ∧ s.sinkAccepts (streamBytes s.k.toNat true [0x2D#8]).length ∧
    (nextOf (exec .encodePass s)).map State.output = some [0xFA#8, 0xFF#8] ∧
    (nextOf (execAll (.openWr :: ([0x2D#8].map .encSym ++ [.flush true])) s)).map State.output = some [0xFA#8, 0xFF#8] ∧
    u.srcPresent = true ∧ u.snkPresent = true ∧ u.k = s.k ∧ u.source = yields [0xFA#8, 0xFF#8] (.answer .eoi :: []) ∧
    u.sinkAccepts [0x2D#8].length :=
  ⟨rfl, by decide, rfl, by unfold State.sinkAccepts; decide, by decide, by decide, rfl, rfl, rfl, rfl, rfl⟩

theorem test_hyps_ZeroFillAddsPhantomSymbols :
    let s := idle (src [0xFA#8, 0x80#8] .eoi)
    s.source = yields (streamBytes s.k.toNat false [45#8]) (.answer .eoi :: []) ∧
    s.sinkAccepts ([45#8].length + padding (codeBits s.k.toNat [45#8]).length / (s.k.toNat + 1)) :=
  ⟨by decide, by unfold State.sinkAccepts; decide⟩

/-- For SinkFailureAbortsDecode and SourceFailureAbortsDecode: the sink fails the second of two symbols; the source fails after both. -/
theorem test_hyps_FailureAbortsDecode :
    let s : State := { idle (src [0xFA#8, 0x80#8] .eoi) with sink := [.ok, .fail false] }
    let u := idle (src [0xFA#8, 0x80#8] .fail)
    (s.source = yields [0xFA#8, 0x80#8] (.answer .eoi :: []) ∧
      1 < (decodeBits s.k.toNat (unpack [0xFA#8, 0x80#8])).1.length ∧
      s.sink.take (1 + 1) = List.replicate 1 SnkEvent.ok ++ [.fail false]) ∧
    (u.source = yields [0xFA#8, 0x80#8] (.answer .fail :: []) ∧
      u.sinkAccepts (decodeBits u.k.toNat (unpack [0xFA#8, 0x80#8])).1.length) :=
  ⟨⟨rfl, by decide, rfl⟩, rfl, by unfold State.sinkAccepts; decide⟩

theorem test_hyps_AssemblerRefusesOperandsOutOfField : 8 ≤ 8 ∧ 255 < 2 ^ 8 ∧ 0 < 2 ^ 0 := by decide

theorem test_hyps_PutUnaryAndPutBitsWriteTheCodeWord :
    ∃ program, assembleProgram [.putUnary (45 / 2 ^ 3), .putBits 3 (45 % 2 ^ 3)] = some program ∧
      ({ writing 0#3 0#8 with host := program } : State).host = program ++ [] ∧
      ({ writing 0#3 0#8 with host := program } : State).sinkAccepts
        (({ writing 0#3 0#8 with host := program } : State).bytesDue (codeWord 3 45#8)).length :=
  ⟨_, rfl, by simp, rfl⟩

/-- A reset on the read after a byte; in ENCODE on the second byte of two, in DECODE on the second symbol of two. -/
theorem test_hyps_ResetAbandonsThePass :
    let e := idle (yields [0x2D#8] [.reset true, .endless 1#8 []])
    let f : State := { idle (src [0x2D#8] .eoi) with sink := [.ok, .reset true] }
    let d := idle (yields [0xFA#8, 0x80#8] [.reset false])
    let g : State := { idle (src [0xFA#8, 0x80#8] .eoi) with sink := [.ok, .reset false] }
    (e.srcPresent = true ∧ e.snkPresent = true ∧ e.k ≠ 0#3 ∧
      e.source = yields [0x2D#8] (.reset true :: [.endless 1#8 []]) ∧
      e.sinkAccepts (fullBytes (codeBits e.k.toNat [0x2D#8])).length) ∧
    (f.source = yields [0x2D#8] (.answer .eoi :: []) ∧ 1 < (streamBytes f.k.toNat true [0x2D#8]).length ∧
      f.sink = List.replicate 1 SnkEvent.ok ++ .reset true :: []) ∧
    (d.source = yields [0xFA#8, 0x80#8] (.reset false :: []) ∧
      d.sinkAccepts (decodeBits d.k.toNat (unpack [0xFA#8, 0x80#8])).1.length) ∧
    (g.source = yields [0xFA#8, 0x80#8] (.answer .eoi :: []) ∧
      1 < (decodeBits g.k.toNat (unpack [0xFA#8, 0x80#8])).1.length ∧
      g.sink = List.replicate 1 SnkEvent.ok ++ .reset false :: []) :=
  ⟨⟨rfl, rfl, by decide, rfl, by unfold State.sinkAccepts; decide⟩, ⟨rfl, by decide, rfl⟩,
    ⟨rfl, by unfold State.sinkAccepts; decide⟩, rfl, by decide, rfl⟩

/-- A source of 2D forever after one byte, to a sink that accepts forever after one Ok; with a sink that fails its second byte
ENCODE does not hang (R223). -/
theorem test_hyps_PassesHangOnAnEndlessSource :
    let s : State := { idle (yields [0#8] [.endless 0x2D#8 []]) with sink := [.ok, .okForever] }
    s.srcPresent = true ∧ s.snkPresent = true ∧ s.k ≠ 0#3 ∧ yieldsForever s.source ∧ acceptsForever s.sink ∧
    (nextOf (exec .encodePass { s with sink := [.ok, .fail false] })).map State.err = some .ioFailure := by
  refine ⟨rfl, rfl, by decide, ⟨[0#8], 0x2D#8, [], [], rfl⟩, fun n => ?_, by decide⟩
  match n with
  | 0 | 1 | _ + 2 => rfl

/-- The three commands that hang. -/
theorem test_hyps_OnlyAnEndlessSourceHangs :
    let s : State := { reading 0#4 0#8 [.endless 0xFF#8 []] with sink := [.okForever] }
    exec .decSym s = .fault .hang ∧ exec .encodePass s = .fault .hang ∧ exec .decodePass s = .fault .hang :=
  ⟨of_fault (by decide), of_fault (by decide), of_fault (by decide)⟩

/-- DEC_SYM on a period that holds a 0-bit does not hang (R192): FB FB is a quotient of 5 and the remainder 111. -/
theorem test_hyps_HangIsAnInfiniteExecution :
    let s := reading 0#4 0#8 [.endless 0xFB#8 []]
    s.k ≠ 0#3 ∧ s.Inv ∧ s.ropen = true ∧ s.srcPresent = true ∧ s.snkPresent = true ∧
    (nextOf (exec .decSym s)).map (fun t => (t.eos, t.data)) = some (false, 0x2F#8) :=
  ⟨by decide, test_inv_reading_empty _, rfl, rfl, rfl, by decide⟩

theorem test_hyps_EndlessSourceIsItsPeriods : (reading 0#4 0#8 []).Inv := test_inv_reading_empty _

end Sys2Proof.Tests
end

section
/-! What one whole command can do, said once (spec/10_state.md R36; spec/60_exceptions.md R220). The statements of
spec/10_state.md about every command are read off it. -/

namespace Sys2Proof.Machine
open Sys2Proof.Wire

/-! The end of a command and its checks. -/

/-- A command that gives a next state completed, with ERR 0, or its last operation ended it. -/
theorem Run.Ends.complete {P : Unit → State → Prop} {E : State → Prop} {r : Run Unit} {t : State} (h : r.Ends P E)
    (hc : Machine.complete r = .next t) : (∃ u, P () u ∧ t = setErr .noError u) ∨ E t := by
  cases r with
  | cont a u => exact .inl ⟨u, h, (Host.Outcome.next.inj hc).symm⟩
  | ended u => exact .inr (Host.Outcome.next.inj hc ▸ h)
  | stop f => cases hc

/-- A check that raises an error: it was passed, or the command changed nothing but ERR. -/
theorem complete_check {p : Prop} [Decidable p] {e : ErrorKind} {r : Run Unit} {s t : State}
    (h : complete (if p then r else raise e s) = .next t) : (p ∧ complete r = .next t) ∨ t = setErr e s := by
  split at h
  · exact .inl ⟨‹p›, h⟩
  · exact .inr (Host.Outcome.next.inj h).symm

/-- A coding command that gives a next state has passed its check of K (R228). -/
theorem complete_kRange {p : Prop} [Decidable p] {r : Run Unit} {t : State}
    (h : complete (if p then .stop .kRange else r) = .next t) : complete r = .next t := by
  split at h
  · cases h
  · exact h

/-- What writing RESULT changes: RESULT and the count of free values. -/
def ResultStep (s t : State) : Prop := ∃ a b n, t = { s with data := a, eos := b, draws := n } ∧ s.draws ≤ n

theorem writeResult_effect (v : Option Byte) (s : State) (E : State → Prop) :
    (writeResult v s).Ends (fun _ t => ResultStep s t) E := by
  cases v with
  | some x => exact ⟨x, false, s.draws, rfl, le_refl _⟩
  | none => exact ⟨_, true, s.draws + 1, rfl, Nat.le_succ _⟩

/-- The state CLOSE leaves, but for ERR (R132). -/
def closedBy (sel : BitVec 2) (s : State) : State :=
  let t := if selectsWrite sel then closeW s else s
  if selectsRead sel then closeR t else t

theorem exec_close (sel : BitVec 2) (s : State) : exec (.close sel) s = .next (setErr .noError (closedBy sel s)) := rfl

/-- The two gets. -/
def isGet (i : Instr) : Prop := i = .getBit ∨ ∃ n, i = .getBits n

/-! The effect of a command. -/

/-- Every way in which a command leaves a next state, whatever the channels answer. -/
inductive Effect (s : State) : Instr → State → Prop
  /-- A check raised an error (R222, R224). -/
  | refused {i : Instr} {e : ErrorKind} (he : e ≠ .noError) : Effect s i (setErr e s)
  | openedWrite : Effect s .openWr (setErr .noError (openW s))
  | openedRead : Effect s .openRd (setErr .noError (openR s))
  | closed (sel : BitVec 2) : Effect s (.close sel) (setErr .noError (closedBy sel s))
  | wrote {i : Instr} {l : List Bool} {u : State} (hi : writtenBits i s = some l) (hw : s.wopen = true)
      (h : WriteStep s u) : Effect s i (setErr .noError u)
  | writeEnded {i : Instr} {l : List Bool} {t : State} (hi : writtenBits i s = some l) (h : WriteEnd s t) : Effect s i t
  | got {i : Instr} {u v : State} (hi : isGet i) (hr : s.ropen = true) (h : ReadStep s u) (hv : ResultStep u v) :
      Effect s i (setErr .noError v)
  | getEnded {i : Instr} {t : State} (hi : isGet i) (h : ReadEnd s t) : Effect s i t
  | decoded {r : Option Byte} {u v : State} (hr : s.ropen = true) (h : decodedIn r s u) (hv : ResultStep u v) :
      Effect s .decSym (setErr .noError v)
  | decodeEnded {t : State} (h : DecodeEnd s t) : Effect s .decSym t
  | encodedAll {e : ErrorKind} {t : State} (h : EncodeOut e (openW (closeR s)) t) : Effect s .encodePass t
  | encodeReset {t : State} (h : ResetIn (openW (closeR s)) t) : Effect s .encodePass t
  | decodedAll {t : State} (h : DecodeOut .noError (openR (closeW s)) t) : Effect s .decodePass t
  | decodeFailed {t : State} (h : DecodeOut .ioFailure (openR (closeW s)) t) (hd : t.data = s.data ∧ t.eos = s.eos) :
      Effect s .decodePass t
  | decodeReset {t : State} (h : ResetIn (openR (closeW s)) t) : Effect s .decodePass t

/-- The four write-side commands: a check raised an error, or they wrote their bits. -/
theorem exec_writer {i : Instr} {l : List Bool} {s t : State} (hi : writtenBits i s = some l) (h : exec i s = .next t) :
    (∃ e, e ≠ .noError ∧ t = setErr e s) ∨ (s.wopen = true ∧ complete (putAll l s) = .next t) := by
  match i with
  | .putBit b =>
    cases hi
    obtain h | rfl := complete_check h
    · exact .inr (putBitInt_eq_putAll b s ▸ h)
    · exact .inl ⟨.invalidHandle, by decide, rfl⟩
  | .putBits n d =>
    cases hi
    obtain ⟨-, h⟩ | rfl := complete_check h
    · obtain h | rfl := complete_check h
      · exact .inr (putBitsInt_eq_putAll n.toNat d s ▸ h)
      · exact .inl ⟨.invalidHandle, by decide, rfl⟩
    · exact .inl ⟨.illegalCommand, by decide, rfl⟩
  | .flush f =>
    cases hi
    obtain h | rfl := complete_check h
    · exact .inr (flushInt_eq_putAll f s ▸ h)
    · exact .inl ⟨.invalidHandle, by decide, rfl⟩
  | .encSym x =>
    cases hi
    obtain ⟨hw, h⟩ | rfl := complete_check h
    · exact .inr ⟨hw, encSymInt_eq_putAll x s ▸ complete_kRange h⟩
    · exact .inl ⟨.invalidHandle, by decide, rfl⟩
  | .openWr | .openRd | .close _ | .getBit | .getBits _ | .decSym | .encodePass | .decodePass => cases hi

theorem writer_effect {i : Instr} {l : List Bool} {s t : State} (hi : writtenBits i s = some l)
    (h : exec i s = .next t) : Effect s i t := by
  obtain ⟨e, he, rfl⟩ | ⟨hw, h⟩ := exec_writer hi h
  · exact .refused he
  · obtain ⟨u, hu, rfl⟩ | he := (putAll_effect l s).complete h
    · exact .wrote hi hw hu
    · exact .writeEnded hi he

/-- An operation that says what goes to RESULT, and the write of RESULT after it. -/
theorem Run.Ends.withResult {α : Type} {P : α → State → Prop} {E : State → Prop} {r : Run α} (f : α → Option Byte)
    (h : r.Ends P E) :
    (r.andThen fun a u => writeResult (f a) u).Ends (fun _ v => ∃ a u, P a u ∧ ResultStep u v) E := by
  refine h.andThen (fun _ he => he) fun a u hu => ?_
  have hv := writeResult_effect (f a) u E
  cases hw : writeResult (f a) u with
  | cont _ v => exact ⟨a, u, hu, by rwa [hw] at hv⟩
  | ended v => rwa [hw] at hv
  | stop _ => trivial

/-- A get whose bits came from the read side; `f` is what it makes of them for RESULT. -/
theorem get_effect {α : Type} {P : α → State → Prop} {i : Instr} {r : Run α} {f : α → Option Byte} {s t : State}
    (hi : isGet i) (hr : s.ropen = true) (hb : r.Ends (fun a u => ReadStep s u ∧ P a u) (ReadEnd s))
    (h : complete (r.andThen fun a u => writeResult (f a) u) = .next t) : Effect s i t := by
  obtain ⟨v, ⟨a, u, ⟨hu, -⟩, hv⟩, rfl⟩ | he := (hb.withResult f).complete h
  · exact .got hi hr hu hv
  · exact .getEnded hi he

theorem decSym_effect {s t : State} (h : exec .decSym s = .next t) : Effect s .decSym t := by
  obtain ⟨hr, h⟩ | rfl := complete_check h
  · obtain ⟨v, ⟨r, u, ⟨hu, -⟩, hv⟩, rfl⟩ | he := ((decSymInt_effect s).withResult id).complete (complete_kRange h)
    · exact .decoded hr hu hv
    · exact .decodeEnded he
  · exact .refused (by decide)

theorem encodePass_effect {s t : State} (h : exec .encodePass s = .next t) : Effect s .encodePass t := by
  obtain ⟨-, h⟩ | rfl := complete_check h
  · obtain ⟨u, ⟨i, k, o, rfl, h1, h2⟩, rfl⟩ | he | he := (encodeLoop_effect _ _).complete (complete_kRange h)
    · exact .encodedAll ⟨i, k, o, rfl, h1, h2⟩
    · exact .encodedAll he
    · exact .encodeReset he
  · exact .refused (by decide)

theorem decodePass_effect {s t : State} (h : exec .decodePass s = .next t) : Effect s .decodePass t := by
  obtain ⟨-, h⟩ | rfl := complete_check h
  · obtain ⟨u, ⟨i, k, o, q, v, n, a, b, rfl, h1, h2, h3⟩, rfl⟩ | ⟨he, hd⟩ | he :=
      (decodePassLoop_effect _ _).complete (complete_kRange h)
    · exact .decodedAll ⟨i, k, o, q, v, n, a, b, rfl, h1, h2, h3⟩
    · exact .decodeFailed he hd
    · exact .decodeReset he
  · exact .refused (by decide)

/-- What a command that gives a next state can have done. -/
theorem exec_effect {i : Instr} {s t : State} (h : exec i s = .next t) : Effect s i t := by
  match i with
  | .openWr =>
    obtain ⟨-, h⟩ | rfl := complete_check h
    · exact Host.Outcome.next.inj h ▸ .openedWrite
    · exact .refused (by decide)
  | .openRd =>
    obtain ⟨-, h⟩ | rfl := complete_check h
    · exact Host.Outcome.next.inj h ▸ .openedRead
    · exact .refused (by decide)
  | .close sel => exact Host.Outcome.next.inj ((exec_close sel s).symm.trans h) ▸ .closed sel
  | .putBit _ | .putBits _ _ | .flush _ | .encSym _ => exact writer_effect rfl h
  | .getBit =>
    obtain ⟨hr, h⟩ | rfl := complete_check h
    · exact get_effect (.inl rfl) hr (getBitInt_effect s) h
    · exact .refused (by decide)
  | .getBits n =>
    obtain ⟨-, h⟩ | rfl := complete_check h
    · obtain ⟨hr, h⟩ | rfl := complete_check h
      · exact get_effect (f := id) (.inr ⟨n, rfl⟩) hr (getBitsFrom_effect _ _ s) h
      · exact .refused (by decide)
    · exact .refused (by decide)
  | .decSym => exact decSym_effect h
  | .encodePass => exact encodePass_effect h
  | .decodePass => exact decodePass_effect h

end Sys2Proof.Machine
end

section
/-! The invariants of spec/10_state.md R38: they hold at reset, and every step keeps them. -/

namespace Sys2Proof.Machine

theorem errorCode_le (e : ErrorKind) : (errorCode e).toNat ≤ 3 := by cases e <;> decide

/-- The invariants that can fail: the types of WCNT and ERR already give the rest. -/
theorem inv_iff {s : State} : s.Inv ↔ s.writeOk ∧ s.readOk ∧ (s.dst = .scan ∨ s.dst = .done) ∧
    (s.wopen = false → s.wacc = 0#8 ∧ s.wcnt = 0#3) ∧
    (s.ropen = false → s.rbuf = 0#8 ∧ s.rcnt = 0#4 ∧ s.reoi = false) := by
  constructor
  · rintro ⟨-, hw, hc, hd, hcw, hcr, hl, -⟩
    exact ⟨hw, ⟨hc, hl⟩, hd, hcw, hcr⟩
  · rintro ⟨hw, ⟨hc, hl⟩, hd, hcw, hcr⟩
    exact ⟨Nat.le_of_lt_succ s.wcnt.isLt, hw, hc, hd, hcw, hcr, hl, errorCode_le _⟩

/-- The registers that the invariants that can fail speak of. -/
def State.invFields (s : State) : Bool × Bool × Byte × BitVec 3 × Byte × BitVec 4 × Bool × DecoderState :=
  (s.wopen, s.ropen, s.wacc, s.wcnt, s.rbuf, s.rcnt, s.reoi, s.dst)

/-- The invariants look at those registers alone. -/
theorem State.Inv.congr {s t : State} (h : s.Inv) (he : t.invFields = s.invFields) : t.Inv := by
  simp only [State.invFields, Prod.mk.injEq] at he
  obtain ⟨hwo, hro, hwa, hwc, hrb, hrc, hre, hd⟩ := he
  rw [inv_iff, State.writeOk, State.readOk, hwo, hro, hwa, hwc, hrb, hrc, hre, hd]
  exact inv_iff.1 h

theorem reset_inv : State.reset.Inv := by constructor <;> decide

theorem resetCore_inv (s : State) : (resetCore s).Inv := reset_inv.congr rfl

theorem setErr_inv {e : ErrorKind} {s : State} (h : s.Inv) : (setErr e s).Inv := h.congr rfl

theorem openW_inv {s : State} (h : s.Inv) : (openW s).Inv := by
  obtain ⟨-, hr, hd, -, hcr⟩ := inv_iff.1 h
  exact inv_iff.2 ⟨by simp [State.writeOk], hr, hd, nofun, hcr⟩

theorem closeW_inv {s : State} (h : s.Inv) : (closeW s).Inv := by
  obtain ⟨-, hr, hd, -, hcr⟩ := inv_iff.1 h
  exact inv_iff.2 ⟨by simp [State.writeOk], hr, hd, fun _ => ⟨rfl, rfl⟩, hcr⟩

theorem openR_inv {s : State} (h : s.Inv) : (openR s).Inv := by
  obtain ⟨hw, -, -, hcw, -⟩ := inv_iff.1 h
  exact inv_iff.2 ⟨hw, by simp [State.readOk], .inl rfl, hcw, nofun⟩

theorem closeR_inv {s : State} (h : s.Inv) : (closeR s).Inv := by
  obtain ⟨hw, -, hd, hcw, -⟩ := inv_iff.1 h
  exact inv_iff.2 ⟨hw, by simp [State.readOk], hd, hcw, fun _ => ⟨rfl, rfl, rfl⟩⟩

theorem abortR_inv {s : State} (h : s.Inv) : (abortR s).Inv := by
  obtain ⟨hw, hr, -, hcw, hcr⟩ := inv_iff.1 (closeR_inv h)
  exact inv_iff.2 ⟨hw, hr, .inr rfl, hcw, hcr⟩

theorem ite_inv {p : Prop} [Decidable p] {s t : State} (ht : t.Inv) (hs : s.Inv) : (if p then t else s).Inv := by
  split
  · exact ht
  · exact hs

theorem closedBy_inv (sel : BitVec 2) {s : State} (h : s.Inv) : (closedBy sel s).Inv := by
  have hw : (if selectsWrite sel then closeW s else s).Inv := ite_inv (closeW_inv h) h
  exact ite_inv (closeR_inv hw) hw

/-- Writing bits keeps the invariants of an open write side. -/
theorem WriteStep.inv {s t : State} (h : WriteStep s t) (hs : s.Inv) (hw : s.wopen = true) : t.Inv := by
  obtain ⟨a, c, k, o, rfl, -, hok⟩ := h
  obtain ⟨hwo, hr, hd, -, hcr⟩ := inv_iff.1 hs
  exact inv_iff.2 ⟨hok hwo, hr, hd, fun h => absurd (hw.symm.trans h) nofun, hcr⟩

theorem WriteEnd.inv {s t : State} (h : WriteEnd s t) (hs : s.Inv) : t.Inv := by
  obtain ⟨k, o, -, rfl | ⟨rfl, -⟩⟩ := h
  · exact (closeW_inv hs).congr rfl
  · exact resetCore_inv _

/-- Decoding keeps the invariants of an open read side, if it leaves the decoder in SCAN or DONE (R38 item 3). -/
theorem DecodeStep.inv {s t : State} (h : DecodeStep s t) (hs : s.Inv) (hr : s.ropen = true)
    (hd : t.dst = .scan ∨ t.dst = .done) : t.Inv := by
  have hro := h.ok (inv_iff.1 hs).2.1
  obtain ⟨b, c, e, k, q, d, v, n, rfl, -, -, -, -⟩ := h
  obtain ⟨hw, -, -, hcw, -⟩ := inv_iff.1 hs
  exact inv_iff.2 ⟨hw, hro, hd, hcw, fun h => absurd (hr.symm.trans h) nofun⟩

theorem ReadStep.inv {s t : State} (h : ReadStep s t) (hs : s.Inv) (hr : s.ropen = true) : t.Inv := by
  have hd : t.dst = s.dst := by obtain ⟨b, c, e, k, rfl, -, -, -⟩ := h; rfl
  exact (h.decode t.q t.dst).inv hs hr (hd ▸ hs.dst_idle)

theorem DecodeEnd.inv {s t : State} (h : DecodeEnd s t) (hs : s.Inv) : t.Inv := by
  obtain ⟨k, q, v, n, -, -, -, rfl | ⟨rfl, -⟩⟩ := h
  · exact (abortR_inv hs).congr rfl
  · exact resetCore_inv _

theorem decodedIn.dst_idle {r : Option Byte} {s t : State} (h : decodedIn r s t) : t.dst = .scan ∨ t.dst = .done := by
  obtain ⟨-, hnone, hsome⟩ := h
  cases r with
  | none => exact .inr (hnone rfl)
  | some x => exact .inl (hsome rfl)

theorem ResultStep.inv {s t : State} (h : ResultStep s t) (hs : s.Inv) : t.Inv := by
  obtain ⟨a, b, n, rfl, -⟩ := h
  exact hs.congr rfl

theorem ResetIn.inv {s t : State} (h : ResetIn s t) : t.Inv := by
  obtain ⟨i, k, o, n, rfl, -, -, -, -⟩ := h
  exact resetCore_inv _

theorem EncodeOut.inv {e : ErrorKind} {s t : State} (h : EncodeOut e s t) (hs : s.Inv) : t.Inv := by
  obtain ⟨i, k, o, rfl, -, -⟩ := h
  exact (closeW_inv hs).congr rfl

theorem DecodeOut.inv {e : ErrorKind} {s t : State} (h : DecodeOut e s t) (hs : s.Inv) : t.Inv := by
  obtain ⟨i, k, o, q, v, n, a, b, rfl, -, -, -⟩ := h
  exact (abortR_inv hs).congr rfl

theorem Effect.inv {i : Instr} {s t : State} (h : Effect s i t) (hs : s.Inv) : t.Inv := by
  cases h with
  | refused _ => exact setErr_inv hs
  | openedWrite => exact setErr_inv (openW_inv hs)
  | openedRead => exact setErr_inv (openR_inv hs)
  | closed sel => exact setErr_inv (closedBy_inv sel hs)
  | wrote _ hw h => exact setErr_inv (h.inv hs hw)
  | writeEnded _ h => exact h.inv hs
  | got _ hr h hv => exact setErr_inv (hv.inv (h.inv hs hr))
  | getEnded _ h => exact h.decode.inv hs
  | decoded hr h hv => exact setErr_inv (hv.inv (h.1.inv hs hr h.dst_idle))
  | decodeEnded h => exact h.inv hs
  | encodedAll h => exact h.inv (openW_inv (closeR_inv hs))
  | encodeReset h => exact h.inv
  | decodedAll h => exact h.inv (openR_inv (closeW_inv hs))
  | decodeFailed h _ => exact h.inv (openR_inv (closeW_inv hs))
  | decodeReset h => exact h.inv

theorem exec_inv {i : Instr} {s t : State} (h : exec i s = .next t) (hs : s.Inv) : t.Inv := (exec_effect h).inv hs

/-- Settles O12, invariant by invariant on the reset values. -/
theorem invariantsHoldAtReset : Obligations.InvariantsHoldAtReset := reset_inv

/-- Settles O13, by what a step can do: a command keeps the invariants, reset establishes them, and every other event
leaves the registers they speak of alone. -/
theorem stepKeepsTheInvariants : Obligations.StepKeepsTheInvariants := by
  intro s t hs h
  obtain ⟨-, rfl⟩ | ⟨e, rest, -, ⟨i, h⟩ | ⟨err, rfl⟩ | ⟨k, rfl⟩ | ⟨l, rfl⟩ | rfl | rfl | ⟨p, l, -, rfl⟩ | ⟨p, l, -, rfl⟩⟩ :=
    step_cases h
  · exact hs
  · exact exec_inv h (hs.congr rfl)
  · exact hs.congr rfl
  · exact hs.congr rfl
  · exact hs.congr rfl
  · exact hs.congr rfl
  · exact resetCore_inv _
  · exact hs.congr rfl
  · exact hs.congr rfl

end Sys2Proof.Machine
end

section
/-! What a command leaves alone: in the core (spec/10_state.md R36, R24) and outside it (R34, R35). -/

namespace Sys2Proof.Machine

/-! With no reset in flight. -/

theorem WriteEnd.of_noReset {s t : State} (h : WriteEnd s t) (hn : s.noReset) :
    ∃ k o, t = { s with wopen := false, wacc := 0#8, wcnt := 0#3, sink := k, output := o, err := .ioFailure } := by
  obtain ⟨k, o, -, ht | ⟨-, c, hc⟩⟩ := h
  · exact ⟨k, o, ht⟩
  · exact absurd hc (hn.2 c)

theorem DecodeEnd.of_noReset {s t : State} (h : DecodeEnd s t) (hn : s.noReset) :
    ∃ k q v n, t = { s with
      ropen := false, rbuf := 0#8, rcnt := 0#4, reoi := false, dst := .done, source := k, q := q, dovf := v
      draws := n, err := .ioFailure } := by
  obtain ⟨k, q, v, n, -, -, -, ht | ⟨-, c, hc⟩⟩ := h
  · exact ⟨k, q, v, n, ht⟩
  · exact absurd hc (hn.1 c)

theorem ReadEnd.of_noReset {s t : State} (h : ReadEnd s t) (hn : s.noReset) :
    ∃ k, t = { s with
      ropen := false, rbuf := 0#8, rcnt := 0#4, reoi := false, dst := .done, source := k, err := .ioFailure } := by
  obtain ⟨k, -, -, ht | ⟨-, c, hc⟩⟩ := h
  · exact ⟨k, ht⟩
  · exact absurd hc (hn.1 c)

theorem ResetIn.not_of_noReset {s t : State} (h : ResetIn s t) (hn : s.noReset) : False := by
  obtain ⟨i, k, o, n, -, -, -, -, ⟨c, hc⟩ | ⟨c, hc⟩⟩ := h
  · exact hn.1 c hc
  · exact hn.2 c hc

/-! The rows of R36's table. -/

theorem mayWrite_writer {i : Instr} {l : List Bool} {s : State} (hi : writtenBits i s = some l) (c : Column) :
    mayWrite i c = (c == .err || c == .wopen || c == .write) := by
  match i with
  | .putBit _ | .putBits _ _ | .flush _ | .encSym _ => cases c <;> rfl
  | .openWr | .openRd | .close _ | .getBit | .getBits _ | .decSym | .encodePass | .decodePass => cases hi

theorem mayWrite_get {i : Instr} (hi : isGet i) (c : Column) :
    mayWrite i c = (c == .err || c == .ropen || c == .result || c == .read || c == .dst) := by
  obtain rfl | ⟨n, rfl⟩ := hi <;> cases c <;> rfl

theorem same_trans {c : Column} {s t u : State} (h : c.same s t) (g : c.same t u) : c.same s u := by
  cases c <;> simp_all [Column.same]

theorem setErr_same {c : Column} {e : ErrorKind} {s : State} (hc : c ≠ .err) : c.same s (setErr e s) := by
  cases c <;> simp [Column.same] at hc ⊢

theorem closedBy_same {c : Column} {sel : BitVec 2} {s : State} (hc : mayWrite (.close sel) c = false) :
    c.same s (closedBy sel s) := by
  unfold closedBy
  cases hw : selectsWrite sel <;> cases hr : selectsRead sel <;> cases c <;> simp_all [Column.same, mayWrite]

/-- A command with no reset in flight changes no register its row of the table does not list. -/
theorem Effect.same {i : Instr} {c : Column} {s t : State} (h : Effect s i t) (hn : s.noReset)
    (hc : mayWrite i c = false) : c.same s t := by
  have hce : c ≠ .err := by rintro rfl; cases i <;> cases hc
  cases h with
  | refused _ => exact setErr_same hce
  | openedWrite => cases c <;> simp [Column.same, mayWrite] at hc ⊢
  | openedRead => cases c <;> simp [Column.same, mayWrite] at hc ⊢
  | closed sel => exact same_trans (closedBy_same hc) (setErr_same hce)
  | wrote hi _ h =>
    rw [mayWrite_writer hi] at hc
    obtain ⟨a, d, k, o, rfl, -, -⟩ := h
    cases c <;> simp [Column.same] at hc ⊢
  | writeEnded hi h =>
    rw [mayWrite_writer hi] at hc
    obtain ⟨k, o, rfl⟩ := h.of_noReset hn
    cases c <;> simp [Column.same] at hc ⊢
  | got hi _ h hv =>
    rw [mayWrite_get hi] at hc
    obtain ⟨b, d, e, k, rfl, -, -, -⟩ := h
    obtain ⟨x, y, n, rfl, -⟩ := hv
    cases c <;> simp [Column.same] at hc ⊢
  | getEnded hi h =>
    rw [mayWrite_get hi] at hc
    obtain ⟨k, rfl⟩ := h.of_noReset hn
    cases c <;> simp [Column.same] at hc ⊢
  | decoded _ h hv =>
    obtain ⟨⟨b, d, e, k, q, f, v, n, rfl, -, -, -, -⟩, -, -⟩ := h
    obtain ⟨x, y, m, rfl, -⟩ := hv
    cases c <;> simp [Column.same, mayWrite] at hc ⊢
  | decodeEnded h =>
    obtain ⟨k, q, v, n, rfl⟩ := h.of_noReset hn
    cases c <;> simp [Column.same, mayWrite] at hc ⊢
  | encodedAll h =>
    obtain ⟨j, k, o, rfl, -, -⟩ := h
    cases c <;> simp [Column.same, mayWrite] at hc ⊢
  | decodedAll h =>
    obtain ⟨j, k, o, q, v, n, a, b, rfl, -, -, -⟩ := h
    cases c <;> simp [Column.same, mayWrite] at hc ⊢
  | decodeFailed h _ =>
    obtain ⟨j, k, o, q, v, n, a, b, rfl, -, -, -⟩ := h
    cases c <;> simp [Column.same, mayWrite] at hc ⊢
  | encodeReset h => exact (h.not_of_noReset hn).elim
  | decodeReset h => exact (h.not_of_noReset hn).elim

/-- A get that does not end with IOFailure keeps DST. -/
theorem Effect.get_dst {i : Instr} {s t : State} (h : Effect s i t) (hi : isGet i) (hn : s.noReset)
    (he : t.err ≠ .ioFailure) : t.dst = s.dst := by
  cases h with
  | refused _ => rfl
  | wrote hw _ h => obtain rfl | ⟨n, rfl⟩ := hi <;> cases hw
  | writeEnded hw h => obtain rfl | ⟨n, rfl⟩ := hi <;> cases hw
  | got _ _ h hv =>
    obtain ⟨b, d, e, k, rfl, -, -, -⟩ := h
    obtain ⟨x, y, n, rfl, -⟩ := hv
    rfl
  | getEnded _ h =>
    obtain ⟨k, rfl⟩ := h.of_noReset hn
    exact absurd rfl he
  | _ => obtain hi | ⟨n, hi⟩ := hi <;> cases hi

/-- Settles O16, by the effect of each command. -/
theorem commandsWriteOnlyTheirColumns : Obligations.CommandsWriteOnlyTheirColumns := by
  intro i s t hn h
  have he := exec_effect h
  exact ⟨fun c hc => he.same hn hc, fun hi => he.get_dst hi hn⟩

/-! RESULT. -/

/-- A command with no reset in flight ends without an error, or leaves RESULT alone. -/
theorem Effect.result {i : Instr} {s t : State} (h : Effect s i t) (hn : s.noReset) :
    t.err = .noError ∨ t.data = s.data ∧ t.eos = s.eos := by
  cases h with
  | refused _ => exact .inr ⟨rfl, rfl⟩
  | openedWrite | openedRead | closed _ | wrote _ _ _ | got _ _ _ _ | decoded _ _ _ => exact .inl rfl
  | writeEnded _ h =>
    obtain ⟨k, o, rfl⟩ := h.of_noReset hn
    exact .inr ⟨rfl, rfl⟩
  | getEnded _ h =>
    obtain ⟨k, rfl⟩ := h.of_noReset hn
    exact .inr ⟨rfl, rfl⟩
  | decodeEnded h =>
    obtain ⟨k, q, v, n, rfl⟩ := h.of_noReset hn
    exact .inr ⟨rfl, rfl⟩
  | encodedAll h =>
    obtain ⟨j, k, o, rfl, -, -⟩ := h
    exact .inr ⟨rfl, rfl⟩
  | decodedAll h =>
    obtain ⟨j, k, o, q, v, n, a, b, rfl, -, -, -⟩ := h
    exact .inl rfl
  | decodeFailed _ hd => exact .inr hd
  | encodeReset h => exact (h.not_of_noReset hn).elim
  | decodeReset h => exact (h.not_of_noReset hn).elim

/-- Settles O18: the effects that leave an error are those that leave RESULT alone. -/
theorem errorsLeaveResultAlone : Obligations.ErrorsLeaveResultAlone :=
  fun _ _ _ hn h he => ((exec_effect h).result hn).resolve_left he

/-! The environment. -/

/-- What every command does to the environment: it makes transactions in order, and nothing else (R34, R67, R68, R77). -/
structure EnvStep (s t : State) : Prop where
  host : t.host = s.host
  readLog : t.readLog = s.readLog
  srcPresent : t.srcPresent = s.srcPresent
  snkPresent : t.snkPresent = s.snkPresent
  left : Left s.source t.source
  sent : Sent s.sink s.output t.sink t.output
  draws : s.draws ≤ t.draws

theorem EnvStep.trans {s t u : State} (h : EnvStep s t) (g : EnvStep t u) : EnvStep s u :=
  ⟨g.host.trans h.host, g.readLog.trans h.readLog, g.srcPresent.trans h.srcPresent, g.snkPresent.trans h.snkPresent,
    h.left.trans g.left, h.sent.trans g.sent, h.draws.trans g.draws⟩

/-- The environment's fields, with the count of free values. -/
def State.env (s : State) :
    List HostEvent × List Word × Bool × Bool × List SrcEvent × List SnkEvent × List Byte × Nat :=
  (s.host, s.readLog, s.srcPresent, s.snkPresent, s.source, s.sink, s.output, s.draws)

/-- An update of registers alone makes no transaction. -/
theorem EnvStep.of_eq {s t : State} (h : t.env = s.env) : EnvStep s t := by
  simp only [State.env, Prod.mk.injEq] at h
  obtain ⟨hh, hl, hp, hq, hi, hk, ho, hn⟩ := h
  exact ⟨hh, hl, hp, hq, hi ▸ Left.refl _, hk ▸ ho ▸ Sent.refl _ _, hn.ge⟩

/-- The transactions of an operation that began after an update of registers alone. -/
theorem EnvStep.of_start {s u t : State} (h : EnvStep u t) (he : u.env = s.env) : EnvStep s t := (of_eq he).trans h

theorem closedBy_env (sel : BitVec 2) (s : State) : (closedBy sel s).env = s.env := by
  unfold closedBy
  cases selectsWrite sel <;> cases selectsRead sel <;> rfl

theorem EnvStep.setErr {e : ErrorKind} {s t : State} (h : EnvStep s t) : EnvStep s (setErr e t) := h.trans (.of_eq rfl)

theorem WriteStep.env {s t : State} (h : WriteStep s t) : EnvStep s t := by
  obtain ⟨a, c, k, o, rfl, ho, -⟩ := h
  exact ⟨rfl, rfl, rfl, rfl, Left.refl _, ho, le_refl _⟩

theorem WriteEnd.env {s t : State} (h : WriteEnd s t) : EnvStep s t := by
  obtain ⟨k, o, ho, rfl | ⟨rfl, -⟩⟩ := h <;> exact ⟨rfl, rfl, rfl, rfl, Left.refl _, ho, le_refl _⟩

theorem DecodeStep.env {s t : State} (h : DecodeStep s t) : EnvStep s t := by
  obtain ⟨b, c, e, k, q, d, v, n, rfl, hk, hn, -, -⟩ := h
  exact ⟨rfl, rfl, rfl, rfl, hk, Sent.refl _ _, hn.1⟩

theorem DecodeEnd.env {s t : State} (h : DecodeEnd s t) : EnvStep s t := by
  obtain ⟨k, q, v, n, hk, hn, -, rfl | ⟨rfl, -⟩⟩ := h <;> exact ⟨rfl, rfl, rfl, rfl, hk, Sent.refl _ _, hn.1⟩

theorem EncodeOut.env {e : ErrorKind} {s t : State} (h : EncodeOut e s t) : EnvStep s t := by
  obtain ⟨i, k, o, rfl, hi, ho⟩ := h
  exact ⟨rfl, rfl, rfl, rfl, hi, ho, le_refl _⟩

theorem DecodeOut.env {e : ErrorKind} {s t : State} (h : DecodeOut e s t) : EnvStep s t := by
  obtain ⟨i, k, o, q, v, n, a, b, rfl, hi, ho, hn⟩ := h
  exact ⟨rfl, rfl, rfl, rfl, hi, ho, hn.1⟩

theorem ResetIn.env {s t : State} (h : ResetIn s t) : EnvStep s t := by
  obtain ⟨i, k, o, n, rfl, hi, ho, hn, -⟩ := h
  exact ⟨rfl, rfl, rfl, rfl, hi, ho, hn⟩

theorem ReadStep.env {s t : State} (h : ReadStep s t) : EnvStep s t := (h.decode t.q t.dst).env

theorem ResultStep.env {s t : State} (h : ResultStep s t) : EnvStep s t := by
  obtain ⟨a, b, n, rfl, hn⟩ := h
  exact ⟨rfl, rfl, rfl, rfl, Left.refl _, Sent.refl _ _, hn⟩

theorem Effect.env {i : Instr} {s t : State} (h : Effect s i t) : EnvStep s t := by
  cases h with
  | refused _ => exact .of_eq rfl
  | openedWrite => exact .of_eq rfl
  | openedRead => exact .of_eq rfl
  | closed sel => exact (EnvStep.of_eq (closedBy_env sel s)).setErr
  | wrote _ _ h => exact h.env.setErr
  | writeEnded _ h => exact h.env
  | got _ _ h hv => exact (h.env.trans hv.env).setErr
  | getEnded _ h => exact h.decode.env
  | decoded _ h hv => exact (h.1.env.trans hv.env).setErr
  | decodeEnded h => exact h.env
  | encodedAll h => exact h.env.of_start rfl
  | encodeReset h => exact h.env.of_start rfl
  | decodedAll h => exact h.env.of_start rfl
  | decodeFailed h _ => exact h.env.of_start rfl
  | decodeReset h => exact h.env.of_start rfl

theorem writesSink_writer {i : Instr} {l : List Bool} {s : State} (hi : writtenBits i s = some l) : writesSink i = true := by
  match i with
  | .putBit _ | .putBits _ _ | .flush _ | .encSym _ => rfl
  | .openWr | .openRd | .close _ | .getBit | .getBits _ | .decSym | .encodePass | .decodePass => cases hi

theorem readsSource_get {i : Instr} (hi : isGet i) : readsSource i = true := by
  obtain rfl | ⟨n, rfl⟩ := hi <;> rfl

/-- A command that reads no source leaves its answers alone. -/
theorem Effect.source {i : Instr} {s t : State} (h : Effect s i t) (hi : readsSource i = false) : t.source = s.source := by
  cases h with
  | refused _ | openedWrite | openedRead => rfl
  | closed sel => exact congrArg (fun e => e.2.2.2.2.1) (closedBy_env sel s)
  | wrote _ _ h =>
    obtain ⟨a, c, k, o, rfl, -, -⟩ := h
    rfl
  | writeEnded _ h => obtain ⟨k, o, -, rfl | ⟨rfl, -⟩⟩ := h <;> rfl
  | got hg _ _ _ | getEnded hg _ => exact absurd (readsSource_get hg) (by simp [hi])
  | _ => cases hi

/-- A command that writes no sink makes no transfer to it. -/
theorem Effect.sink {i : Instr} {s t : State} (h : Effect s i t) (hi : writesSink i = false) :
    t.sink = s.sink ∧ t.output = s.output := by
  cases h with
  | refused _ | openedWrite | openedRead => exact ⟨rfl, rfl⟩
  | closed sel => exact Prod.mk.inj (congrArg (fun e => (e.2.2.2.2.2.1, e.2.2.2.2.2.2.1)) (closedBy_env sel s))
  | wrote hw _ _ | writeEnded hw _ => exact absurd (writesSink_writer hw) (by simp [hi])
  | got _ _ h hv =>
    obtain ⟨b, d, e, k, rfl, -, -, -⟩ := h
    obtain ⟨x, y, n, rfl, -⟩ := hv
    exact ⟨rfl, rfl⟩
  | getEnded _ h => obtain ⟨k, -, -, rfl | ⟨rfl, -⟩⟩ := h <;> exact ⟨rfl, rfl⟩
  | decoded _ h hv =>
    obtain ⟨⟨b, d, e, k, q, f, v, n, rfl, -, -, -, -⟩, -, -⟩ := h
    obtain ⟨x, y, m, rfl, -⟩ := hv
    exact ⟨rfl, rfl⟩
  | decodeEnded h => obtain ⟨k, q, v, n, -, -, -, rfl | ⟨rfl, -⟩⟩ := h <;> exact ⟨rfl, rfl⟩
  | _ => cases hi

/-- Settles O17, by the effect of each command. -/
theorem commandsKeepTheEnvironment : Obligations.CommandsKeepTheEnvironment := by
  intro i s t h
  have he := exec_effect h
  obtain ⟨hh, hl, hp, hq, hleft, ⟨m, bytes, hm, ho, -⟩, hn⟩ := he.env
  exact ⟨hh, hl, hp, hq, hleft, ⟨m, hm⟩, ⟨bytes, ho.symm⟩, hn, he.source, he.sink⟩

end Sys2Proof.Machine
end

section
/-! Register writes (spec/20_memory.md R62), reset (spec/10_state.md R39) and the EOI latch (R32). -/

namespace Sys2Proof.Machine

/-- The step of a host whose next event is `e`. -/
theorem step_event {s : State} {e : HostEvent} {rest : List HostEvent} (h : s.host = e :: rest) :
    step s = perform e { s with host := rest } := by
  rw [step, nextEvent, h]

/-- The three low bits of a word, as CFG takes them (R22). -/
theorem extract_low3 (v : Word) : v.extractLsb' 0 3 = BitVec.ofNat 3 (v.toNat % 8) := by
  apply BitVec.eq_of_toNat_eq
  simp

theorem regWrite_ignored {a : BitVec 3} (h : 2 ≤ a.toNat) (v : Word) (s : State) : regWrite a v s = .next s := by
  unfold regWrite
  split
  · omega
  · omega
  · rfl

/-- Settles O7: CFG takes the three low bits, and the port ignores addresses 2 to 7. -/
theorem regWriteSetsOnlyK : Obligations.RegWriteSetsOnlyK := by
  intro s v rest
  constructor
  · intro h
    rw [step_event h, ← extract_low3]
    rfl
  · intro a ha h
    rw [step_event h]
    exact regWrite_ignored ha v _

/-- Settles O10, field by field and register by register; the reset event is `resetCore`. -/
theorem resetSetsEveryField : Obligations.ResetSetsEveryField := by
  refine ⟨by decide, by decide, fun s rest h => ?_⟩
  rw [step_event h]
  rfl

/-! While REOI is 1 the source is not read (R32). -/

theorem getBitInt_latched {s : State} (h0 : s.rcnt = 0#4) (he : s.reoi = true) : getBitInt s = .cont none s := by
  rw [getBitInt, if_pos h0, if_pos he]

theorem getBitsInt_latched {n : Nat} {s : State} (hn : 1 ≤ n) (h0 : s.rcnt = 0#4) (he : s.reoi = true) :
    getBitsInt n s = .cont none s := by
  obtain ⟨m, rfl⟩ := Nat.exists_eq_add_of_le' hn
  rw [getBitsInt, getBitsFrom, getBitInt_latched h0 he]
  rfl

/-- DEC_SYM on a latched end of stream reaches DONE, or stays there (R195). -/
theorem decSymInt_latched {s : State} (h0 : s.rcnt = 0#4) (he : s.reoi = true) (hd : s.dst = .scan ∨ s.dst = .done) :
    decSymInt s = .cont none { s with dst := .done } := by
  obtain hd | hd := hd
  · rw [decSymInt, decodeLoop, decodeTurn, hd]
    simp only [getBitInt_latched h0 he, andThen_cont]
  · rw [decSymInt_done hd, ← hd]

/-- A command that writes RESULT with no value, at `u`: EOS is 1 (R24). -/
theorem complete_endOfStream (u : State) :
    complete (writeResult none u) = .next (setErr .noError (setEndOfStream (draw u).1 (draw u).2)) := rfl

/-- Settles O33: the gets and DEC_SYM find nothing buffered (R38 item 6) and meet the latch at their first bit. -/
theorem latchedEndOfInputReadsNothing : Obligations.LatchedEndOfInputReadsNothing := by
  intro i s hs hr he hi
  have h0 := hs.latched he
  suffices h : ∃ u : State, exec i s = complete (writeResult none u) ∧ u.source = s.source ∧ u.reoi = true ∧
      u.ropen = true by
    obtain ⟨u, hx, hk, hre, hro⟩ := h
    exact ⟨_, hx.trans (complete_endOfStream u), hk, rfl, hre, hro, rfl⟩
  obtain rfl | ⟨n, rfl, hn1, hn8⟩ | ⟨rfl, hk⟩ := hi
  · refine ⟨s, ?_, rfl, he, hr⟩
    rw [exec, execGetBit, if_pos hr, getBitInt_latched h0 he]
    rfl
  · refine ⟨s, ?_, rfl, he, hr⟩
    have hc : countLegal n = true := decide_eq_true hn8
    rw [exec, execGetBits, if_pos hc, if_pos hr, countOf, getBitsInt_latched hn1 h0 he]
    rfl
  · refine ⟨{ s with dst := .done }, ?_, rfl, he, hr⟩
    rw [exec, execDecSym, if_pos hr, if_neg hk, decSymInt_latched h0 he hs.dst_idle]
    rfl

end Sys2Proof.Machine
end

section
/-! The register port and the events of the environment (spec/20_memory.md R61, R62, R69). -/

namespace Sys2Proof.Machine

/-! Register reads: the value of a register is the sum of its fields, each with its weight (R22 to R27). -/

/-- Two fields side by side: the upper one has the weight of the lower one's width. -/
theorem toNat_fields {m n : Nat} (x : BitVec m) (y : BitVec n) : (x ++ y).toNat = x.toNat * 2 ^ n + y.toNat := by
  rw [BitVec.toNat_append, ← Nat.shiftLeft_add_eq_or_of_lt y.isLt, Nat.shiftLeft_eq]

/-- Reserved bits above the fields read 0. -/
theorem toNat_reserved {n : Nat} (h : n ≤ 16) (x : BitVec n) : (x.setWidth 16).toNat = x.toNat :=
  BitVec.toNat_setWidth_of_le h

theorem statusWord_toNat (s : State) : (statusWord s).toNat =
    (errorCode s.err).toNat + 8 * s.wopen.toNat + 16 * s.ropen.toNat + 32 * s.dovf.toNat := by
  rw [statusWord, toNat_reserved (by decide), toNat_fields, toNat_fields, toNat_fields]
  simp only [BitVec.toNat_ofBool]
  omega

theorem resultWord_toNat (s : State) : (resultWord s).toNat = s.data.toNat + 256 * s.eos.toNat := by
  rw [resultWord, toNat_reserved (by decide), toNat_fields, BitVec.toNat_ofBool]
  omega

theorem wstateWord_toNat (s : State) : (wstateWord s).toNat = s.wacc.toNat + 256 * s.wcnt.toNat := by
  rw [wstateWord, toNat_reserved (by decide), toNat_fields]
  omega

theorem rstateWord_toNat (s : State) :
    (rstateWord s).toNat = s.rbuf.toNat + 256 * s.rcnt.toNat + 4096 * s.reoi.toNat := by
  rw [rstateWord, toNat_reserved (by decide), toNat_fields, toNat_fields, BitVec.toNat_ofBool]
  omega

theorem dstateWord_toNat (s : State) : (dstateWord s).toNat = s.q.toNat + 256 * (decoderCode s.dst).toNat := by
  rw [dstateWord, toNat_reserved (by decide), toNat_fields]
  omega

/-- Address by address: CMD and the addresses above 6 read 0 (R61). -/
theorem regRead_toNat (a : BitVec 3) (s : State) : (regRead a s).toNat = registerValue a s := by
  unfold regRead registerValue
  generalize a.toNat = n
  match n with
  | 0 => rfl
  | 1 => exact toNat_reserved (by decide) s.k
  | 2 => exact statusWord_toNat s
  | 3 => exact resultWord_toNat s
  | 4 => exact wstateWord_toNat s
  | 5 => exact rstateWord_toNat s
  | 6 => exact dstateWord_toNat s
  | _ + 7 => rfl

/-- Settles O6, register by register; what the host records is `regRead`. -/
theorem regReadReturnsTheRegister : Obligations.RegReadReturnsTheRegister :=
  fun s a _ h => ⟨regRead a s, regRead_toNat a s, step_event h⟩

/-! Register writes of CMD. -/

theorem execute_decoded {w : Word} {i : Instr} (h : decode w = .ok i) (s : State) : execute w s = exec i s := by
  rw [execute, h]

/-- Settles O5: the event is a write of CMD, which executes the word. -/
theorem stepRunsTheDecodedCommand : Obligations.StepRunsTheDecodedCommand :=
  fun _ _ _ _ h hd => (step_event h).trans (execute_decoded hd _)

/-! Channels attached, detached and replaced. -/

theorem setSource_live {p : Bool} {l : List SrcEvent} {s : State} (hr : s.ropen = true) (hp : s.srcPresent = true) :
    setSource p l s = .fault .liveChannelDetached := by
  rw [setSource, hr, hp]
  rfl

theorem setSource_closed {p : Bool} {l : List SrcEvent} {s : State} (hr : s.ropen = false) :
    setSource p l s = .next { s with srcPresent := p, source := l } := by
  rw [setSource, hr]
  rfl

theorem setSink_live {p : Bool} {l : List SnkEvent} {s : State} (hw : s.wopen = true) (hp : s.snkPresent = true) :
    setSink p l s = .fault .liveChannelDetached := by
  rw [setSink, hw, hp]
  rfl

theorem setSink_closed {p : Bool} {l : List SnkEvent} {s : State} (hw : s.wopen = false) :
    setSink p l s = .next { s with snkPresent := p, sink := l } := by
  rw [setSink, hw]
  rfl

/-- Settles O9: each of the four events is `setSource` or `setSink`, with the side's channel in use or with the side
closed. -/
theorem liveChannelCannotBeDetached : Obligations.LiveChannelCannotBeDetached := by
  intro s rest src snk
  refine ⟨fun hr hp h => ?_, fun hw hp h => ?_, fun hr h => ?_, fun hw h => ?_, fun hr h => ?_, fun hw h => ?_⟩
  · obtain h | h := h <;> exact (step_event h).trans (setSource_live hr hp)
  · obtain h | h := h <;> exact (step_event h).trans (setSink_live hw hp)
  · exact (step_event h).trans (setSource_closed hr)
  · exact (step_event h).trans (setSink_closed hw)
  · exact (step_event h).trans (setSource_closed hr)
  · exact (step_event h).trans (setSink_closed hw)

end Sys2Proof.Machine
end

section
/-! What every step keeps of the channels: an open side's channel stays attached (spec/20_memory.md R69), and the output
only grows (R77). -/

namespace Sys2Proof.Machine

/-- No side is open in `t` that was closed in `s`. -/
def OpensNone (s t : State) : Prop := (t.ropen = true → s.ropen = true) ∧ (t.wopen = true → s.wopen = true)

theorem OpensNone.of_closed {s t : State} (hr : t.ropen = false) (hw : t.wopen = false) : OpensNone s t :=
  ⟨fun h => absurd (hr.symm.trans h) nofun, fun h => absurd (hw.symm.trans h) nofun⟩

theorem OpensNone.resetCore (s t : State) : OpensNone s (Machine.resetCore t) := .of_closed rfl rfl

theorem closedBy_opensNone (sel : BitVec 2) (s : State) : OpensNone s (closedBy sel s) := by
  unfold closedBy
  cases selectsWrite sel <;> cases selectsRead sel <;> simp [OpensNone]

theorem DecodeStep.opensNone {s t : State} (h : DecodeStep s t) : OpensNone s t := by
  obtain ⟨b, c, e, k, q, d, v, n, rfl, -⟩ := h
  exact ⟨id, id⟩

theorem ReadStep.opensNone {s t : State} (h : ReadStep s t) : OpensNone s t := (h.decode t.q t.dst).opensNone

theorem DecodeEnd.opensNone {s t : State} (h : DecodeEnd s t) : OpensNone s t := by
  obtain ⟨k, q, v, n, -, -, -, rfl | ⟨rfl, -⟩⟩ := h
  · exact ⟨nofun, id⟩
  · exact .resetCore _ _

theorem ResetIn.opensNone {r s t : State} (h : ResetIn s t) : OpensNone r t := by
  obtain ⟨i, k, o, n, rfl, -⟩ := h
  exact .resetCore _ _

theorem DecodeOut.opensNone {e : ErrorKind} {s t : State} (h : DecodeOut e (openR (closeW s)) t) : OpensNone s t := by
  obtain ⟨i, k, o, q, v, n, a, b, rfl, -⟩ := h
  exact .of_closed rfl rfl

/-- Of the commands only OPEN_WR and OPEN_RD leave a side open that was closed. -/
theorem Effect.opensNone {i : Instr} {s t : State} (h : Effect s i t) (hw : i ≠ .openWr) (hr : i ≠ .openRd) :
    OpensNone s t := by
  cases h with
  | refused _ => exact ⟨id, id⟩
  | openedWrite => exact absurd rfl hw
  | openedRead => exact absurd rfl hr
  | closed sel => exact closedBy_opensNone sel s
  | wrote _ _ h =>
    obtain ⟨a, c, k, o, rfl, -⟩ := h
    exact ⟨id, id⟩
  | writeEnded _ h =>
    obtain ⟨k, o, -, rfl | ⟨rfl, -⟩⟩ := h
    · exact ⟨id, nofun⟩
    · exact .resetCore _ _
  | got _ _ h hv =>
    obtain ⟨a, b, n, rfl, -⟩ := hv
    exact h.opensNone
  | getEnded _ h => exact h.decode.opensNone
  | decoded _ h hv =>
    obtain ⟨a, b, n, rfl, -⟩ := hv
    exact h.1.opensNone
  | decodeEnded h => exact h.opensNone
  | encodedAll h =>
    obtain ⟨i, k, o, rfl, -⟩ := h
    exact .of_closed rfl rfl
  | encodeReset h => exact h.opensNone
  | decodedAll h => exact h.opensNone
  | decodeFailed h _ => exact h.opensNone
  | decodeReset h => exact h.opensNone

/-- The fields that the environment's duty speaks of. -/
def State.sides (s : State) : Bool × Bool × Bool × Bool := (s.ropen, s.srcPresent, s.wopen, s.snkPresent)

theorem attached_congr {s t : State} (h : s.attached) (he : t.sides = s.sides) : t.attached := by
  simp only [State.sides, Prod.mk.injEq] at he
  obtain ⟨hr, hp, hw, hq⟩ := he
  rw [State.attached, hr, hp, hw, hq]
  exact h

theorem resetCore_attached (s : State) : (resetCore s).attached := ⟨nofun, nofun⟩

/-- A command that opens no side keeps the channels of the open ones; OPEN_WR and OPEN_RD check for the channel (R130,
R131). -/
theorem exec_attached {i : Instr} {s t : State} (h : exec i s = .next t) (hs : s.attached) : t.attached := by
  by_cases hw : i = .openWr
  · subst hw
    obtain ⟨hp, h⟩ | rfl := complete_check h
    · cases h
      exact ⟨hs.1, fun _ => hp⟩
    · exact hs
  by_cases hr : i = .openRd
  · subst hr
    obtain ⟨hp, h⟩ | rfl := complete_check h
    · cases h
      exact ⟨fun _ => hp, hs.2⟩
    · exact hs
  have he := exec_effect h
  obtain ⟨hro, hwo⟩ := he.opensNone hw hr
  exact ⟨fun h => he.env.srcPresent.trans (hs.1 (hro h)), fun h => he.env.snkPresent.trans (hs.2 (hwo h))⟩

theorem ropen_of_unbound {s : State} (hs : s.attached) (hn : (s.ropen && s.srcPresent) = false) : s.ropen = false := by
  cases hr : s.ropen with
  | false => rfl
  | true =>
    rw [hr, hs.1 hr] at hn
    cases hn

theorem wopen_of_unbound {s : State} (hs : s.attached) (hn : (s.wopen && s.snkPresent) = false) : s.wopen = false := by
  cases hw : s.wopen with
  | false => rfl
  | true =>
    rw [hw, hs.2 hw] at hn
    cases hn

/-- Settles O14, by what a step can do: a command keeps the duty, reset closes both sides, and a channel is attached or
detached only where no open side is bound to it. -/
theorem stepKeepsOpenSidesAttached : Obligations.StepKeepsOpenSidesAttached := by
  refine ⟨⟨nofun, nofun⟩, fun s t hs h => ?_⟩
  obtain ⟨-, rfl⟩ | ⟨e, rest, -, ⟨i, h⟩ | ⟨err, rfl⟩ | ⟨k, rfl⟩ | ⟨l, rfl⟩ | rfl | rfl | ⟨p, l, hn, rfl⟩ | ⟨p, l, hn, rfl⟩⟩ :=
    step_cases h
  · exact hs
  · exact exec_attached h (attached_congr hs rfl)
  · exact attached_congr hs rfl
  · exact attached_congr hs rfl
  · exact attached_congr hs rfl
  · exact attached_congr hs rfl
  · exact resetCore_attached _
  · exact ⟨fun hr => absurd ((ropen_of_unbound hs hn).symm.trans hr) nofun, hs.2⟩
  · exact ⟨hs.1, fun hw => absurd ((wopen_of_unbound hs hn).symm.trans hw) nofun⟩

/-! Output. -/

theorem exec_sent {i : Instr} {s t : State} (h : exec i s = .next t) : Sent s.sink s.output t.sink t.output :=
  (exec_effect h).env.sent

theorem Sent.output_grows {k k' : List SnkEvent} {o o' : List Byte} (h : Sent k o k' o') : o <+: o' := by
  obtain ⟨m, bytes, -, rfl, -⟩ := h
  exact ⟨bytes, rfl⟩

/-- Settles O15: a command's output is that of its transactions, and no other event of a step touches the output. -/
theorem outputIsNeverRolledBack : Obligations.OutputIsNeverRolledBack := by
  refine ⟨fun s t h => ?_, fun i s t h => exec_sent h⟩
  obtain ⟨-, rfl⟩ | ⟨e, rest, -, ⟨i, h⟩ | ⟨err, rfl⟩ | ⟨k, rfl⟩ | ⟨l, rfl⟩ | rfl | rfl | ⟨p, l, -, rfl⟩ | ⟨p, l, -, rfl⟩⟩ :=
    step_cases h
  · exact ⟨[], List.append_nil _⟩
  · exact (exec_sent h).output_grows
  all_goals exact ⟨[], List.append_nil _⟩

end Sys2Proof.Machine
end

section
/-! An endless source is its periods (spec/60_exceptions.md R234; log 3): a command runs alike on a source whose next
period is begun only when it is reached, and on one where that period is written out. -/

namespace Sys2Proof.Machine

section
variable (b : Byte) (more : List Byte) (rest : List SrcEvent)

/-- `t` on a source that yields `left` and then the periods. -/
def State.onPeriods (left : List Byte) (t : State) : State :=
  { t with source := yields left (.endless b more :: rest) }

/-- `t` on the same source with one period written out in front of the periods to come. -/
def State.onWritten (left : List Byte) (t : State) : State :=
  { t with source := yields (left ++ b :: more) (.endless b more :: rest) }

/-- Two runs that differ at most in one period being written out in what is left of the source. -/
inductive Alike {α : Type} : Run α → Run α → Prop
  | same (r : Run α) : Alike r r
  | cont (a : α) (left : List Byte) (t : State) :
      Alike (.cont a (State.onPeriods b more rest left t)) (.cont a (State.onWritten b more rest left t))
  | ended (left : List Byte) (t : State) :
      Alike (.ended (State.onPeriods b more rest left t)) (.ended (State.onWritten b more rest left t))

/-- An operation that runs alike on the two sources. -/
def RunsAlike {α : Type} (f : State → Run α) : Prop :=
  ∀ (left : List Byte) (t : State),
    Alike b more rest (f (t.onPeriods b more rest left)) (f (t.onWritten b more rest left))

variable {b more rest}

theorem Alike.andThen {α β : Type} {r r' : Run α} {g : α → State → Run β} (h : Alike b more rest r r')
    (hg : ∀ (a : α) (left : List Byte) (t : State), r = .cont a (t.onPeriods b more rest left) →
      Alike b more rest (g a (t.onPeriods b more rest left)) (g a (t.onWritten b more rest left))) :
    Alike b more rest (r.andThen g) (r'.andThen g) := by
  cases h with
  | same => exact .same _
  | cont a left t => exact hg a left t rfl
  | ended left t => exact .ended left t

theorem RunsAlike.andThen {α β : Type} {f : State → Run α} {g : α → State → Run β} (hf : RunsAlike b more rest f)
    (hg : ∀ a, RunsAlike b more rest (g a)) : RunsAlike b more rest fun t => (f t).andThen g :=
  fun left t => (hf left t).andThen fun a left t _ => hg a left t

theorem Alike.stop_iff {α : Type} {r r' : Run α} {f : Fault} (h : Alike b more rest r r') :
    r = .stop f ↔ r' = .stop f := by
  cases h with
  | same => exact Iff.rfl
  | cont a left t => exact ⟨nofun, nofun⟩
  | ended left t => exact ⟨nofun, nofun⟩

/-- Two loops that run alike turn by turn, the second with more turns: where the first one's run out, more do too, and
where they are enough, more change nothing. -/
theorem Alike.turns {α : Type} {r r' : Nat → Run α} {n m : Nat} (h : ∀ k, Alike b more rest (r k) (r' k)) (hle : n ≤ m)
    (hhang : r n = .stop .hang → r m = .stop .hang) (hmono : r' n ≠ .stop .hang → ∀ d, r' (n + d) = r' n) :
    Alike b more rest (r n) (r' m) := by
  by_cases hn : r n = .stop .hang
  · rw [hn, (h m).stop_iff.1 (hhang hn)]
    exact .same _
  · obtain ⟨d, rfl⟩ := Nat.exists_eq_add_of_le hle
    rw [hmono (fun hw => hn ((h n).stop_iff.2 hw)) d]
    exact h n

/-! The operations. -/

/-- A read takes the next byte left, or begins the next period: the one written out, or one of the endless run. -/
theorem srcRead_alike : RunsAlike b more rest srcRead
  | [], t => .same (.cont (SrcReply.byte b) { t with source := afterFirst b more rest })
  | x :: l, t => .cont (SrcReply.byte x) l t

theorem snkWrite_alike (x : Byte) : RunsAlike b more rest (snkWrite x) := by
  intro left t
  unfold snkWrite
  simp only [State.onPeriods, State.onWritten]
  match t.sink with
  | [] => exact .same _
  | .ok :: k => exact .cont SnkReply.ok left (appendOutput x { t with sink := k })
  | .okForever :: k => exact .cont SnkReply.ok left (appendOutput x { t with sink := .okForever :: k })
  | .fail true :: k => exact .cont SnkReply.fail left (appendOutput x { t with sink := k })
  | .fail false :: k => exact .cont SnkReply.fail left { t with sink := k }
  | .reset true :: k => exact .ended left (resetCore (appendOutput x { t with sink := k }))
  | .reset false :: k => exact .ended left (resetCore { t with sink := k })

theorem putBitInt_alike (x : Bool) : RunsAlike b more rest (putBitInt x) := by
  intro left t
  by_cases h7 : t.wcnt.toNat = 7
  · rw [putBitInt_eighth (s := t.onPeriods b more rest left) h7,
      putBitInt_eighth (s := t.onWritten b more rest left) h7]
    refine (snkWrite_alike _ left { t with wacc := 0#8, wcnt := 0#3 }).andThen fun r l u _ => ?_
    cases r with
    | ok => exact .cont () l u
    | fail => exact .ended l (setErr .ioFailure (abortW u))
  · have hlt : t.wcnt.toNat < 7 := by have := t.wcnt.isLt; omega
    rw [putBitInt_short (s := t.onPeriods b more rest left) hlt,
      putBitInt_short (s := t.onWritten b more rest left) hlt]
    exact .cont () left (t.bitJoined x)

theorem putAll_alike : (l : List Bool) → RunsAlike b more rest (putAll l)
  | [] => fun left t => .cont () left t
  | x :: l => (putBitInt_alike x).andThen fun _ => putAll_alike l

theorem takeBit_alike : RunsAlike b more rest takeBit :=
  fun left t => .cont (some (t.rbuf.getLsbD (t.rcnt.toNat - 1))) left { t with rcnt := t.rcnt - 1#4 }

theorem byteRead_alike : (r : SrcReply) → RunsAlike b more rest (byteRead r)
  | .byte x => fun left t => takeBit_alike left { t with rbuf := x, rcnt := 8#4 }
  | .eoi => fun left t => .cont none left { t with reoi := true }
  | .fail => fun left t => .ended left (setErr .ioFailure (abortR t))

/-- With nothing buffered and no end of stream latched, a bit is asked of the source (R122). -/
theorem getBitInt_read {s : State} (h0 : s.rcnt = 0#4) (he : s.reoi = false) :
    getBitInt s = (srcRead s).andThen byteRead := by
  rw [getBitInt, if_pos h0, he]
  rfl

theorem getBitInt_take {s : State} (h0 : s.rcnt ≠ 0#4) : getBitInt s = takeBit s := by
  rw [getBitInt, if_neg h0]

theorem getBitInt_alike : RunsAlike b more rest getBitInt := by
  intro left t
  by_cases h0 : t.rcnt = 0#4
  · cases he : t.reoi with
    | true =>
      rw [getBitInt_latched (s := t.onPeriods b more rest left) h0 he,
        getBitInt_latched (s := t.onWritten b more rest left) h0 he]
      exact .cont none left t
    | false =>
      rw [getBitInt_read (s := t.onPeriods b more rest left) h0 he,
        getBitInt_read (s := t.onWritten b more rest left) h0 he]
      exact srcRead_alike.andThen byteRead_alike left t
  · rw [getBitInt_take (s := t.onPeriods b more rest left) h0,
      getBitInt_take (s := t.onWritten b more rest left) h0]
    exact takeBit_alike left t

theorem getBitsFrom_alike : (n : Nat) → (v : Byte) → RunsAlike b more rest (getBitsFrom n v)
  | 0, v => fun left t => .cont (some v) left t
  | n + 1, v => getBitInt_alike.andThen fun r =>
    match r with
    | some x => getBitsFrom_alike n (shiftIn v x)
    | none => fun left t => .cont none left t

theorem formSym_inDomain {r : Byte} {s : State} (h : inDomain s.q s.k.toNat = true) :
    formSym r s = .cont (some (joinSymbol s.q r s.k.toNat)) { s with q := 0#8, dst := .scan } := by
  rw [formSym, if_pos h]

/-- A value above 255 is a free byte and sets DOVF (R194, U4). -/
theorem formSym_overflow {r : Byte} {s : State} (h : ¬ inDomain s.q s.k.toNat = true) :
    formSym r s = .cont (some (Config.draw8 s.draws))
      { s with q := 0#8, dst := .scan, draws := s.draws + 1, dovf := true } := by
  rw [formSym, if_neg h]
  rfl

theorem formSym_alike (r : Byte) : RunsAlike b more rest (formSym r) := by
  intro left t
  by_cases hd : inDomain t.q t.k.toNat = true
  · rw [formSym_inDomain (s := t.onPeriods b more rest left) hd,
      formSym_inDomain (s := t.onWritten b more rest left) hd]
    exact .cont (some (joinSymbol t.q r t.k.toNat)) left { t with q := 0#8, dst := .scan }
  · rw [formSym_overflow (s := t.onPeriods b more rest left) hd,
      formSym_overflow (s := t.onWritten b more rest left) hd]
    exact .cont (some (Config.draw8 t.draws)) left
      { t with q := 0#8, dst := .scan, draws := t.draws + 1, dovf := true }

theorem writeResult_alike : (v : Option Byte) → RunsAlike b more rest (writeResult v)
  | some x => fun left t => .cont () left (setResult x t)
  | none => fun left t => .cont () left (setEndOfStream (draw t).1 (draw t).2)

/-! The loops. -/

theorem decodeTurn_alike {next : State → Run (Option Byte)} (hn : RunsAlike b more rest next) :
    RunsAlike b more rest (decodeTurn next) := by
  intro left t
  unfold decodeTurn
  cases hd : t.dst
  all_goals
    rw [show (t.onPeriods b more rest left).dst = _ from hd, show (t.onWritten b more rest left).dst = _ from hd]
  case done => exact .cont none left t
  case scan =>
    refine (getBitInt_alike left t).andThen fun r l u _ => ?_
    match r with
    | none => exact .cont none l { u with dst := .done }
    | some true => exact hn l { u with q := saturatingSucc u.q }
    | some false => exact hn l { u with dst := .rem }
  case rem =>
    refine (getBitsFrom_alike _ _ left t).andThen fun r l u _ => ?_
    match r with
    | none => exact .cont none l { u with dst := .done }
    | some x => exact formSym_alike x l u

theorem decodeLoop_alike : (n : Nat) → RunsAlike b more rest (decodeLoop n)
  | 0 => fun _ _ => .same _
  | n + 1 => decodeTurn_alike (decodeLoop_alike n)

theorem sourceReads_yields (bytes : List Byte) (l : List SrcEvent) :
    sourceReads (yields bytes l) = bytes.length + sourceReads l := by
  induction bytes with
  | nil => exact (Nat.zero_add _).symm
  | cons x bytes ih =>
    rw [List.length_cons, Nat.add_right_comm, ← ih]
    rfl

theorem sourceReads_written (left : List Byte) : sourceReads (yields left (.endless b more :: rest)) ≤
    sourceReads (yields (left ++ b :: more) (.endless b more :: rest)) := by
  rw [sourceReads_yields, sourceReads_yields, List.length_append]
  omega

/-- Each source gives `DecSymInt` its own count of turns, and both are enough (log 17). -/
theorem decSymInt_alike {left : List Byte} {t : State} (hr : t.readOk) :
    Alike b more rest (decSymInt (t.onPeriods b more rest left)) (decSymInt (t.onWritten b more rest left)) := by
  have hle : bitsAhead (t.onPeriods b more rest left) ≤ bitsAhead (t.onWritten b more rest left) :=
    Nat.add_le_add_left (Nat.mul_le_mul_left 8 (sourceReads_written left)) _
  exact .turns (fun n => decodeLoop_alike n left t) (Nat.succ_le_succ hle)
    (fun h => decSymInt_hang (s := t.onPeriods b more rest left) hr h _) decodeLoop_mono

theorem decodePassLoop_alike {left : List Byte} {t : State} (n : Nat) (hr : t.readOk) :
    Alike b more rest (decodePassLoop n (t.onPeriods b more rest left))
      (decodePassLoop n (t.onWritten b more rest left)) := by
  induction n generalizing left t with
  | zero => exact .same _
  | succ n ih =>
    refine (decSymInt_alike hr).andThen fun v l u hu => ?_
    cases v with
    | none =>
      exact (writeResult_alike none).andThen (fun _ l u => .cont () l (closeR u)) l u
    | some x =>
      refine (snkWrite_alike x l u).andThen fun w l' u' hw => ?_
      cases w with
      | fail => exact .ended l' (setErr .ioFailure (abortR u'))
      | ok =>
        obtain ⟨-, hok, -, -, -⟩ := decodeTurn_facts hu hw
        exact ih (hok hr)

theorem encodeLoop_alike : (n : Nat) → RunsAlike b more rest (encodeLoop n)
  | 0 => fun _ _ => .same _
  | n + 1 => srcRead_alike.andThen fun r =>
    match r with
    | .byte x => fun l u => by
      simp only [encSymInt_eq_putAll]
      exact (putAll_alike _).andThen (fun _ => encodeLoop_alike n) l u
    | .eoi => fun l u => by
      simp only [flushInt_eq_putAll]
      exact (putAll_alike _).andThen (fun _ l u => .cont () l (closeW u)) l u
    | .fail => fun l u => .ended l (setErr .ioFailure (abortW u))

/-! The commands. -/

variable (b more rest) in
/-- Two outcomes that are the same, or next states that differ in one period being written out. -/
def OutcomesAlike (o o' : Host.Outcome State Fault Refusal) : Prop :=
  o' = o ∨ ∃ (t : State) (left : List Byte),
    o = .next (t.onPeriods b more rest left) ∧ o' = .next (t.onWritten b more rest left)

theorem Alike.complete {r r' : Run Unit} (h : Alike b more rest r r') :
    OutcomesAlike b more rest (Machine.complete r) (Machine.complete r') := by
  cases h with
  | same => exact .inl rfl
  | cont a left t => exact .inr ⟨setErr .noError t, left, rfl, rfl⟩
  | ended left t => exact .inr ⟨t, left, rfl, rfl⟩

/-- A check that does not look at the source. -/
theorem Alike.check {p : Prop} [Decidable p] {e : ErrorKind} {r r' : Run Unit} {left : List Byte} {t : State}
    (h : Alike b more rest r r') : Alike b more rest (if p then r else raise e (t.onPeriods b more rest left))
      (if p then r' else raise e (t.onWritten b more rest left)) := by
  split
  · exact h
  · exact .ended left (setErr e t)

theorem Alike.kRange {p : Prop} [Decidable p] {r r' : Run Unit} (h : Alike b more rest r r') :
    Alike b more rest (if p then .stop .kRange else r) (if p then .stop .kRange else r') := by
  split
  · exact .same _
  · exact h

theorem closedBy_alike (sel : BitVec 2) : RunsAlike b more rest fun t => .cont () (closedBy sel t) := by
  intro left t
  unfold closedBy
  cases selectsWrite sel <;> cases selectsRead sel
  · exact .cont () left t
  · exact .cont () left (closeR t)
  · exact .cont () left (closeW t)
  · exact .cont () left (closeR (closeW t))

theorem putBitsInt_alike (n : Nat) (v : Byte) : RunsAlike b more rest (putBitsInt n v) := by
  intro left t
  rw [putBitsInt_eq_putAll, putBitsInt_eq_putAll]
  exact putAll_alike _ left t

theorem flushInt_alike (f : Bool) : RunsAlike b more rest (flushInt f) := by
  intro left t
  rw [flushInt_eq_putAll, flushInt_eq_putAll]
  exact putAll_alike _ left t

theorem encSymInt_alike (x : Byte) : RunsAlike b more rest (encSymInt x) := by
  intro left t
  rw [encSymInt_eq_putAll, encSymInt_eq_putAll]
  exact putAll_alike _ left t

/-- ENCODE's loop with the turns each source gives it (log 17). -/
theorem encodePass_alike (left : List Byte) (t : State) : Alike b more rest
    (encodeLoop (encodeTurns (t.onPeriods b more rest left)) (openW (closeR (t.onPeriods b more rest left))))
    (encodeLoop (encodeTurns (t.onWritten b more rest left)) (openW (closeR (t.onWritten b more rest left)))) := by
  have hle : encodeTurns (t.onPeriods b more rest left) ≤ encodeTurns (t.onWritten b more rest left) := by
    simp only [encodeTurns, State.onPeriods, State.onWritten, yields, List.length_append, List.length_map]
    omega
  refine .turns (r := fun n => encodeLoop n (openW (closeR (t.onPeriods b more rest left))))
    (r' := fun n => encodeLoop n (openW (closeR (t.onWritten b more rest left))))
    (fun n => encodeLoop_alike n left (openW (closeR t))) hle (fun h => ?_) encodeLoop_mono
  obtain ⟨hy, ha⟩ := (encodeTurns_enough _).1 h
  exact encodeLoop_endless _ (s := openW (closeR (t.onPeriods b more rest left))) hy ha

theorem openR_readOk (s : State) : (openR s).readOk := ⟨Nat.zero_le 8, nofun⟩

/-- DECODE's loop with the turns each source gives it (log 17). -/
theorem decodePass_alike (left : List Byte) (t : State) : Alike b more rest
    (decodePassLoop (decodeTurns (t.onPeriods b more rest left)) (openR (closeW (t.onPeriods b more rest left))))
    (decodePassLoop (decodeTurns (t.onWritten b more rest left)) (openR (closeW (t.onWritten b more rest left)))) := by
  have hle : decodeTurns (t.onPeriods b more rest left) ≤ decodeTurns (t.onWritten b more rest left) :=
    Nat.add_le_add_right (Nat.add_le_add_right (Nat.mul_le_mul_left 8 (sourceReads_written left)) _) _
  exact .turns (r := fun n => decodePassLoop n (openR (closeW (t.onPeriods b more rest left))))
    (r' := fun n => decodePassLoop n (openR (closeW (t.onWritten b more rest left))))
    (fun n => decodePassLoop_alike (t := openR (closeW t)) n (openR_readOk _)) hle
    (fun h => decodeTurns_enough h _) decodePassLoop_mono

/-- Every command runs alike on the two sources. -/
theorem exec_alike (i : Instr) (left : List Byte) {t : State} (hr : t.readOk) :
    OutcomesAlike b more rest (exec i (t.onPeriods b more rest left)) (exec i (t.onWritten b more rest left)) := by
  match i with
  | .openWr => exact (Alike.check (p := t.snkPresent = true) (.cont () left (openW t))).complete
  | .openRd => exact (Alike.check (p := t.srcPresent = true) (.cont () left (openR t))).complete
  | .close sel => exact (closedBy_alike sel left t).complete
  | .putBit x => exact (Alike.check (p := t.wopen = true) (putBitInt_alike x left t)).complete
  | .putBits n d =>
    exact (Alike.check (p := countLegal n = true) (.check (p := t.wopen = true) (putBitsInt_alike _ d left t))).complete
  | .flush f => exact (Alike.check (p := t.wopen = true) (flushInt_alike f left t)).complete
  | .encSym x =>
    exact (Alike.check (p := t.wopen = true) (.kRange (p := t.k = 0#3) (encSymInt_alike x left t))).complete
  | .getBit =>
    exact (Alike.check (p := t.ropen = true)
      (getBitInt_alike.andThen (fun r => writeResult_alike (r.map zextBit)) left t)).complete
  | .getBits n =>
    exact (Alike.check (p := countLegal n = true) (.check (p := t.ropen = true)
      ((getBitsFrom_alike (countOf n) 0#8).andThen writeResult_alike left t))).complete
  | .decSym =>
    exact (Alike.check (p := t.ropen = true) (.kRange (p := t.k = 0#3)
      ((decSymInt_alike hr).andThen fun v l u _ => writeResult_alike v l u))).complete
  | .encodePass =>
    exact (Alike.check (p := (t.srcPresent && t.snkPresent) = true)
      (.kRange (p := t.k = 0#3) (encodePass_alike left t))).complete
  | .decodePass =>
    exact (Alike.check (p := (t.srcPresent && t.snkPresent) = true)
      (.kRange (p := t.k = 0#3) (decodePass_alike left t))).complete

end

/-- Settles O60: every operation runs alike on the two sources, until the written period is begun or the command ends,
and the loops' counts of turns, which the longer list raises, are enough on both. -/
theorem endlessSourceIsItsPeriods : Obligations.EndlessSourceIsItsPeriods :=
  fun i _ bytes _ _ _ hs => exec_alike i bytes (inv_iff.1 hs).2.1

end Sys2Proof.Machine
end

section
/-! A channel that never answers leaves the command that waits on it stuck (spec/20_memory.md R67, R68;
spec/60_exceptions.md R234). -/

namespace Sys2Proof.Machine
open Sys2Proof.Wire

/-! What each command runs once its checks are passed. -/

theorem exec_writer_open {i : Instr} {l : List Bool} {s : State} (hi : writtenBits i s = some l) (hw : s.wopen = true)
    (hf : i.wellFormed = true) (hk : readsK i = true → s.k ≠ 0#3) : exec i s = complete (putAll l s) := by
  match i with
  | .putBit x =>
    cases hi
    rw [exec, execPutBit, if_pos hw, putBitInt_eq_putAll]
  | .putBits n d =>
    cases hi
    have hc : countLegal n = true := hf
    rw [exec, execPutBits, if_pos hc, if_pos hw, putBitsInt_eq_putAll, countOf]
  | .flush f =>
    cases hi
    rw [exec, execFlush, if_pos hw, flushInt_eq_putAll]
  | .encSym x =>
    cases hi
    rw [exec, execEncSym, if_pos hw, if_neg (hk rfl), encSymInt_eq_putAll]
  | .openWr | .openRd | .close _ | .getBit | .getBits _ | .decSym | .encodePass | .decodePass => cases hi

theorem exec_getBit_open {s : State} (hr : s.ropen = true) :
    exec .getBit s = complete ((getBitInt s).andThen fun r t => writeResult (r.map zextBit) t) := by
  rw [exec, execGetBit, if_pos hr]

theorem exec_getBits_open {n : BitVec 4} {s : State} (hn : n.toNat ≤ 8) (hr : s.ropen = true) :
    exec (.getBits n) s = complete ((getBitsInt n.toNat s).andThen writeResult) := by
  have hc : countLegal n = true := decide_eq_true hn
  rw [exec, execGetBits, if_pos hc, if_pos hr, countOf]

theorem exec_decSym_open {s : State} (hr : s.ropen = true) (hk : s.k ≠ 0#3) :
    exec .decSym s = complete ((decSymInt s).andThen writeResult) := by
  rw [exec, execDecSym, if_pos hr, if_neg hk]

theorem exec_encodePass_attached {s : State} (hp : s.srcPresent = true) (hq : s.snkPresent = true) (hk : s.k ≠ 0#3) :
    exec .encodePass s = complete (encodeLoop (encodeTurns s) (openW (closeR s))) := by
  rw [exec, execEncodePass, if_pos (by rw [hp, hq]; rfl), if_neg hk]

theorem exec_decodePass_attached {s : State} (hp : s.srcPresent = true) (hq : s.snkPresent = true) (hk : s.k ≠ 0#3) :
    exec .decodePass s = complete (decodePassLoop (decodeTurns s) (openR (closeW s))) := by
  rw [exec, execDecodePass, if_pos (by rw [hp, hq]; rfl), if_neg hk]

/-! A channel that lists no answer. -/

theorem srcRead_silent {s : State} (h : s.source = []) : srcRead s = .stop .sourceNeverAnswers := by
  rw [srcRead, h]

theorem snkWrite_silent {x : Byte} {s : State} (h : s.sink = []) : snkWrite x s = .stop .sinkNeverAnswers := by
  rw [snkWrite, h]

/-- The source has no answer after the bytes it lists. -/
def State.endsSilent (s : State) : Prop := s.source = yields (sourceBytes s.source) []

theorem srcRead_spent_silent {q : Byte} {d : DecoderState} {s : State} (hr : s.readOk) (he : s.reoi = false)
    (hs : s.endsSilent) : srcRead (s.spent.decoder q d) = .stop .sourceNeverAnswers := by
  obtain ⟨-, -, -, hsource⟩ := spent_facts hr he
  exact srcRead_silent (hsource [] hs)

/-- A sink that has given `j` answers Ok and lists none after them. -/
theorem silent_after {j : Nat} {l : List SnkEvent} (h : l = List.replicate j SnkEvent.ok) :
    accepting j l = true ∧ afterWrites j l = [] := by
  have := accepting_replicate j []
  rwa [List.append_nil, ← h] at this

/-! Commands on one side. -/

theorem writer_silent {i : Instr} {l : List Bool} {j : Nat} {s : State} (hs : s.Inv) (hf : i.wellFormed = true)
    (hw : s.wopen = true) (hk : readsK i = true → s.k ≠ 0#3) (hi : writtenBits i s = some l)
    (hj : j < (s.bytesDue l).length) (hsink : s.sink = List.replicate j SnkEvent.ok) :
    exec i s = .fault .sinkNeverAnswers := by
  rw [exec_writer_open hi hw hf hk, putAll_stuck hs.wacc_lt hj hsink, complete_stop]

/-- The gets and DEC_SYM take the bits ahead and then make a read. -/
theorem reader_silent {i : Instr} {s : State} (hs : s.Inv) (hi : asksForMore i s) (he : s.reoi = false)
    (hsilent : s.endsSilent) : exec i s = .fault .sourceNeverAnswers := by
  have hok : s.readOk := (inv_iff.1 hs).2.1
  have hread : srcRead s.spent = .stop .sourceNeverAnswers :=
    srcRead_spent_silent (q := s.spent.q) (d := s.spent.dst) hok he hsilent
  obtain ⟨hr, hi⟩ := hi
  match i with
  | .getBit =>
    have hspent : s.spent = s := by rw [State.spent, hi, List.length_nil, took_zero]
    rw [exec_getBit_open hr, ← hspent, getBitInt_spent hok he, hread]
    rfl
  | .getBits n =>
    rw [exec_getBits_open hi.1 hr, getBitsInt, getBitsFrom_more hok he hi.2, hread]
    rfl
  | .decSym =>
    obtain ⟨hk, hd, hw⟩ := hi
    obtain ⟨q, d, g, h⟩ := decSymInt_more hok he hd hw
    rw [exec_decSym_open hr hk, h, srcRead_spent_silent hok he hsilent]
    rfl
  | .openWr | .openRd | .close _ | .putBit _ | .putBits _ _ | .flush _ | .encSym _ | .encodePass | .decodePass =>
    cases hi

/-! ENCODE. -/

/-- The bytes that a pass that has just opened the write side owes are those of its bits alone. -/
theorem bytesDue_openW (l : List Bool) (s : State) : (openW s).bytesDue l = fullBytes l := rfl

theorem encodeBits_openW (bytes : List Byte) (s : State) :
    encodeBits bytes (openW s) = padded true (codeBits s.k.toNat bytes) := by
  rw [encodeBits, padded, openW_wcnt, BitVec.toNat_zero, Nat.zero_add, openW_k]

theorem openW_writeOk (s : State) : (openW s).writeOk := Nat.zero_lt_one

theorem encodePass_source_silent {bytes : List Byte} {s : State} (hs : s.source = yields bytes [])
    (ha : s.sinkAccepts (fullBytes (codeBits s.k.toNat bytes)).length) :
    encodeLoop (encodeTurns s) (openW (closeR s)) = .stop .sourceNeverAnswers := by
  obtain ⟨n, hn⟩ : ∃ n, encodeTurns s = n + 1 + bytes.length := by
    refine ⟨8 * s.sink.length + 8, ?_⟩
    rw [encodeTurns, hs, yields, List.append_nil, List.length_map]
    omega
  rw [hn, encodeLoop_symbols (s := openW (closeR s)) (openW_writeOk _) hs ha, encodeLoop, srcRead_silent rfl]
  rfl

theorem encodePass_sink_silent {bytes : List Byte} {rest : List SrcEvent} {j : Nat} {s : State}
    (hs : s.source = yields bytes (.answer .eoi :: rest)) (hsink : s.sink = List.replicate j SnkEvent.ok)
    (hj : j < (streamBytes s.k.toNat true bytes).length) :
    encodeLoop (encodeTurns s) (openW (closeR s)) = .stop .sinkNeverAnswers := by
  obtain ⟨n, hn⟩ : ∃ n, encodeTurns s = n + 1 + bytes.length := by
    refine ⟨rest.length + 8 * s.sink.length + 9, ?_⟩
    rw [encodeTurns, hs, yields, List.length_append, List.length_map, List.length_cons]
    omega
  obtain ⟨ha, hnil⟩ := silent_after hsink
  have hdue : (openW (closeR s)).bytesDue (encodeBits bytes (openW (closeR s))) = streamBytes s.k.toNat true bytes := by
    rw [bytesDue_openW, encodeBits_openW]
    rfl
  obtain ⟨src, g, h⟩ :=
    encodeLoop_reach (s := openW (closeR s)) (n := n) (openW_writeOk _) hs (by rw [hdue]; exact hj) ha
  rw [hn, h, snkWrite_silent hnil]
  rfl

/-! DECODE. -/

/-- A whole code word begins the bit string (R171). -/
def wholeWord (k : Nat) (l : List Bool) : Prop := unaryRun l < l.length ∧ k ≤ (l.drop (unaryRun l + 1)).length

theorem noWord_of_not_wholeWord {k : Nat} {l : List Bool} (h : ¬ wholeWord k l) : noWord k l := by
  refine ⟨unaryRun l, ?_⟩
  by_cases h1 : unaryRun l < l.length
  · exact .inr ⟨_, unaryRun_split h1, by by_contra h2; exact h ⟨h1, by omega⟩⟩
  · exact .inl (unaryRun_all h1)

/-- Decoding gives a symbol exactly where a whole code word is ahead. -/
theorem decodeWords_ne_nil_iff {k n : Nat} {l : List Bool} (hn : l.length ≤ n) :
    (decodeWords k n l).1 ≠ [] ↔ wholeWord k l := by
  cases n with
  | zero =>
    obtain rfl : l = [] := List.length_eq_zero_iff.1 (Nat.le_zero.1 hn)
    simp [decodeWords, wholeWord]
  | succ n =>
    unfold wholeWord
    simp only [decodeWords]
    split
    · exact ⟨fun _ => ‹_›, fun _ => List.cons_ne_nil _ _⟩
    · exact ⟨fun h => absurd rfl h, fun h => absurd h ‹_›⟩

theorem decodeBits_length_le (k : Nat) (l : List Bool) : (decodeBits k l).1.length ≤ l.length :=
  (Nat.le_mul_of_pos_left _ (Nat.succ_pos k)).trans (decodeWords_length k l.length l)

theorem State.sameBut.fields {s t : State} (h : s.sameBut t) :
    t.k = s.k ∧ t.dst = s.dst ∧ t.q = s.q ∧ t.reoi = s.reoi := by
  rw [h]
  exact ⟨rfl, rfl, rfl, rfl⟩

/-- `t` is `s` in the middle of a decode pass over `bytes`, the sink having taken the first `j` symbols. -/
structure MidDecode (bytes : List Byte) (j : Nat) (rest : List SrcEvent) (s t : State) : Prop where
  k : t.k = s.k
  dst : t.dst = .scan
  q : t.q = 0#8
  reoi : t.reoi = false
  readOk : t.readOk
  sink : t.sink = afterWrites j s.sink
  source : t.source = yields (sourceBytes t.source) rest
  word : wholeWord s.k.toNat t.ahead ↔ j < (decodeBits s.k.toNat (unpack bytes)).1.length

/-- DECODE reaches its symbol number `j` (from 0), or its end, with a turn left for it. -/
theorem decodePass_reach {bytes : List Byte} {rest : List SrcEvent} {j : Nat} {s : State}
    (hs : s.source = yields bytes rest) (hb : sourceBytes rest = []) (hk : s.k ≠ 0#3)
    (hj : j ≤ (decodeBits s.k.toNat (unpack bytes)).1.length) (ha : s.sinkAccepts j) :
    ∃ n t, decodePassLoop (decodeTurns s) (openR (closeW s)) = decodePassLoop (n + 1) t ∧
      MidDecode bytes j rest s t := by
  have hsb : sourceBytes s.source = bytes := by rw [hs, sourceBytes_yields, hb, List.append_nil]
  have hah : (openR (closeW s)).ahead = unpack bytes := by rw [← hsb]; rfl
  obtain ⟨n, hn⟩ : ∃ n, decodeTurns s = n + 1 + j := by
    have hwords := decodeBits_length_le s.k.toNat (unpack bytes)
    have hreads : sourceReads s.source = bytes.length + sourceReads rest := by rw [hs, sourceReads_yields]
    refine ⟨decodeTurns s - 1 - j, ?_⟩
    rw [unpack_length] at hwords
    rw [decodeTurns]
    omega
  obtain ⟨out, t, -, hrun, hsame, hok, -, hsink, -, hsource, m, hm, hwords⟩ :=
    decodePassLoop_words (s := openR (closeW s)) (f := n + 1) (n := (unpack bytes).length) (openR_readOk _) rfl rfl hk
      (by rw [hah]) (by rw [hah]; exact hj) ha
  rw [hah] at hwords
  obtain ⟨htk, hd, hq, he⟩ := hsame.fields
  refine ⟨n, t, hn ▸ hrun, htk, hd, hq, he, hok, hsink, hsource rest ?_, ?_⟩
  · exact hs.trans (congrArg (yields · rest) hsb.symm)
  · rw [← decodeWords_ne_nil_iff hm]
    simp only [openR_k, closeW_k] at hwords
    rw [hwords, ne_eq, List.drop_eq_nil_iff, not_le]
    rfl

theorem decodePass_source_silent {bytes : List Byte} {s : State} (hs : s.source = yields bytes []) (hk : s.k ≠ 0#3)
    (ha : s.sinkAccepts (decodeBits s.k.toNat (unpack bytes)).1.length) :
    decodePassLoop (decodeTurns s) (openR (closeW s)) = .stop .sourceNeverAnswers := by
  obtain ⟨n, t, hrun, ht⟩ := decodePass_reach hs rfl hk (le_refl _) ha
  have hw : ¬ wholeWord s.k.toNat t.ahead := fun h => lt_irrefl _ (ht.word.1 h)
  obtain ⟨q, d, g, hdec⟩ := decSymInt_more ht.readOk ht.reoi ht.dst (ht.k ▸ noWord_of_not_wholeWord hw)
  rw [hrun, decodePassLoop, hdec, srcRead_spent_silent ht.readOk ht.reoi ht.source]
  rfl

theorem decodePass_sink_silent {bytes : List Byte} {rest : List SrcEvent} {j : Nat} {s : State}
    (hs : s.source = yields bytes (.answer .eoi :: rest)) (hk : s.k ≠ 0#3)
    (hsink : s.sink = List.replicate j SnkEvent.ok) (hj : j < (decodeBits s.k.toNat (unpack bytes)).1.length) :
    decodePassLoop (decodeTurns s) (openR (closeW s)) = .stop .sinkNeverAnswers := by
  obtain ⟨ha, hnil⟩ := silent_after hsink
  obtain ⟨n, t, hrun, ht⟩ := decodePass_reach hs rfl hk (le_of_lt hj) ha
  obtain ⟨h1, h2⟩ := ht.word.2 hj
  obtain ⟨v, d, -, hdec⟩ := decSymInt_word ht.readOk ht.dst ht.q (ht.k ▸ hk) h1 (ht.k ▸ h2)
  rw [hrun, decodePassLoop, hdec, andThen_cont]
  simp only
  rw [snkWrite_silent]
  · rfl
  · rw [took_eq]
    exact ht.sink.trans hnil

/-- Settles O23: the commands on one side reach the silent transaction by `putAll_stuck` and by the read after the bits
ahead, the passes by the turns before it. -/
theorem silentChannelLeavesTheCommandStuck : Obligations.SilentChannelLeavesTheCommandStuck := by
  refine ⟨fun i s hs hf => ⟨fun l j hw hk hi hj hsink => ?_, fun hi he hsilent => ?_⟩, fun s bytes rest j hp hq hk => ?_⟩
  · exact writer_silent hs hf hw hk hi hj hsink
  · exact reader_silent hs hi he hsilent
  rw [exec_encodePass_attached hp hq hk, exec_decodePass_attached hp hq hk]
  refine ⟨fun hs ha => ?_, fun hs hsink hj => ?_, fun hs ha => ?_, fun hs hsink hj => ?_⟩
  · rw [encodePass_source_silent hs ha, complete_stop]
  · rw [encodePass_sink_silent hs hsink hj, complete_stop]
  · rw [decodePass_source_silent hs hk ha, complete_stop]
  · rw [decodePass_sink_silent hs hk hsink hj, complete_stop]

end Sys2Proof.Machine
end

section
/-! Command words: the decoder and the encoder are inverse to each other, and every word that encodes no command is illegal
in one of R95's ways (spec/30_encoding.md R92, R95, R97). -/

namespace Sys2Proof
open Sys2Proof.Machine

/-! Operands in D. -/

theorem extractLsb'_setWidth_sel (sel : BitVec 2) :
    (sel.setWidth 8).extractLsb' 0 2 = sel ∧ (sel.setWidth 8).extractLsb' 2 6 = 0#6 := by
  revert sel
  decide

theorem bitField_bits (b : Bool) : (bitField b)[0] = b ∧ (bitField b).extractLsb' 1 7 = 0#7 := by
  cases b <;> decide

/-- The upper bits of D are 0 (R92). -/
theorem extractLsb'_eq_zero_iff {i n : Nat} (h : i + n = 8) (d : Byte) :
    d.extractLsb' i n = 0#n ↔ d.toNat / 2 ^ i = 0 := by
  have hlt : d.toNat / 2 ^ i < 2 ^ n := by
    rw [Nat.div_lt_iff_lt_mul (by positivity), ← pow_add, Nat.add_comm, h]
    exact d.isLt
  rw [← BitVec.toNat_inj, BitVec.extractLsb'_toNat, Nat.shiftRight_eq_div_pow, BitVec.toNat_ofNat, Nat.zero_mod,
    Nat.mod_eq_of_lt hlt]

theorem setWidth_extractLsb'_sel {d : Byte} (h : d.extractLsb' 2 6 = 0#6) : (d.extractLsb' 0 2).setWidth 8 = d := by
  rw [extractLsb'_eq_zero_iff rfl] at h
  apply BitVec.eq_of_toNat_eq
  rw [BitVec.toNat_setWidth, BitVec.extractLsb'_toNat]
  omega

theorem bitField_getLsbD {d : Byte} (h : d.extractLsb' 1 7 = 0#7) : bitField (d.getLsbD 0) = d := by
  rw [extractLsb'_eq_zero_iff rfl] at h
  obtain h | h : d.toNat = 0 ∨ d.toNat = 1 := by omega
  · obtain rfl : d = 0#8 := BitVec.eq_of_toNat_eq h
    rfl
  · obtain rfl : d = 1#8 := BitVec.eq_of_toNat_eq h
    rfl

/-! Encoding, and decoding what was encoded. -/

theorem decode_encode {i : Instr} (h : i.wellFormed = true) : decode (encode i) = .ok i := by
  cases i with
  | openWr | openRd | getBit | decSym | encodePass | decodePass => rfl
  | close _ | putBit _ | flush _ | encSym _ =>
    simp [encode, decode, opField_packWord, nField_packWord, dField_packWord, whenZero, extractLsb'_setWidth_sel,
      bitField_bits]
  | putBits n _ | getBits n =>
    have hn : n.toNat ≤ Config.putMax := of_decide_eq_true h
    simp [encode, decode, opField_packWord, nField_packWord, dField_packWord, whenZero, hn]

/-- Settles O1: the fields of a command's word are the ones it was packed from, so the row and the operands are read back. -/
theorem encodedCommandDecodesToItself : Obligations.EncodedCommandDecodesToItself := fun _ => decode_encode

/-! R95 row by row, in the fields of the word. -/

theorem opField_eq_iff {w : Word} {op : BitVec 4} : opField w = op ↔ w.toNat / 4096 = op.toNat := by
  rw [← BitVec.toNat_inj, opField_toNat]

theorem nField_eq_zero_iff {w : Word} : nField w = 0#4 ↔ w.toNat / 256 % 16 = 0 := by
  rw [← BitVec.toNat_inj, nField_toNat, BitVec.toNat_zero]

theorem dField_eq_zero_iff {w : Word} : dField w = 0#8 ↔ w.toNat % 256 = 0 := by
  rw [← BitVec.toNat_inj, dField_toNat, BitVec.toNat_zero]

theorem illegalWord_noOperand {w : Word} (h : w.toNat / 4096 ∈ [1, 2, 6, 10, 11, 12]) :
    illegalWord w ↔ ¬ (nField w = 0#4 ∧ dField w = 0#8) := by
  simp only [List.mem_cons, List.not_mem_nil, or_false] at h
  rw [nField_eq_zero_iff, dField_eq_zero_iff]
  obtain h | h | h | h | h | h := h <;> simp only [illegalWord, mustBeZeroBits, h] <;> omega

theorem illegalWord_close {w : Word} (h : w.toNat / 4096 = 3) :
    illegalWord w ↔ ¬ (nField w = 0#4 ∧ (dField w).extractLsb' 2 6 = 0#6) := by
  rw [nField_eq_zero_iff, extractLsb'_eq_zero_iff rfl, dField_toNat]
  simp only [illegalWord, mustBeZeroBits, h]
  omega

theorem illegalWord_oneBit {w : Word} (h : w.toNat / 4096 ∈ [4, 8]) :
    illegalWord w ↔ ¬ (nField w = 0#4 ∧ (dField w).extractLsb' 1 7 = 0#7) := by
  simp only [List.mem_cons, List.not_mem_nil, or_false] at h
  rw [nField_eq_zero_iff, extractLsb'_eq_zero_iff rfl, dField_toNat]
  obtain h | h := h <;> simp only [illegalWord, mustBeZeroBits, h] <;> omega

theorem illegalWord_putBits {w : Word} (h : w.toNat / 4096 = 5) : illegalWord w ↔ ¬ (nField w).toNat ≤ Config.putMax := by
  rw [nField_toNat, Config.putMax]
  simp only [illegalWord, mustBeZeroBits, h, true_or, true_and]
  omega

theorem illegalWord_getBits {w : Word} (h : w.toNat / 4096 = 7) :
    illegalWord w ↔ ¬ ((nField w).toNat ≤ Config.putMax ∧ dField w = 0#8) := by
  rw [nField_toNat, dField_eq_zero_iff, Config.putMax]
  simp only [illegalWord, mustBeZeroBits, h, or_true, true_and]
  omega

theorem illegalWord_encSym {w : Word} (h : w.toNat / 4096 = 9) : illegalWord w ↔ ¬ nField w = 0#4 := by
  rw [nField_eq_zero_iff]
  simp only [illegalWord, mustBeZeroBits, h]
  omega

theorem illegalWord_reserved {w : Word}
    (h : opField w ∉ [0x1#4, 0x2#4, 0x3#4, 0x4#4, 0x5#4, 0x6#4, 0x7#4, 0x8#4, 0x9#4, 0xA#4, 0xB#4, 0xC#4]) :
    illegalWord w := by
  have hlt := w.isLt
  simp only [List.mem_cons, List.not_mem_nil, or_false, opField_eq_iff, BitVec.toNat_ofNat] at h
  unfold illegalWord
  omega

/-! Decoding, and encoding what was decoded. -/

/-- What the decoder owes a word: the well-formed command that the word is of, or a refusal where the word is illegal
(R95, R97). -/
def Reads (w : Word) : Except DecodeError Instr → Prop
  | .ok i => i.wellFormed = true ∧ encode i = w ∧ ¬ illegalWord w
  | .error _ => illegalWord w

/-- A row whose only condition is on its "must be 0" bits. -/
theorem reads_whenZero {w : Word} {z : Bool} {i : Instr} (hw : illegalWord w ↔ ¬ z = true) (hf : i.wellFormed = true)
    (he : z = true → encode i = w) : Reads w (whenZero z i) := by
  cases z with
  | false => exact hw.2 Bool.false_ne_true
  | true => exact ⟨hf, he rfl, fun h => hw.1 h rfl⟩

theorem packWord_eq {w : Word} {op n : BitVec 4} {d : Byte} (hop : opField w = op) (hn : nField w = n)
    (hd : dField w = d) : packWord op n d = w := by
  rw [← hop, ← hn, ← hd, packWord_fields]

theorem reads_noOperand {w : Word} {op : BitVec 4} {i : Instr} (hop : opField w = op)
    (hrow : op.toNat ∈ [1, 2, 6, 10, 11, 12]) (hf : i.wellFormed = true)
    (he : encode i = packWord op 0#4 0#8) : Reads w (whenZero (nField w == 0#4 && dField w == 0#8) i) := by
  refine reads_whenZero ?_ hf fun h => ?_
  · rw [Bool.and_eq_true, beq_iff_eq, beq_iff_eq]
    exact illegalWord_noOperand (opField_eq_iff.1 hop ▸ hrow)
  · rw [Bool.and_eq_true, beq_iff_eq, beq_iff_eq] at h
    rw [he, packWord_eq hop h.1 h.2]

theorem reads_oneBit {w : Word} {op : BitVec 4} {i : Instr} (hop : opField w = op) (hrow : op.toNat ∈ [4, 8])
    (hf : i.wellFormed = true) (he : encode i = packWord op 0#4 (bitField ((dField w).getLsbD 0))) :
    Reads w (whenZero (nField w == 0#4 && (dField w).extractLsb' 1 7 == 0#7) i) := by
  refine reads_whenZero ?_ hf fun h => ?_
  · rw [Bool.and_eq_true, beq_iff_eq, beq_iff_eq]
    exact illegalWord_oneBit (opField_eq_iff.1 hop ▸ hrow)
  · rw [Bool.and_eq_true, beq_iff_eq, beq_iff_eq] at h
    rw [he, packWord_eq hop h.1 (bitField_getLsbD h.2).symm]

theorem reads_close {w : Word} (hop : opField w = 0x3#4) :
    Reads w (whenZero (nField w == 0#4 && (dField w).extractLsb' 2 6 == 0#6) (.close ((dField w).extractLsb' 0 2))) := by
  refine reads_whenZero ?_ rfl fun h => ?_
  · rw [Bool.and_eq_true, beq_iff_eq, beq_iff_eq]
    exact illegalWord_close (opField_eq_iff.1 hop)
  · rw [Bool.and_eq_true, beq_iff_eq, beq_iff_eq] at h
    exact packWord_eq hop h.1 (setWidth_extractLsb'_sel h.2).symm

theorem reads_putBits {w : Word} (hop : opField w = 0x5#4) :
    Reads w (if (nField w).toNat ≤ Config.putMax then .ok (.putBits (nField w) (dField w)) else .error .countTooLarge) := by
  split
  · rename_i hn
    exact ⟨decide_eq_true hn, packWord_eq hop rfl rfl, fun h => (illegalWord_putBits (opField_eq_iff.1 hop)).1 h hn⟩
  · rename_i hn
    exact (illegalWord_putBits (opField_eq_iff.1 hop)).2 hn

theorem reads_getBits {w : Word} (hop : opField w = 0x7#4) :
    Reads w (if (nField w).toNat ≤ Config.putMax then whenZero (dField w == 0#8) (.getBits (nField w))
      else .error .countTooLarge) := by
  split
  · rename_i hn
    refine reads_whenZero ?_ (decide_eq_true hn) fun h => packWord_eq hop rfl (beq_iff_eq.1 h)
    rw [illegalWord_getBits (opField_eq_iff.1 hop), beq_iff_eq, and_iff_right hn]
  · rename_i hn
    exact (illegalWord_getBits (opField_eq_iff.1 hop)).2 fun h => hn h.1

theorem reads_encSym {w : Word} (hop : opField w = 0x9#4) :
    Reads w (whenZero (nField w == 0#4) (.encSym (dField w))) := by
  refine reads_whenZero ?_ rfl fun h => packWord_eq hop (beq_iff_eq.1 h) rfl
  rw [illegalWord_encSym (opField_eq_iff.1 hop), beq_iff_eq]

/-- Row by row, and the opcodes that have none. -/
theorem reads_decode (w : Word) : Reads w (decode w) := by
  unfold decode
  refine iteInduction (fun h => reads_noOperand h (by decide) rfl rfl) fun h1 => ?_
  refine iteInduction (fun h => reads_noOperand h (by decide) rfl rfl) fun h2 => ?_
  refine iteInduction reads_close fun h3 => ?_
  refine iteInduction (fun h => reads_oneBit h (by decide) rfl rfl) fun h4 => ?_
  refine iteInduction reads_putBits fun h5 => ?_
  refine iteInduction (fun h => reads_noOperand h (by decide) rfl rfl) fun h6 => ?_
  refine iteInduction reads_getBits fun h7 => ?_
  refine iteInduction (fun h => reads_oneBit h (by decide) rfl rfl) fun h8 => ?_
  refine iteInduction reads_encSym fun h9 => ?_
  refine iteInduction (fun h => reads_noOperand h (by decide) rfl rfl) fun hA => ?_
  refine iteInduction (fun h => reads_noOperand h (by decide) rfl rfl) fun hB => ?_
  refine iteInduction (fun h => reads_noOperand h (by decide) rfl rfl) fun hC => ?_
  exact illegalWord_reserved (by simp only [List.mem_cons, List.not_mem_nil, or_false, *, not_false_eq_true])

theorem decode_ok {w : Word} {i : Instr} (h : decode w = .ok i) :
    i.wellFormed = true ∧ encode i = w ∧ ¬ illegalWord w := by
  have hr := reads_decode w
  rwa [h] at hr

theorem decode_error {w : Word} {e : DecodeError} (h : decode w = .error e) : illegalWord w := by
  have hr := reads_decode w
  rwa [h] at hr

/-- Settles O2, by what the decoder owes a word. -/
theorem decodedWordIsItsCommandsWord : Obligations.DecodedWordIsItsCommandsWord := by
  intro w i h
  obtain ⟨hf, he, -⟩ := decode_ok h
  exact ⟨hf, he⟩

theorem execute_illegal {w : Word} (h : illegalWord w) (s : State) : execute w s = .next (setErr .illegalCommand s) := by
  cases hd : decode w with
  | ok i => exact absurd h (decode_ok hd).2.2
  | error e => rw [execute, hd]; rfl

/-- Settles O3: the decoder refuses an illegal word, whatever the state, and no other word. -/
theorem illegalWordsRaiseIllegalCommand : Obligations.IllegalWordsRaiseIllegalCommand := by
  refine fun w => ⟨fun hw s rest h => (step_event h).trans (execute_illegal hw _), fun hw => ?_⟩
  cases hd : decode w with
  | ok i => exact ⟨i, rfl, (decode_ok hd).2.1⟩
  | error e => exact absurd (decode_error hd) hw

/-- Settles O4: seven of the words are the words of their commands; the other two are illegal in the count and in a
"must be 0" bit. -/
theorem exampleWordsDecode : Obligations.ExampleWordsDecode := by
  refine ⟨rfl, rfl, rfl, rfl, rfl, rfl, rfl, fun i h => (decode_ok h).2.2 ?_, fun i h => (decode_ok h).2.2 ?_⟩
  · exact (illegalWord_putBits rfl).2 (by decide)
  · exact (illegalWord_getBits rfl).2 (by decide)

end Sys2Proof
end

section
/-! Programs: the lines the assembler accepts (spec/30_encoding.md R100), and PUT_UNARY with PUT_BITS run as ENC_SYM (R101). -/

namespace Sys2Proof.Machine
open Sys2Proof.Wire

/-! What the assembler accepts. -/

theorem assemble_wr_isSome (r : RegName) (v : Nat) :
    (assemble (.wr r v)).isSome = true ↔ v ≤ 0xFFFF ∧ (regAddress r).isSome = true := by
  rw [assemble]
  split
  · rename_i hv
    rw [Option.isSome_map, and_iff_right hv]
  · rename_i hv
    simp [hv]

/-- A count and a value of PUT_BITS that the assembler accepts fill their fields (R100). -/
theorem encode_putBits {n v : Nat} (hn : n ≤ 8) (hv : v < 2 ^ n) :
    encode (.putBits (BitVec.ofNat 4 n) (BitVec.ofNat 8 v)) = BitVec.ofNat 16 (0x5000 + 256 * n + v) := by
  have h8 : 2 ^ n ≤ 2 ^ 8 := Nat.pow_le_pow_right (by decide) hn
  apply BitVec.eq_of_toNat_eq
  rw [encode, packWord_toNat, BitVec.toNat_ofNat, BitVec.toNat_ofNat, BitVec.toNat_ofNat, BitVec.toNat_ofNat]
  omega

theorem assemble_putBits {n v : Nat} (hn : n ≤ 8) (hv : v < 2 ^ n) :
    assemble (.putBits n v) = some [commandEvent (.putBits (BitVec.ofNat 4 n) (BitVec.ofNat 8 v))] := by
  rw [assemble, if_pos ⟨hn, hv⟩]

/-- Settles O54: each line's check is the statement's, and the word of PUT_BITS is its fields by their weights. -/
theorem assemblerRefusesOperandsOutOfField : Obligations.AssemblerRefusesOperandsOutOfField := by
  refine ⟨fun _ => Option.isSome_ite, fun _ => Option.isSome_ite, fun _ => Option.isSome_ite, fun _ => Option.isSome_ite,
    fun _ => ?_, fun _ _ => Option.isSome_ite, assemble_wr_isSome, fun n v hn hv => ?_⟩
  · rw [assemble, Option.isSome_map, selValue, Option.isSome_ite]
  · rw [assemble_putBits hn hv, commandEvent, encode_putBits hn hv]

/-! Command lines, run. -/

theorem step_command {i : Instr} {s : State} {rest : List HostEvent} (hf : i.wellFormed = true)
    (h : s.host = commandEvent i :: rest) : step s = exec i { s with host := rest } :=
  stepRunsTheDecodedCommand s (encode i) rest i h (decode_encode hf)

/-- A write-side command whose bytes the sink accepts writes its bits and clears ERR (R138, R225). -/
theorem exec_writes {i : Instr} {l : List Bool} {s : State} (hi : writtenBits i s = some l) (hw : s.wopen = true)
    (hf : i.wellFormed = true) (hk : readsK i = true → s.k ≠ 0#3) (ho : s.writeOk)
    (ha : s.sinkAccepts (s.bytesDue l).length) : exec i s = .next (setErr .noError (s.wrote l)) := by
  rw [exec_writer_open hi hw hf hk, putAll_ok ho ha, complete_cont]

/-- A command that writes `l` under K = `k`, whatever bits are pending. -/
structure Writes (k : BitVec 3) (i : Instr) (l : List Bool) : Prop where
  wellFormed : i.wellFormed = true
  k_ne : readsK i = true → k ≠ 0#3
  bits : ∀ s : State, s.k = k → writtenBits i s = some l

theorem writes_putBit (k : BitVec 3) (b : Bool) : Writes k (.putBit b) [b] := ⟨rfl, nofun, fun _ _ => rfl⟩

theorem writes_putBits {n : BitVec 4} (hn : n.toNat ≤ 8) (k : BitVec 3) (d : Byte) :
    Writes k (.putBits n d) (bitsOf n.toNat d) :=
  ⟨decide_eq_true hn, nofun, fun _ _ => rfl⟩

theorem Writes.step_next {i : Instr} {l : List Bool} {s : State} {rest : List HostEvent} (hi : Writes s.k i l)
    (hw : s.wopen = true) (ho : s.writeOk) (ha : s.sinkAccepts (s.bytesDue l).length)
    (hh : s.host = commandEvent i :: rest) :
    step s = .next (setErr .noError (State.wrote l { s with host := rest })) := by
  obtain ⟨hf, hk, hb⟩ := hi
  rw [step_command hf hh]
  exact exec_writes (s := { s with host := rest }) (hb _ rfl) hw hf hk ho ha

/-- A program of writes leaves what writing its bits, command after command, leaves (R138). -/
theorem run_writes {bits : Instr → List Bool} {cmds : List Instr} {s : State} {rest : List HostEvent}
    (hc : ∀ i ∈ cmds, Writes s.k i (bits i)) (hne : cmds ≠ []) (hw : s.wopen = true) (ho : s.writeOk)
    (ha : s.sinkAccepts (s.bytesDue (cmds.flatMap bits)).length) (hh : s.host = cmds.map commandEvent ++ rest) :
    core.run cmds.length s = .next (setErr .noError (State.wrote (cmds.flatMap bits) { s with host := rest })) := by
  induction cmds generalizing s with
  | nil => exact absurd rfl hne
  | cons i cmds ih =>
    rw [List.flatMap_cons] at ha ⊢
    obtain ⟨ha, hmore⟩ := sinkAccepts_append ha
    rw [List.length_cons, run_next ((hc i List.mem_cons_self).step_next hw ho ha hh)]
    cases cmds with
    | nil =>
      rw [List.flatMap_nil, List.append_nil]
      rfl
    | cons j cmds =>
      have hrun := ih (s := setErr .noError (State.wrote (bits i) { s with host := (j :: cmds).map commandEvent ++ rest }))
        (fun j hj => hc j (List.mem_cons_of_mem i hj)) (List.cons_ne_nil j cmds) hw (wrote_wacc_lt (bits i) s) hmore rfl
      rw [← wrote_wrote]
      exact hrun

/-! The code word as a program. -/

/-- PUT_UNARY q and PUT_BITS k, r as commands, q and r being the symbol's quotient and remainder (R101). -/
def codeWordCommands (k : Nat) (x : Byte) : List Instr :=
  List.replicate (x.toNat / 2 ^ k) (.putBit true) ++
    [.putBit false, .putBits (BitVec.ofNat 4 k) (BitVec.ofNat 8 (x.toNat % 2 ^ k))]

theorem assemble_putUnary {q : Nat} (hq : q ≤ 255) : assemble (.putUnary q) =
    some (List.replicate q (commandEvent (.putBit true)) ++ [commandEvent (.putBit false)]) := by
  rw [assemble, if_pos hq]

theorem assembleProgram_codeWord {k : Nat} (hk : k ≤ 8) (x : Byte) :
    assembleProgram [.putUnary (x.toNat / 2 ^ k), .putBits k (x.toNat % 2 ^ k)] =
      some ((codeWordCommands k x).map commandEvent) := by
  have hq : x.toNat / 2 ^ k ≤ 255 := (Nat.div_le_self _ _).trans (Nat.le_of_lt_succ x.isLt)
  have hr : x.toNat % 2 ^ k < 2 ^ k := Nat.mod_lt _ (by positivity)
  simp [assembleProgram, assemble_putUnary hq, assemble_putBits hk hr, codeWordCommands]

theorem codeWordCommands_write {k : Nat} (hk : k ≤ 8) {x : Byte} {s : State} {i : Instr} (hi : i ∈ codeWordCommands k x) :
    Writes s.k i ((writtenBits i s).getD []) := by
  rw [codeWordCommands, List.mem_append, List.mem_replicate, List.mem_pair] at hi
  obtain ⟨-, rfl⟩ | rfl | rfl := hi
  · exact writes_putBit s.k true
  · exact writes_putBit s.k false
  · refine writes_putBits ?_ s.k _
    rw [BitVec.toNat_ofNat]
    exact (Nat.mod_le _ _).trans hk

/-- A 1-bit for each of the quotient, the 0-bit, and the remainder (R171). -/
theorem codeWordCommands_bits {k : Nat} (hk : k ≤ 8) (x : Byte) (s : State) :
    (codeWordCommands k x).flatMap (fun i => (writtenBits i s).getD []) = codeWord k x := by
  have hn : k % 16 = k := Nat.mod_eq_of_lt (by omega)
  simp [codeWordCommands, codeWord, writtenBits, hn, List.flatMap_replicate]

/-- Settles O55: the program and ENC_SYM write the same bits. -/
theorem putUnaryAndPutBitsWriteTheCodeWord : Obligations.PutUnaryAndPutBitsWriteTheCodeWord := by
  intro s x rest program hs hw hk ha hp hh
  have hk8 : s.k.toNat ≤ 8 := le_of_lt s.k.isLt
  have hbits := codeWordCommands_bits hk8 x s
  rw [assembleProgram_codeWord hk8] at hp
  obtain rfl := Option.some.inj hp
  have hrun := run_writes (fun i hi => codeWordCommands_write hk8 hi) (by simp [codeWordCommands]) hw hs.wacc_lt
    (hbits ▸ ha) hh
  rw [List.length_map, hrun, hbits]
  exact (exec_writes (i := .encSym x) (s := { s with host := rest }) rfl hw rfl (fun _ => hk) hs.wacc_lt ha).symm

end Sys2Proof.Machine
end

section
/-! The commands that open and close the sides (spec/40_bitstream.md R130 to R132). -/

namespace Sys2Proof.Machine

theorem exec_openWr_attached {s : State} (h : s.snkPresent = true) :
    exec .openWr s = .next (setErr .noError (openW s)) := by
  rw [exec, execOpenWr, if_pos h, complete_cont]

theorem exec_openWr_absent {s : State} (h : s.snkPresent = false) :
    exec .openWr s = .next (setErr .invalidHandle s) := by
  rw [exec, execOpenWr, h]
  rfl

theorem exec_openRd_attached {s : State} (h : s.srcPresent = true) :
    exec .openRd s = .next (setErr .noError (openR s)) := by
  rw [exec, execOpenRd, if_pos h, complete_cont]

theorem exec_openRd_absent {s : State} (h : s.srcPresent = false) :
    exec .openRd s = .next (setErr .invalidHandle s) := by
  rw [exec, execOpenRd, h]
  rfl

/-- Settles O24: `openW` with a sink attached, and the raised error with none. -/
theorem openWrOpensTheWriteSide : Obligations.OpenWrOpensTheWriteSide :=
  ⟨rfl, fun _ => ⟨exec_openWr_attached, exec_openWr_absent⟩⟩

/-- Settles O25: `openR` with a source attached, and the raised error with none. -/
theorem openRdOpensTheReadSide : Obligations.OpenRdOpensTheReadSide :=
  ⟨rfl, fun _ => ⟨exec_openRd_attached, exec_openRd_absent⟩⟩

/-- SEL is the low bits of CLOSE's word (R132). -/
theorem encode_close_toNat (sel : BitVec 2) : (encode (.close sel)).toNat = 0x3000 + sel.toNat := by
  rw [encode, packWord_toNat, BitVec.toNat_setWidth, Nat.mod_eq_of_lt (by omega)]
  rfl

/-- Settles O26: each SEL closes its sides by `closeW` and `closeR`. -/
theorem closeDiscardsTheSelectedSides : Obligations.CloseDiscardsTheSelectedSides :=
  ⟨encode_close_toNat, fun s =>
    ⟨exec_close 0#2 s, exec_close 1#2 s, exec_close 2#2 s, exec_close 3#2 s⟩⟩

end Sys2Proof.Machine
end

section
/-! The write side's commands: one command on a sink that accepts or fails (spec/40_bitstream.md R133, R134, R137), and
the packing and flush laws of a list of them (R138, R139). -/

namespace Sys2Proof.Machine
open Sys2Proof.Wire

/-! PUT_BIT in fields. -/

theorem exec_putBit_open {b : Bool} {s : State} (hw : s.wopen = true) :
    exec (.putBit b) s = complete (putBitInt b s) := by
  rw [exec, execPutBit, if_pos hw]

theorem shiftIn_eq_ofNat (v : Byte) (b : Bool) : shiftIn v b = BitVec.ofNat 8 (2 * v.toNat + b.toNat) :=
  BitVec.eq_of_toNat_eq (shiftIn_toNat v b)

theorem snkWrite_accepted {x : Byte} {s : State} {rest : List SnkEvent} (h : s.sink = .ok :: rest) :
    snkWrite x s = .cont .ok { s with sink := rest, output := s.output ++ [x] } := by
  rw [snkWrite, h]
  rfl

/-- A write that the sink fails: the sink kept the byte or did not (R68, U5). -/
theorem snkWrite_failed {x : Byte} {s : State} {kept : Bool} {rest : List SnkEvent} (h : s.sink = .fail kept :: rest) :
    snkWrite x s = .cont .fail { s with sink := rest, output := s.output ++ if kept then [x] else [] } := by
  rw [snkWrite, h]
  cases kept
  · simp
  · rfl

/-- Settles O27: the bit is joined, or is the eighth of a byte that the sink accepts or fails. -/
theorem putBitAppendsOneBit : Obligations.PutBitAppendsOneBit := by
  intro s b hw
  rw [exec_putBit_open hw, ← shiftIn_eq_ofNat]
  refine ⟨fun h => ?_, fun rest h hs => ?_, fun kept rest h hs => ?_⟩
  · rw [putBitInt_short h, complete_cont]
    rfl
  · rw [putBitInt_eighth h, snkWrite_accepted (s := { s with wacc := 0#8, wcnt := 0#3 }) hs]
    rfl
  · rw [putBitInt_eighth h, snkWrite_failed (s := { s with wacc := 0#8, wcnt := 0#3 }) hs]
    rfl

/-! A bit string written by one command. -/

/-- Settles O28, by the laws of writing a bit string. -/
theorem putBitsAppendsTheLowBits : Obligations.PutBitsAppendsTheLowBits := by
  intro s n d hs hw hn
  have hlen : (s.bytesDue (bitsOf n.toNat d)).length = (s.wcnt.toNat + n.toNat) / 8 := by
    rw [bytesDue_length, bitsOf_length]
  refine ⟨hlen, fun ha => ?_⟩
  exact exec_writes (i := .putBits n d) rfl hw (decide_eq_true hn) nofun hs.wacc_lt (hlen ▸ ha)

/-- Settles O30, by the law of a bit string whose byte number `j` the sink fails. -/
theorem sinkFailureClosesTheWriteSide : Obligations.SinkFailureClosesTheWriteSide := by
  intro i s l j kept hs hf hw hk hi hj hsink
  rw [exec_writer_open hi hw hf hk, putAll_fail hs.wacc_lt hj hsink, complete_ended]
  rfl

/-! FLUSH. -/

theorem exec_flush_empty {f : Bool} {s : State} (hw : s.wopen = true) (h : s.wcnt = 0#3) :
    exec (.flush f) s = .next (setErr .noError s) := by
  rw [exec, execFlush, if_pos hw, flushInt, h]
  rfl

/-- Writing the fill bits pads the pending bits (R124, R139). -/
theorem pending_fill (f : Bool) (s : State) :
    s.pending ++ List.replicate (padding s.wcnt.toNat) f = padded f s.pending := by
  rw [padded, pending_length]

theorem natOfBits_replicate (n : Nat) (f : Bool) :
    natOfBits (List.replicate n f) = if f then 2 ^ n - 1 else 0 := by
  induction n with
  | zero => cases f <;> rfl
  | succ n ih =>
    have hpos : 0 < 2 ^ n := by positivity
    rw [List.replicate_succ, natOfBits_cons, ih, List.length_replicate, pow_succ]
    cases f
    · simp
    · simp only [Bool.toNat_true, if_true]
      omega

/-- The one byte of FLUSH with bits pending (R124). -/
theorem fullBytes_padded_pending {f : Bool} {s : State} (ho : s.writeOk) (h : s.wcnt ≠ 0#3) :
    fullBytes (padded f s.pending) = [BitVec.ofNat 8
      (s.wacc.toNat * 2 ^ (8 - s.wcnt.toNat) + if f then 2 ^ (8 - s.wcnt.toNat) - 1 else 0)] := by
  have hlt : s.wcnt.toNat < 8 := s.wcnt.isLt
  have hpos : s.wcnt.toNat ≠ 0 := fun h0 => h (BitVec.eq_of_toNat_eq h0)
  have hfill : padding s.wcnt.toNat = 8 - s.wcnt.toNat := by
    unfold padding
    omega
  have hlen : (padded f s.pending).length = 8 := by
    rw [← pending_fill, List.length_append, pending_length, List.length_replicate, hfill]
    omega
  have hnat : natOfBits s.pending = s.wacc.toNat := by
    rw [State.pending, natOfBits_bitsOf, Nat.mod_eq_of_lt ho]
  have hbyte := fullBytes_eight hlen []
  rw [List.append_nil] at hbyte
  rw [hbyte, byteOfBits, ← pending_fill, natOfBits_append, natOfBits_replicate, List.length_replicate, hnat, hfill]
  rfl

/-- FLUSH to a sink that accepts its byte leaves nothing pending (R124, R137). -/
theorem exec_flush_writes {f : Bool} {s : State} (hw : s.wopen = true) (ho : s.writeOk)
    (ha : s.sinkAccepts (fullBytes (padded f s.pending)).length) :
    exec (.flush f) s = .next (setErr .noError
      { s with
        output := s.output ++ fullBytes (padded f s.pending)
        sink := afterWrites (fullBytes (padded f s.pending)).length s.sink, wacc := 0#8, wcnt := 0#3 }) := by
  rw [← pending_fill] at ha
  rw [exec_writes (i := .flush f) rfl hw rfl nofun ho ha, State.wrote, State.bytesDue, pending_fill, leftover_padded]
  rfl

/-- Settles O29: FLUSH writes the fill bits, which complete the pending byte. -/
theorem flushEmitsThePaddedByte : Obligations.FlushEmitsThePaddedByte := by
  intro s f hs hw
  refine ⟨exec_flush_empty hw, fun rest h hsink => ?_⟩
  have hbyte := fullBytes_padded_pending (f := f) hs.wacc_lt h
  have ha : s.sinkAccepts (fullBytes (padded f s.pending)).length := by
    rw [hbyte, State.sinkAccepts, hsink]
    rfl
  rw [exec_flush_writes hw hs.wacc_lt ha, hbyte, hsink]
  rfl

/-! A list of writes. -/

theorem execAll_cons {i : Instr} {l : List Instr} {s t : State} (h : exec i s = .next t) :
    execAll (i :: l) s = execAll l t := by
  rw [execAll, h]

theorem execAll_append {l m : List Instr} {s t : State} (h : execAll l s = .next t) :
    execAll (l ++ m) s = execAll m t := by
  induction l generalizing s with
  | nil =>
    obtain rfl := Host.Outcome.next.inj h
    rfl
  | cons i l ih =>
    rw [execAll] at h
    split at h
    · rename_i u hi
      rw [List.cons_append, execAll_cons hi, ih h]
    · cases h
    · cases h

theorem execAll_single (i : Instr) (s : State) : execAll [i] s = exec i s := by
  rw [execAll]
  cases exec i s <;> rfl

theorem setErr_self {e : ErrorKind} {s : State} (h : s.err = e) : setErr e s = s := by
  rw [← h]
  rfl

theorem wrote_nil {s : State} (ho : s.writeOk) : s.wrote [] = s := by
  have hnone : (s.bytesDue []).length = 0 := by
    have := s.wcnt.isLt
    rw [bytesDue_length, List.length_nil]
    omega
  have h := putAll_ok (l := []) ho (hnone ▸ accepting_zero s.sink)
  rw [putAll, Run.cont.injEq] at h
  exact h.2.symm

/-- A list of writes leaves what writing its bits leaves (R138). -/
theorem execAll_writes {bits : Instr → List Bool} {cmds : List Instr} {s : State}
    (hc : ∀ i ∈ cmds, Writes s.k i (bits i)) (hw : s.wopen = true) (he : s.err = .noError) (ho : s.writeOk)
    (ha : s.sinkAccepts (s.bytesDue (cmds.flatMap bits)).length) :
    execAll cmds s = .next (s.wrote (cmds.flatMap bits)) := by
  induction cmds generalizing s with
  | nil => rw [List.flatMap_nil, wrote_nil ho, execAll]
  | cons i cmds ih =>
    rw [List.flatMap_cons] at ha ⊢
    obtain ⟨hi, hmore⟩ := sinkAccepts_append ha
    obtain ⟨hf, hk, hb⟩ := hc i List.mem_cons_self
    have hstep := exec_writes (hb s rfl) hw hf hk ho hi
    rw [setErr_self (s := s.wrote (bits i)) he] at hstep
    rw [execAll_cons hstep, ← wrote_wrote]
    exact ih (s := s.wrote (bits i)) (fun j hj => hc j (List.mem_cons_of_mem i hj)) hw he (wrote_wacc_lt _ s) hmore

/-- PUT_BIT, PUT_BITS and ENC_SYM write the same bits whatever is pending (R133, R134, R172). -/
theorem writes_of_mix {i : Instr} {s : State} (hi : i.wellFormed = true ∧
    ((∃ b, i = .putBit b) ∨ (∃ n d, i = .putBits n d) ∨ (∃ x, i = .encSym x ∧ s.k ≠ 0#3))) :
    Writes s.k i ((writtenBits i s).getD []) := by
  obtain ⟨hf, ⟨b, rfl⟩ | ⟨n, d, rfl⟩ | ⟨x, rfl, hk⟩⟩ := hi
  · exact writes_putBit s.k b
  · exact writes_putBits (of_decide_eq_true hf) s.k d
  · exact ⟨rfl, fun _ => hk, fun t ht => by rw [writtenBits, ht]; rfl⟩

theorem leftover_eq_drop (l : List Bool) : leftover l = l.drop (8 * (l.length / 8)) := by
  have h := congrArg (List.drop (8 * (l.length / 8))) (unpack_fullBytes l)
  rwa [List.drop_left' (by rw [unpack_length, fullBytes_length])] at h

/-- A just opened write side has no pending bit before those written (R125, R138). -/
theorem wrote_openW (l : List Bool) (s : State) : (setErr .noError (openW s)).wrote l =
    { s with
      wopen := true, err := .noError
      output := s.output ++ fullBytes l, sink := afterWrites (l.length / 8) s.sink
      wcnt := BitVec.ofNat 3 (l.length % 8), wacc := byteOfBits (l.drop (8 * (l.length / 8))) } := by
  rw [← fullBytes_length, ← leftover_length, fullBytes_length, ← leftover_eq_drop, ← fullBytes_length]
  rfl

/-- OPEN_WR and then a list of writes that the sink accepts (R138). -/
theorem execAll_openWr_writes {bits : Instr → List Bool} {cmds : List Instr} {s : State} (hp : s.snkPresent = true)
    (hc : ∀ i ∈ cmds, Writes s.k i (bits i)) (ha : s.sinkAccepts ((cmds.flatMap bits).length / 8)) :
    execAll (.openWr :: cmds) s = .next ((setErr .noError (openW s)).wrote (cmds.flatMap bits)) := by
  rw [execAll_cons (exec_openWr_attached hp)]
  rw [← fullBytes_length] at ha
  exact execAll_writes (s := setErr .noError (openW s)) hc rfl rfl (openW_writeOk s) ha

/-- Settles O34: the commands' bits, written one command after the other, are the bit string. -/
theorem writesPackTheirBitString : Obligations.WritesPackTheirBitString := by
  intro cmds s l hp hmix hl ha
  subst hl
  rw [execAll_openWr_writes hp (fun i hi => writes_of_mix (hmix i hi)) ha, wrote_openW]

theorem fullBytes_padded_length (f : Bool) (l : List Bool) : (fullBytes (padded f l)).length = (l.length + 7) / 8 := by
  rw [fullBytes_length, padded, List.length_append, List.length_replicate, padding]
  omega

theorem wrote_openW_padded (f : Bool) (l : List Bool) (s : State) : (setErr .noError (openW s)).wrote (padded f l) =
    { s with
      wopen := true, err := .noError, wcnt := 0#3, wacc := 0#8
      output := s.output ++ fullBytes (padded f l), sink := afterWrites ((l.length + 7) / 8) s.sink } := by
  rw [wrote_openW, ← leftover_eq_drop, leftover_padded, padded_length, ← fullBytes_length, fullBytes_padded_length]
  rfl

/-- The fill bits after `l` on a just opened write side (R124, R139). -/
theorem padding_wrote_openW (l : List Bool) (s : State) :
    padding ((setErr .noError (openW s)).wrote l).wcnt.toNat = padding l.length := by
  rw [wrote_openW, BitVec.toNat_ofNat, padding, padding]
  omega

/-- Settles O35: FLUSH after the writes writes the fill bits that pad the bit string. -/
theorem flushedWritesPackThePaddedString : Obligations.FlushedWritesPackThePaddedString := by
  intro cmds f s l hp hmix hl ha
  subst hl
  set l := cmds.flatMap fun i => (writtenBits i s).getD []
  have hwrites := execAll_openWr_writes hp (fun i hi => writes_of_mix (hmix i hi))
    (accepting_le ha (Nat.div_le_div_right (Nat.le_add_right _ 7)))
  have haccept : (setErr .noError (openW s)).sinkAccepts
      ((setErr .noError (openW s)).bytesDue (padded f l)).length := by
    rw [← fullBytes_padded_length f] at ha
    exact ha
  have hflush := exec_writes (i := .flush f) rfl rfl rfl nofun (wrote_wacc_lt l (setErr .noError (openW s)))
    (by rw [padding_wrote_openW]; exact (sinkAccepts_append haccept).2)
  rw [padding_wrote_openW, wrote_wrote] at hflush
  rw [← List.cons_append, execAll_append hwrites, execAll_single, hflush, ← padded, wrote_openW_padded]
  rfl

end Sys2Proof.Machine
end

section
/-! The read side's commands: one get (spec/40_bitstream.md R135, R136), the unpacking law (R140) and the symmetry of the
two sides (R141). -/

namespace Sys2Proof.Machine
open Sys2Proof.Wire

/-! GET_BIT in fields. -/

theorem zextBit_eq_ofNat (b : Bool) : zextBit b = BitVec.ofNat 8 b.toNat := by cases b <;> rfl

/-- A get of one bit that gives a bit (R135). -/
theorem exec_getBit_some {b : Bool} {s u : State} (hr : s.ropen = true) (h : getBitInt s = .cont (some b) u) :
    exec .getBit s = .next (setErr .noError (setResult (BitVec.ofNat 8 b.toNat) u)) := by
  rw [exec_getBit_open hr, h, ← zextBit_eq_ofNat]
  rfl

/-- A get of one bit that meets end of stream (R135). -/
theorem exec_getBit_none {s u : State} (hr : s.ropen = true) (h : getBitInt s = .cont none u) :
    exec .getBit s = .next (setErr .noError (setEndOfStream (draw u).1 (draw u).2)) := by
  rw [exec_getBit_open hr, h]
  exact complete_endOfStream u

theorem srcRead_answer {r : SrcReply} {s : State} {rest : List SrcEvent} (h : s.source = .answer r :: rest) :
    srcRead s = .cont r { s with source := rest } := by
  rw [srcRead, h]

theorem srcRead_period {x : Byte} {more : List Byte} {s : State} {rest : List SrcEvent}
    (h : s.source = .endless x more :: rest) :
    srcRead s = .cont (.byte x) { s with source := afterFirst x more rest } := by
  rw [srcRead, h]

/-- A byte that the source gives is buffered and its first bit taken (R122). -/
theorem getBitInt_of_byte {x : Byte} {s : State} {rest : List SrcEvent} (h0 : s.rcnt = 0#4) (he : s.reoi = false)
    (h : srcRead s = .cont (.byte x) { s with source := rest }) :
    getBitInt s = .cont (some (x.getLsbD 7)) { s with rbuf := x, rcnt := 7#4, source := rest } := by
  rw [getBitInt_read h0 he, h]
  simp [byteRead, takeBit]

theorem firstBit_toNat (x : Byte) : (x.getLsbD 7).toNat = x.toNat / 128 := by
  have := x.isLt
  rw [getLsbD_toNat]
  omega

/-- Settles O31, by what the one bit is taken from: RBUF, the source's next byte, or no bit at end of stream. -/
theorem getBitTakesOneBit : Obligations.GetBitTakesOneBit := by
  intro s hs hr
  refine ⟨fun n hn => ?_, fun x rest h0 he hk => ?_, fun x more rest h0 he hk => ?_, fun rest h0 he hk => ?_,
    fun he => ?_, fun rest h0 he hk => ?_⟩
  · exact exec_getBit_some hr (getBitInt_buffered hn)
  · rw [← firstBit_toNat]
    exact exec_getBit_some hr (getBitInt_of_byte h0 he (srcRead_answer hk))
  · rw [← firstBit_toNat]
    exact exec_getBit_some hr (getBitInt_of_byte h0 he (srcRead_period hk))
  · have hnone : getBitInt s = .cont none { s with reoi := true, source := rest } := by
      rw [getBitInt_read h0 he, srcRead_answer hk]
      rfl
    exact ⟨_, exec_getBit_none hr hnone⟩
  · exact ⟨_, exec_getBit_none hr (getBitInt_latched (hs.latched he) he)⟩
  · rw [exec_getBit_open hr, getBitInt_read h0 he, srcRead_answer hk]
    rfl

/-! GET_BITS. -/

theorem drained_draws (s : State) : s.drained.draws = s.draws := by
  unfold State.drained
  split <;> rfl

/-- Settles O32, by the bits ahead: enough of them, or all of them and then the end of the source. -/
theorem getBitsTakesNBits : Obligations.GetBitsTakesNBits := by
  intro s n hs hr hn
  have hok : s.readOk := (inv_iff.1 hs).2.1
  rw [exec_getBits_open hn hr]
  refine ⟨fun h => ?_, fun h he => ?_, fun h he => ?_⟩
  · rw [getBitsInt_ahead hok h]
    rfl
  · rw [getBitsInt, getBitsFrom_eoi hok h he, ← drained_draws s]
    exact ⟨_, complete_endOfStream s.drained⟩
  · rw [getBitsInt, getBitsFrom_fail hok h he]
    rfl

/-! GET_BITs, one after the other. -/

/-- An open read side with exactly the bits `l` ahead, and end of stream after them. -/
structure ReadsOut (l : List Bool) (s : State) : Prop where
  ropen : s.ropen = true
  readOk : s.readOk
  ahead : s.ahead = l
  ends : s.endsInEoi

theorem drained_readsOut {s : State} (h : ReadsOut [] s) : ReadsOut [] s.drained := by
  obtain ⟨hr, -, -, -⟩ := h
  unfold State.drained
  split
  · rename_i he
    exact ⟨hr, ⟨Nat.zero_le 8, fun _ => rfl⟩, by simp [State.ahead, he, bitsOf], .inl he⟩
  · exact ⟨hr, ⟨Nat.zero_le 8, fun _ => rfl⟩, rfl, .inl rfl⟩

theorem took_one_readsOut {b : Bool} {l : List Bool} {s : State} (h : ReadsOut (b :: l) s) :
    ReadsOut l (s.took 1) := by
  obtain ⟨hr, hok, ha, he⟩ := h
  refine ⟨?_, readOk_took_one ha hok, ahead_took_one ha hok, ((took_one_facts ha hok).1 he).1⟩
  rw [took_eq]
  exact hr

/-- GET_BIT with a bit ahead returns it and leaves the bits after it ahead (R135). -/
theorem exec_getBit_readsOut_cons {b : Bool} {l : List Bool} {s : State} (h : ReadsOut (b :: l) s) :
    ∃ t, exec .getBit s = .next t ∧ ReadsOut l t ∧ t.eos = false ∧ t.data = BitVec.ofNat 8 b.toNat := by
  obtain ⟨hr, hok, ha, he⟩ := took_one_readsOut h
  exact ⟨_, exec_getBit_some h.ropen (getBitInt_ahead h.ahead), ⟨hr, hok, ha, he⟩, rfl, rfl⟩

/-- GET_BIT with no bit ahead returns end of stream, and so will every get after it (R32, R135). -/
theorem exec_getBit_readsOut_nil {s : State} (h : ReadsOut [] s) :
    ∃ t, exec .getBit s = .next t ∧ ReadsOut [] t ∧ t.eos = true := by
  obtain ⟨hr, hok, ha, he⟩ := drained_readsOut h
  exact ⟨_, exec_getBit_none h.ropen (getBitInt_eoi h.ahead h.ends), ⟨hr, hok, ha, he⟩, rfl⟩

/-- GET_BIT number `j` (from 0) returns bit `j` of those ahead, and end of stream where there is none (R140). -/
theorem execAll_getBits {j : Nat} {l : List Bool} {s : State} (h : ReadsOut l s) :
    ∃ t, execAll (List.replicate (j + 1) .getBit) s = .next t ∧
      (∀ b, l[j]? = some b → t.eos = false ∧ t.data = BitVec.ofNat 8 b.toNat) ∧ (l.length ≤ j → t.eos = true) := by
  induction j generalizing l s with
  | zero =>
    rw [List.replicate_one, execAll_single]
    cases l with
    | nil =>
      obtain ⟨t, hx, -, heos⟩ := exec_getBit_readsOut_nil h
      exact ⟨t, hx, nofun, fun _ => heos⟩
    | cons b l =>
      obtain ⟨t, hx, -, heos, hdata⟩ := exec_getBit_readsOut_cons h
      exact ⟨t, hx, fun c hc => Option.some.inj hc ▸ ⟨heos, hdata⟩, nofun⟩
  | succ j ih =>
    rw [List.replicate_succ]
    cases l with
    | nil =>
      obtain ⟨u, hx, hu, -⟩ := exec_getBit_readsOut_nil h
      obtain ⟨t, ht, -, heos⟩ := ih hu
      exact ⟨t, (execAll_cons hx).trans ht, nofun, fun _ => heos (Nat.zero_le j)⟩
    | cons b l =>
      obtain ⟨u, hx, hu, -⟩ := exec_getBit_readsOut_cons h
      obtain ⟨t, ht, hbit, heos⟩ := ih hu
      exact ⟨t, (execAll_cons hx).trans ht, hbit, fun hl => heos (Nat.le_of_succ_le_succ hl)⟩

/-- OPEN_RD on a source that yields `bytes` and then EOI puts their bits ahead (R131, R65). -/
theorem openR_readsOut {bytes : List Byte} {rest : List SrcEvent} {s : State}
    (hs : s.source = yields bytes (.answer .eoi :: rest)) : ReadsOut (unpack bytes) (setErr .noError (openR s)) := by
  have hb : sourceBytes s.source = bytes := by
    rw [hs, sourceBytes_yields]
    exact List.append_nil bytes
  refine ⟨rfl, openR_readOk s, congrArg unpack hb, .inr ⟨rest, ?_⟩⟩
  rw [setErr_source, openR_source, hb, hs]

theorem execAll_openRd_getBits {bytes : List Byte} {rest : List SrcEvent} {s : State} (j : Nat)
    (hp : s.srcPresent = true) (hs : s.source = yields bytes (.answer .eoi :: rest)) :
    ∃ t, execAll (.openRd :: List.replicate (j + 1) .getBit) s = .next t ∧
      (∀ b, (unpack bytes)[j]? = some b → t.eos = false ∧ t.data = BitVec.ofNat 8 b.toNat) ∧
      ((unpack bytes).length ≤ j → t.eos = true) := by
  rw [execAll_cons (exec_openRd_attached hp)]
  exact execAll_getBits (openR_readsOut hs)

theorem bitsOf_getElem? {n j : Nat} (v : Byte) (h : j < n) : (bitsOf n v)[j]? = some (v.getLsbD (n - 1 - j)) := by
  induction n generalizing j with
  | zero => omega
  | succ n ih =>
    cases j with
    | zero => rfl
    | succ j =>
      rw [bitsOf_succ, List.getElem?_cons_succ, ih (by omega)]
      congr 2
      omega

/-- Bit `j` of the packed bytes (R65). -/
theorem unpack_getElem? {bytes : List Byte} {j : Nat} (h : j < 8 * bytes.length) :
    (unpack bytes)[j]? = some ((bytes.getD (j / 8) 0#8).getLsbD (7 - j % 8)) := by
  induction bytes generalizing j with
  | nil => simp at h
  | cons b bytes ih =>
    rw [unpack_cons]
    by_cases hj : j < 8
    · rw [List.getElem?_append_left (by rwa [bitsOf_length]), bitsOf_getElem? b hj, Nat.div_eq_of_lt hj,
        Nat.mod_eq_of_lt hj]
      rfl
    · obtain ⟨i, rfl⟩ := Nat.exists_eq_add_of_le (Nat.le_of_not_lt hj)
      rw [List.length_cons] at h
      rw [List.getElem?_append_right (by rw [bitsOf_length]; omega), bitsOf_length, Nat.add_sub_cancel_left,
        ih (by omega), Nat.add_mod_left, Nat.add_div_left i (by decide), List.getD_cons_succ]

/-- Settles O36: the bits ahead are those of the source's bytes. -/
theorem getsUnpackTheSource : Obligations.GetsUnpackTheSource := by
  intro bytes rest s j hp hs
  obtain ⟨t, ht, hbit, heos⟩ := execAll_openRd_getBits j hp hs
  rw [unpack_length] at heos
  exact ⟨t, ht, fun h => hbit _ (unpack_getElem? h), heos⟩

/-- Settles O37: the write side leaves the bytes of the padded bit string, and unpacking gives it back. -/
theorem readSideSeesWhatTheWriteSidePacked : Obligations.ReadSideSeesWhatTheWriteSidePacked := by
  intro cmds f s t l hp hout hmix hl ha ht u more j hup hus
  rw [flushedWritesPackThePaddedString cmds f s l hp hmix hl ha] at ht
  obtain rfl := Host.Outcome.next.inj ht
  simp only [hout, List.nil_append] at hus
  obtain ⟨v, hv, hbit, heos⟩ := execAll_openRd_getBits j hup hus
  rw [unpack_padded] at hbit heos
  refine ⟨v, hv, fun h => hbit _ ?_, heos⟩
  rw [List.getElem?_eq_getElem h, List.getD_eq_getElem _ _ h]

end Sys2Proof.Machine
end

section
/-! A channel that fails while the decoder reads or writes (spec/42_decoder.md R196, R197; spec/40_bitstream.md R129;
spec/60_exceptions.md R223). -/

namespace Sys2Proof.Machine
open Sys2Proof.Wire

/-- Settles O47, by the decoder's loop on a source that fails before a whole code word. -/
theorem sourceFailureAbortsDecSym : Obligations.SourceFailureAbortsDecSym := by
  intro s m hs hr hk hd he ha
  rw [exec_decSym_open hr hk, decSymInt_fail (inv_iff.1 hs).2.1 hd he ha]
  rfl

/-! DECODE in the middle of a pass. -/

/-- A pass has turns for every symbol of the source's bytes, and one more (log 17). -/
theorem decodeTurns_symbols {bytes : List Byte} {rest : List SrcEvent} {j : Nat} {s : State}
    (hs : s.source = yields bytes rest) (hj : j ≤ (decodeBits s.k.toNat (unpack bytes)).1.length) :
    ∃ n, decodeTurns s = n + 1 + j := by
  have hwords := decodeBits_length_le s.k.toNat (unpack bytes)
  rw [unpack_length] at hwords
  refine ⟨decodeTurns s - 1 - j, ?_⟩
  rw [decodeTurns, hs, sourceReads_yields]
  omega

/-- `t` is `s` in the middle of a decode pass over `bytes`, the sink having taken the first `j` symbols as `out`; the
symbols still to come are those of the bits ahead. -/
structure SentSymbols (bytes : List Byte) (j : Nat) (rest : List SrcEvent) (out : List Byte) (s t : State) : Prop where
  same : (openR (closeW s)).sameBut t
  readOk : t.readOk
  sink : t.sink = afterWrites j s.sink
  source : t.source = yields (sourceBytes t.source) rest
  output : t.output = s.output ++ out
  sent : List.Forall₂ emits ((decodeBits s.k.toNat (unpack bytes)).1.take j) out
  coming : (decodeBits s.k.toNat t.ahead).1 = (decodeBits s.k.toNat (unpack bytes)).1.drop j

/-- DECODE on a sink that accepts its first `j` symbols sends them, and has a turn left. -/
theorem decodePass_sends {bytes : List Byte} {rest : List SrcEvent} {j : Nat} {s : State}
    (hs : s.source = yields bytes rest) (hb : sourceBytes rest = []) (hk : s.k ≠ 0#3)
    (hj : j ≤ (decodeBits s.k.toNat (unpack bytes)).1.length) (ha : s.sinkAccepts j) :
    ∃ n t out, decodePassLoop (decodeTurns s) (openR (closeW s)) = decodePassLoop (n + 1) t ∧
      SentSymbols bytes j rest out s t := by
  have hsb : sourceBytes s.source = bytes := by rw [hs, sourceBytes_yields, hb, List.append_nil]
  have hah : (openR (closeW s)).ahead = unpack bytes := congrArg unpack hsb
  obtain ⟨n, hn⟩ := decodeTurns_symbols hs hj
  obtain ⟨out, t, hsent, hrun, hsame, hok, hout, hsink, -, hsource, m, hm, hwords⟩ :=
    decodePassLoop_words (s := openR (closeW s)) (f := n + 1) (n := (unpack bytes).length) (openR_readOk _) rfl rfl hk
      (by rw [hah]) (hah ▸ hj) ha
  rw [hah] at hsent hwords
  refine ⟨n, t, out, hn ▸ hrun, hsame, hok, hsink, hsource rest ?_, hout, hsent, ?_⟩
  · exact hs.trans (congrArg (yields · rest) hsb.symm)
  · rw [decodeBits, decodeWords_fuel (le_refl _) hm]
    exact congrArg Prod.fst hwords

/-- What a pass has left alone since it opened the read side. -/
theorem SentSymbols.fields {bytes out : List Byte} {j : Nat} {rest : List SrcEvent} {s t : State}
    (ht : SentSymbols bytes j rest out s t) :
    t.k = s.k ∧ t.dst = .scan ∧ t.q = 0#8 ∧ t.reoi = false ∧ t.wopen = false ∧ t.data = s.data ∧ t.eos = s.eos := by
  rw [ht.same]
  exact ⟨rfl, rfl, rfl, rfl, rfl, rfl, rfl⟩

/-- The first symbol of a bit string that begins with a whole code word (R194). -/
theorem decodeBits_wholeWord {k : Nat} {l : List Bool} (h : wholeWord k l) :
    (decodeBits k l).1 = symbolOf k (unaryRun l) ((l.drop (unaryRun l + 1)).take k) ::
      (decodeBits k ((l.drop (unaryRun l + 1)).drop k)).1 := by
  conv_lhs => rw [unaryRun_split h.1, ← List.take_append_drop k (l.drop (unaryRun l + 1))]
  rw [decodeBits_word _ _ _ (List.length_take_of_le h.2)]

/-- With symbols still to come, the bits ahead begin with the code word of the next one. -/
theorem SentSymbols.next {bytes out : List Byte} {j : Nat} {rest : List SrcEvent} {s t : State}
    (ht : SentSymbols bytes j rest out s t) (hj : j < (decodeBits s.k.toNat (unpack bytes)).1.length) :
    wholeWord s.k.toNat t.ahead ∧
      symbolOf s.k.toNat (unaryRun t.ahead) ((t.ahead.drop (unaryRun t.ahead + 1)).take s.k.toNat) =
        (decodeBits s.k.toNat (unpack bytes)).1[j] := by
  have hcoming := ht.coming
  rw [List.drop_eq_getElem_cons hj] at hcoming
  have hw : wholeWord s.k.toNat t.ahead :=
    (decodeWords_ne_nil_iff (le_refl _)).1 (hcoming ▸ List.cons_ne_nil _ _)
  rw [decodeBits_wholeWord hw] at hcoming
  exact ⟨hw, (List.cons.inj hcoming).1⟩

/-- With every symbol sent, no whole code word is ahead. -/
theorem SentSymbols.done {bytes out : List Byte} {rest : List SrcEvent} {s t : State}
    (ht : SentSymbols bytes (decodeBits s.k.toNat (unpack bytes)).1.length rest out s t) :
    ¬ wholeWord s.k.toNat t.ahead := by
  rw [← decodeWords_ne_nil_iff (le_refl _)]
  exact not_not_intro (ht.coming.trans (List.drop_length))

/-- A turn of DECODE whose symbol the sink fails (R129, R197). -/
theorem decodePassLoop_sinkFails {n : Nat} {v : Byte} {s t : State} {kept : Bool} {rest : List SnkEvent}
    (hd : decSymInt s = .cont (some v) t) (ht : t.sink = .fail kept :: rest) :
    decodePassLoop (n + 1) s = .ended (setErr .ioFailure (abortR
      { t with sink := rest, output := t.output ++ if kept then [v] else [] })) := by
  rw [decodePassLoop, hd, andThen_cont]
  simp only
  rw [snkWrite_failed ht]
  rfl

/-- Byte number `j` joins those the sink has where the sink kept it (U5). -/
theorem forall₂_take_kept {symbols : List (Option Byte)} {out : List Byte} {j : Nat} {v : Byte} (kept : Bool)
    (hj : j < symbols.length) (h : List.Forall₂ emits (symbols.take j) out) (hv : emits symbols[j] v) :
    List.Forall₂ emits (symbols.take (if kept then j + 1 else j)) (out ++ if kept then [v] else []) := by
  cases kept with
  | false => simpa using h
  | true =>
    rw [if_pos rfl, if_pos rfl, ← List.take_append_getElem hj]
    exact List.rel_append h (.cons hv .nil)

/-- Settles O52: the pass sends the symbols before number `j`, decodes that one, and the sink fails it. -/
theorem sinkFailureAbortsDecode : Obligations.SinkFailureAbortsDecode := by
  intro bytes rest s j kept hp hq hk hs hj hsink
  have hlist := eq_of_take hsink
  obtain ⟨ha, hafter⟩ := accepting_replicate j (.fail kept :: s.sink.drop (j + 1))
  rw [← hlist] at ha hafter
  obtain ⟨n, t, out, hrun, ht⟩ := decodePass_sends hs rfl hk (le_of_lt hj) ha
  obtain ⟨htk, hd, hq0, -, hwopen, hdata, heos⟩ := ht.fields
  obtain ⟨⟨hbits, hrem⟩, hsym⟩ := ht.next hj
  obtain ⟨v, d, hv, hdec⟩ := decSymInt_word ht.readOk hd hq0 (htk ▸ hk) hbits (htk ▸ hrem)
  rw [htk, hsym] at hv
  rw [took_eq] at hdec
  have hexec := exec_decodePass_attached hp hq hk
  rw [hrun, decodePassLoop_sinkFails hdec (ht.sink.trans hafter), complete_ended] at hexec
  refine ⟨_, out ++ if kept then [v] else [], hexec, rfl, rfl, hwopen, rfl, hdata, heos, rfl, ?_, ?_⟩
  · rw [← List.append_assoc, ← ht.output]
    rfl
  · exact forall₂_take_kept kept hj ht.sent hv

/-- Settles O53: the pass sends every symbol, and the read for one more fails. -/
theorem sourceFailureAbortsDecode : Obligations.SourceFailureAbortsDecode := by
  intro bytes rest s hp hq hk hs ha
  obtain ⟨n, t, out, hrun, ht⟩ := decodePass_sends hs rfl hk (le_refl _) ha
  obtain ⟨htk, hd, -, hre, hwopen, hdata, heos⟩ := ht.fields
  have hdec := decSymInt_end_fail ht.readOk hd ⟨hre, rest, ht.source⟩ (htk ▸ ht.done)
  have hexec := exec_decodePass_attached hp hq hk
  rw [hrun, decodePassLoop, hdec, andThen_ended, complete_ended] at hexec
  refine ⟨_, out, hexec, rfl, rfl, hwopen, rfl, hdata, heos, ?_, ht.output, ?_⟩
  · exact (congrArg (List.drop _) ht.source).trans (drop_succ_yields _ _ _)
  · have hsent := ht.sent
    rwa [List.take_length] at hsent

end Sys2Proof.Machine
end

section
/-! The encoder: code words (spec/41_encoder.md R170, R171), ENC_SYM (R172, R173), and ENCODE on a source that ends
or with a channel that fails in the middle of it (R174, R175; spec/60_exceptions.md R223). -/

namespace Sys2Proof.Machine
open Sys2Proof.Wire

/-! Code words. -/

theorem toNat_div_two_pow_le (x : Byte) (k : Nat) : x.toNat / 2 ^ k ≤ 255 / 2 ^ k :=
  Nat.div_le_div_right (Nat.le_of_lt_succ x.isLt)

theorem remainder_toNat {k : Nat} (hk : k ≤ 8) (x : Byte) : (remainder x k).toNat = x.toNat % 2 ^ k := by
  rw [remainder_eq x k hk, BitVec.toNat_ofNat, Nat.mod_eq_of_lt ((Nat.mod_le _ _).trans_lt x.isLt)]

theorem toNat_ofNat_quotient (x : Byte) (k : Nat) : (BitVec.ofNat 8 (quotient x k)).toNat = x.toNat / 2 ^ k := by
  rw [quotient_eq, BitVec.toNat_ofNat, Nat.mod_eq_of_lt ((Nat.div_le_self _ _).trans_lt x.isLt)]

/-- Settles O38: the symbol is its quotient times `2 ^ k` and its remainder. -/
theorem quotientAndRemainderGiveTheSymbol : Obligations.QuotientAndRemainderGiveTheSymbol := by
  intro x k _ hk
  have hq := toNat_ofNat_quotient x k
  have hr := remainder_toNat (by omega : k ≤ 8) x
  refine ⟨quotient_eq x k, hr, ?_, quotient_eq x k ▸ toNat_div_two_pow_le x k⟩
  rw [joinSymbol_toNat hk (hr ▸ Nat.mod_lt _ (by positivity)) (hq ▸ toNat_div_two_pow_le x k), hq, hr,
    Nat.div_add_mod', BitVec.ofNat_toNat, BitVec.setWidth_eq]

/-- The longest code words are those of k = 1 (R171). -/
theorem maxQuotient_add_le {k : Nat} (h1 : 1 ≤ k) (h7 : k ≤ 7) : 255 / 2 ^ k + 1 + k ≤ 129 := by
  interval_cases k <;> decide

/-- Settles O39: the quotient's 1-bits, the 0-bit and the remainder's k bits. -/
theorem codeWordLength : Obligations.CodeWordLength := by
  intro x k h1 h7
  have hq := toNat_div_two_pow_le x k
  have hmax := maxQuotient_add_le h1 h7
  rw [codeWord_length]
  generalize x.toNat / 2 ^ k = q at hq ⊢
  omega

/-- Settles O40: ENC_SYM is a write of the code word. -/
theorem encSymWritesTheCodeWord : Obligations.EncSymWritesTheCodeWord := by
  intro s x hs hw hk
  have hlen : (s.bytesDue (codeWord s.k.toNat x)).length =
      (s.wcnt.toNat + x.toNat / 2 ^ s.k.toNat + 1 + s.k.toNat) / 8 := by
    rw [bytesDue_length, codeWord_length, ← Nat.add_assoc, ← Nat.add_assoc]
  refine ⟨hlen, fun ha => ?_⟩
  exact exec_writes (i := .encSym x) rfl hw rfl (fun _ => hk) hs.wacc_lt (hlen ▸ ha)

/-! ENCODE turn by turn. -/

/-- A pass has a turn for every symbol the source lists, and one more (log 17). -/
theorem encodeTurns_symbols {symbols : List Byte} {rest : List SrcEvent} {s : State}
    (hs : s.source = yields symbols rest) : ∃ n, encodeTurns s = n + 1 + symbols.length := by
  refine ⟨rest.length + 8 * s.sink.length + 8, ?_⟩
  rw [encodeTurns, hs, yields, List.length_append, List.length_map]
  omega

/-- The turn in which the source answers EOI writes the fill bits and closes the write side (R174). -/
theorem encodeLoop_eoi {n : Nat} {s : State} {rest : List SrcEvent} (hw : s.writeOk)
    (hs : s.source = .answer .eoi :: rest)
    (ha : s.sinkAccepts (s.bytesDue (List.replicate (padding s.wcnt.toNat) true)).length) :
    encodeLoop (n + 1) s =
      .cont () (closeW { s.wrote (List.replicate (padding s.wcnt.toNat) true) with source := rest }) := by
  rw [encodeLoop, srcRead, hs]
  simp only [andThen_cont]
  rw [flushInt_eq_putAll, putAll_ok (s := { s with source := rest }) hw ha, andThen_cont]
  rfl

/-- The turn in which the source fails closes the write side, whatever is pending (R129, R174). -/
theorem encodeLoop_sourceFails {n : Nat} {s : State} {rest : List SrcEvent} (hs : s.source = .answer .fail :: rest) :
    encodeLoop (n + 1) s = .ended (setErr .ioFailure (closeW { s with source := rest })) := by
  rw [encodeLoop, srcRead, hs]
  rfl

/-- The state in the middle of an encode pass from `s`: the symbols are written, and the source lists `rest` (R174). -/
def State.encoded (symbols : List Byte) (rest : List SrcEvent) (s : State) : State :=
  { (openW (closeR s)).wrote (codeBits s.k.toNat symbols) with source := rest }

/-- ENCODE writes every symbol, the sink accepting, and has a turn left for the source's next answer (R174). -/
theorem exec_encodePass_symbols {symbols : List Byte} {rest : List SrcEvent} {s : State}
    (hp : s.srcPresent = true) (hq : s.snkPresent = true) (hk : s.k ≠ 0#3) (hs : s.source = yields symbols rest)
    (ha : s.sinkAccepts (fullBytes (codeBits s.k.toNat symbols)).length) :
    ∃ n, exec .encodePass s = complete (encodeLoop (n + 1) (s.encoded symbols rest)) := by
  obtain ⟨n, hn⟩ := encodeTurns_symbols hs
  refine ⟨n, ?_⟩
  rw [exec_encodePass_attached hp hq hk, hn, encodeLoop_symbols (s := openW (closeR s)) (openW_writeOk _) hs ha]
  rfl

theorem encoded_writeOk (symbols : List Byte) (rest : List SrcEvent) (s : State) : (s.encoded symbols rest).writeOk :=
  wrote_wacc_lt _ (openW (closeR s))

/-- The fill bits of ENCODE's flush pad its code words (R139, R175). -/
theorem encoded_padding (symbols : List Byte) (rest : List SrcEvent) (s : State) :
    padding (s.encoded symbols rest).wcnt.toNat = padding (codeBits s.k.toNat symbols).length :=
  padding_wrote_openW _ (closeR s)

theorem encoded_wrote_fill (symbols : List Byte) (rest : List SrcEvent) (s : State) :
    (s.encoded symbols rest).wrote (List.replicate (padding (s.encoded symbols rest).wcnt.toNat) true) =
      { (openW (closeR s)).wrote (padded true (codeBits s.k.toNat symbols)) with source := rest } := by
  rw [encoded_padding, padded, ← wrote_wrote]
  rfl

/-- A sink that accepts the bytes of the stream accepts those of its code words and the one its fill bits complete. -/
theorem sinkAccepts_stream {symbols : List Byte} {s : State} (rest : List SrcEvent)
    (ha : s.sinkAccepts (streamBytes s.k.toNat true symbols).length) :
    s.sinkAccepts (fullBytes (codeBits s.k.toNat symbols)).length ∧
    (s.encoded symbols rest).sinkAccepts ((s.encoded symbols rest).bytesDue
      (List.replicate (padding (s.encoded symbols rest).wcnt.toNat) true)).length := by
  rw [encoded_padding]
  exact sinkAccepts_append (s := openW (closeR s)) ha

/-- Settles O41: the code words, and at EOI the fill bits that pad them. -/
theorem encodeWritesTheWireFormat : Obligations.EncodeWritesTheWireFormat := by
  intro symbols rest s hp hq hk hs ha
  obtain ⟨hwords, hfill⟩ := sinkAccepts_stream (.answer .eoi :: rest) ha
  obtain ⟨n, hrun⟩ := exec_encodePass_symbols hp hq hk hs hwords
  rw [hrun, encodeLoop_eoi (encoded_writeOk _ _ _) rfl hfill, encoded_wrote_fill, complete_cont]
  rfl

/-- Settles O42: the code words, and then the read that fails. -/
theorem sourceFailureAbortsEncode : Obligations.SourceFailureAbortsEncode := by
  intro symbols rest s hp hq hk hs ha
  obtain ⟨n, hrun⟩ := exec_encodePass_symbols hp hq hk hs ha
  rw [hrun, encodeLoop_sourceFails rfl, complete_ended]
  rfl

/-! ENCODE at a byte of its stream. -/

/-- The bytes of a pass that has just opened the write side are those of its stream (R175). -/
theorem bytesDue_encodeBits (symbols : List Byte) (s : State) :
    (openW s).bytesDue (encodeBits symbols (openW s)) = streamBytes s.k.toNat true symbols := by
  rw [bytesDue_openW, encodeBits_openW]
  rfl

/-- ENCODE reaches byte number `j` (from 0) of its stream, the sink accepting those before: what it answers to that
byte decides how the pass goes on (R174). -/
theorem exec_encodePass_reach {symbols : List Byte} {rest : List SrcEvent} {j : Nat} {s : State}
    (hp : s.srcPresent = true) (hq : s.snkPresent = true) (hk : s.k ≠ 0#3)
    (hs : s.source = yields symbols (.answer .eoi :: rest)) (hj : j < (streamBytes s.k.toNat true symbols).length)
    (ha : s.sinkAccepts j) :
    ∃ (src : List SrcEvent) (g : Unit → State → Run Unit), exec .encodePass s = complete
      (((snkWrite (streamBytes s.k.toNat true symbols)[j]
        { openW (closeR s) with
          output := s.output ++ (streamBytes s.k.toNat true symbols).take j, sink := afterWrites j s.sink
          source := src }).andThen byteSent).andThen g) := by
  have hdue := bytesDue_encodeBits symbols (closeR s)
  obtain ⟨n, hn⟩ := encodeTurns_symbols hs
  obtain ⟨src, g, h⟩ :=
    encodeLoop_reach (s := openW (closeR s)) (n := n) (openW_writeOk _) hs (by rw [hdue]; exact hj) ha
  refine ⟨src, g, ?_⟩
  rw [exec_encodePass_attached hp hq hk, hn, h]
  simp only [State.offering, hdue]
  rfl

/-- The bytes a sink has once it has failed byte number `j`, which it kept or did not (U5). -/
theorem take_append_kept {l : List Byte} {j : Nat} (hj : j < l.length) (kept : Bool) :
    l.take j ++ (if kept then [l[j]] else []) = l.take (if kept then j + 1 else j) := by
  cases kept
  · exact List.append_nil _
  · exact List.take_append_getElem hj

/-- Settles O43: the pass reaches byte number `j`, which the sink fails. -/
theorem sinkFailureAbortsEncode : Obligations.SinkFailureAbortsEncode := by
  intro symbols rest s j kept hp hq hk hs hj hsink
  have hlist := eq_of_take hsink
  obtain ⟨ha, hafter⟩ := accepting_replicate j (.fail kept :: s.sink.drop (j + 1))
  rw [← hlist] at ha hafter
  obtain ⟨src, g, hexec⟩ := exec_encodePass_reach hp hq hk hs hj ha
  rw [snkWrite_failed hafter, andThen_cont, byteSent, raise_eq, andThen_ended, complete_ended] at hexec
  refine ⟨_, hexec, rfl, rfl, rfl, rfl, rfl, rfl, ?_, rfl, rfl, rfl, rfl, rfl⟩
  rw [← take_append_kept hj, ← List.append_assoc]
  rfl

end Sys2Proof.Machine
end

section
/-! DEC_SYM on a source that ends (spec/42_decoder.md R191 to R196), and the latches that only their commands clear
(R195; spec/10_state.md R23, R32). -/

namespace Sys2Proof.Machine
open Sys2Proof.Wire

/-! DEC_SYM with a whole code word ahead. -/

theorem one_le_k {s : State} (hk : s.k ≠ 0#3) : 1 ≤ s.k.toNat :=
  Nat.one_le_iff_ne_zero.2 fun h => hk (BitVec.eq_of_toNat_eq h)

theorem quotientAfter_toNat (q : Byte) (n : Nat) : (quotientAfter q n).toNat = min (q.toNat + n) 255 := by
  rw [quotientAfter, BitVec.toNat_ofNat]
  exact Nat.mod_eq_of_lt (by omega)

/-- The saturated count and the count itself give the same symbol (R192). -/
theorem symbolOf_quotientAfter {k : Nat} (hk : 1 ≤ k) (q : Byte) (m : Nat) (r : List Bool) :
    symbolOf k (quotientAfter q m).toNat r = symbolOf k (q.toNat + m) r := by
  rw [quotientAfter_toNat, symbolOf_saturated hk]

theorem took_draws (n : Nat) (s : State) : (s.took n).draws = s.draws := by rw [took_eq]

/-- DEC_SYM with a whole code word ahead takes its bits and forms the symbol (R191, R194). -/
theorem exec_decSym_codeWord {m : Nat} {s : State} {l : List Bool} (hs : s.Inv) (hr : s.ropen = true) (hk : s.k ≠ 0#3)
    (hd : s.dst = .scan) (ha : s.ahead = List.replicate m true ++ false :: l) (hl : s.k.toNat ≤ l.length) :
    exec .decSym s = complete ((formSym (byteOfBits (l.take s.k.toNat))
      ((s.took (m + 1 + s.k.toNat)).decoder (quotientAfter s.q m) .rem)).andThen writeResult) := by
  rw [exec_decSym_open hr hk, decSymInt_codeWord (inv_iff.1 hs).2.1 hd ha hl]

/-- Settles O44: the quotient is in the domain, so that FormSym makes the symbol. -/
theorem decSymReturnsTheSymbol : Obligations.DecSymReturnsTheSymbol := by
  intro s m l hs hr hk hd ha hl hq
  rw [exec_decSym_codeWord hs hr hk hd ha hl, formSym_bits (by rw [List.length_take_of_le hl, took_k]), took_k,
    symbolOf_quotientAfter (one_le_k hk), symbolOf, if_pos hq]
  rfl

/-- Settles O45: the quotient is above the domain, so that FormSym draws a free byte. -/
theorem decSymOutOfDomainSetsDovf : Obligations.DecSymOutOfDomainSetsDovf := by
  intro s m l hs hr hk hd ha hl hq
  rw [exec_decSym_codeWord hs hr hk hd ha hl, formSym_bits (by rw [List.length_take_of_le hl, took_k]), took_k,
    symbolOf_quotientAfter (one_le_k hk), symbolOf, if_neg (Nat.not_le_of_lt hq), took_draws]
  exact ⟨_, rfl⟩

/-! DEC_SYM at end of stream. -/

theorem exec_decSym_none {s u : State} (hr : s.ropen = true) (hk : s.k ≠ 0#3) (h : decSymInt s = .cont none u) :
    exec .decSym s = .next (setErr .noError (setEndOfStream (draw u).1 (draw u).2)) := by
  rw [exec_decSym_open hr hk, h]
  exact complete_endOfStream u

/-- DEC_SYM that takes every bit ahead and meets end of stream (R192, R193). -/
theorem exec_decSym_drained {q : Byte} {s : State} (hr : s.ropen = true) (hk : s.k ≠ 0#3)
    (h : decSymInt s = .cont none (s.drained.decoder q .done)) :
    ∃ v, exec .decSym s = .next
      { s.drained with data := v, eos := true, draws := s.draws + 1, q := q, dst := .done, err := .noError } := by
  rw [← drained_draws s]
  exact ⟨_, exec_decSym_none hr hk h⟩

/-- Settles O46, by the decoder's loop on path A, on path B and in DONE. -/
theorem decSymEndOfStream : Obligations.DecSymEndOfStream := by
  intro s hs hr hk
  have hok : s.readOk := (inv_iff.1 hs).2.1
  refine ⟨fun m hd he ha => ?_, fun m l hd he ha hl => ?_, fun hd => ?_⟩
  · exact exec_decSym_drained hr hk (decSymInt_pathA hok hd ha he)
  · exact exec_decSym_drained hr hk (decSymInt_pathB hok hd ha hl he)
  · exact ⟨_, exec_decSym_none hr hk (decSymInt_done hd)⟩

/-! What stays until a command that ends it. -/

/-- DONE is terminal for DEC_SYM (R195). -/
theorem exec_decSym_keeps_done {s t : State} (hd : s.dst = .done) (h : exec .decSym s = .next t) : t.dst = .done := by
  obtain ⟨-, h⟩ | rfl := complete_check h
  · have h := complete_kRange h
    rw [decSymInt_done hd] at h
    exact (congrArg State.dst (Host.Outcome.next.inj h)).symm.trans hd
  · exact hd

/-- REOI and DOVF stay 1 where they are. -/
structure KeepsLatches (s t : State) : Prop where
  reoi : s.reoi = true → t.reoi = true
  dovf : s.dovf = true → t.dovf = true

theorem DecodeStep.keepsLatches {s t : State} (h : DecodeStep s t) : KeepsLatches s t := by
  obtain ⟨b, c, e, k, q, d, v, n, rfl, -, hdrawn, -, he⟩ := h
  exact ⟨fun h => (he h).1, hdrawn.2⟩

/-- With REOI latched no source is read that could fail, so CloseR does not clear it (R32). -/
theorem DecodeEnd.keepsLatches {s t : State} (h : DecodeEnd s t) (hok : s.readOk) (hn : s.noReset) :
    t.dst = .done ∧ KeepsLatches s t := by
  obtain ⟨k, q, v, n, -, hdrawn, he, rfl | ⟨-, c, hc⟩⟩ := h
  · exact ⟨rfl, fun h => absurd ((he hok).symm.trans h) nofun, hdrawn.2⟩
  · exact absurd hc (hn.1 c)

theorem Effect.get_keeps {i : Instr} {s t : State} (h : Effect s i t) (hi : isGet i) (hok : s.readOk)
    (hn : s.noReset) : (s.dst = .done → t.dst = .done) ∧ KeepsLatches s t := by
  cases h with
  | refused _ => exact ⟨id, ⟨id, id⟩⟩
  | wrote hw _ _ | writeEnded hw _ => obtain rfl | ⟨n, rfl⟩ := hi <;> cases hw
  | got _ _ h hv =>
    obtain ⟨b, c, e, k, rfl, -, -, he⟩ := h
    obtain ⟨x, y, n, rfl, -⟩ := hv
    exact ⟨id, ⟨fun h => (he h).1, id⟩⟩
  | getEnded _ h =>
    obtain ⟨hd, hl⟩ := h.decode.keepsLatches hok hn
    exact ⟨fun _ => hd, hl⟩
  | _ => obtain hi | ⟨n, hi⟩ := hi <;> cases hi

theorem Effect.decSym_keeps {s t : State} (h : Effect s .decSym t) (hok : s.readOk) (hn : s.noReset) :
    KeepsLatches s t := by
  cases h with
  | refused _ => exact ⟨id, id⟩
  | wrote hw _ _ | writeEnded hw _ => cases hw
  | got hi _ _ _ | getEnded hi _ => obtain hi | ⟨n, hi⟩ := hi <;> cases hi
  | decoded _ h hv =>
    obtain ⟨x, y, n, rfl, -⟩ := hv
    obtain ⟨hre, hdv⟩ := h.1.keepsLatches
    exact ⟨hre, hdv⟩
  | decodeEnded h => exact (h.keepsLatches hok hn).2

/-- DECODE ends in DONE, or its check failed and it changed nothing but ERR (R197, R222). -/
theorem Effect.decodePass_keeps_done {s t : State} (h : Effect s .decodePass t) (hn : s.noReset) (hd : s.dst = .done) :
    t.dst = .done := by
  cases h with
  | refused _ => exact hd
  | wrote hw _ _ | writeEnded hw _ => cases hw
  | got hi _ _ _ | getEnded hi _ => obtain hi | ⟨n, hi⟩ := hi <;> cases hi
  | decodedAll h | decodeFailed h _ =>
    obtain ⟨i, k, o, q, v, n, a, b, rfl, -⟩ := h
    rfl
  | decodeReset h => exact (h.not_of_noReset hn).elim

/-- Settles O19: R36's table leaves each latch to a few commands; of those not named, the gets and DEC_SYM keep it, and
DECODE ends in DONE. -/
theorem latchesAreClearedOnlyByTheirCommands : Obligations.LatchesAreClearedOnlyByTheirCommands := by
  intro i s t hs hn h
  have he := exec_effect h
  have hok : s.readOk := (inv_iff.1 hs).2.1
  refine ⟨fun hd hi => ?_, fun hl hi hclose henc hdec => ?_, fun hl hi hdec => ?_⟩
  · match i with
    | .openRd => exact absurd rfl hi
    | .getBit => exact (he.get_keeps (.inl rfl) hok hn).1 hd
    | .getBits n => exact (he.get_keeps (.inr ⟨n, rfl⟩) hok hn).1 hd
    | .decSym => exact exec_decSym_keeps_done hd h
    | .decodePass => exact he.decodePass_keeps_done hn hd
    | .openWr | .close _ | .putBit _ | .putBits _ _ | .flush _ | .encSym _ | .encodePass =>
      exact (he.same (c := .dst) hn (by simp [mayWrite])).trans hd
  · match i with
    | .openRd => exact absurd rfl hi
    | .encodePass => exact absurd rfl henc
    | .decodePass => exact absurd rfl hdec
    | .getBit => exact (he.get_keeps (.inl rfl) hok hn).2.reoi hl
    | .getBits n => exact (he.get_keeps (.inr ⟨n, rfl⟩) hok hn).2.reoi hl
    | .decSym => exact (he.decSym_keeps hok hn).reoi hl
    | .close sel =>
      have hrow : mayWrite (.close sel) .read = false := by simp [mayWrite, hclose sel rfl]
      obtain ⟨-, -, hkept⟩ := he.same hn hrow
      exact hkept.trans hl
    | .openWr | .putBit _ | .putBits _ _ | .flush _ | .encSym _ =>
      obtain ⟨-, -, hkept⟩ := he.same (c := .read) hn rfl
      exact hkept.trans hl
  · match i with
    | .openRd => exact absurd rfl hi
    | .decodePass => exact absurd rfl hdec
    | .decSym => exact (he.decSym_keeps hok hn).dovf hl
    | .openWr | .close _ | .putBit _ | .putBits _ _ | .getBit | .getBits _ | .flush _ | .encSym _ | .encodePass =>
      exact (he.same (c := .dovf) hn (by simp [mayWrite])).trans hl

end Sys2Proof.Machine
end

section
/-! DECODE on a source that ends (spec/42_decoder.md R197, R200): it sends what the bit string decodes to. The round
trip (R198) and the fill-bit law (R202) follow by the laws of decoding. -/

namespace Sys2Proof.Machine
open Sys2Proof.Wire

/-! The whole pass. -/

/-- Where no whole code word begins the bit string, its 1-bits are counted and no symbol is decoded (R192, R193). -/
theorem decodeBits_of_not_wholeWord {k : Nat} {l : List Bool} (h : ¬ wholeWord k l) :
    decodeBits k l = ([], unaryRun l) := by
  cases l with
  | nil => rfl
  | cons b l => exact if_neg h

/-- `t` is `s` in a decode pass over `bytes` with every symbol sent, as `out`, before the read for one more. -/
structure SentAll (bytes : List Byte) (rest : List SrcEvent) (out : List Byte) (s t : State) : Prop extends
    SentSymbols bytes (decodeBits s.k.toNat (unpack bytes)).1.length rest out s t where
  dovf : t.dovf = (decodeBits s.k.toNat (unpack bytes)).1.any Option.isNone
  count : unaryRun t.ahead = (decodeBits s.k.toNat (unpack bytes)).2

/-- DECODE on a sink that accepts every symbol sends them all, and has a turn left. -/
theorem decodePass_sendsAll {bytes : List Byte} {rest : List SrcEvent} {s : State}
    (hs : s.source = yields bytes rest) (hb : sourceBytes rest = []) (hk : s.k ≠ 0#3)
    (ha : s.sinkAccepts (decodeBits s.k.toNat (unpack bytes)).1.length) :
    ∃ n t out, decodePassLoop (decodeTurns s) (openR (closeW s)) = decodePassLoop (n + 1) t ∧
      SentAll bytes rest out s t := by
  have hsb : sourceBytes s.source = bytes := by rw [hs, sourceBytes_yields, hb, List.append_nil]
  have hah : (openR (closeW s)).ahead = unpack bytes := congrArg unpack hsb
  obtain ⟨n, hn⟩ := decodeTurns_symbols hs (le_refl _)
  obtain ⟨out, t, hsent, hrun, hsame, hok, hout, hsink, hdovf, hsource, m, hm, hwords⟩ :=
    decodePassLoop_words (s := openR (closeW s)) (f := n + 1) (n := (unpack bytes).length) (openR_readOk _) rfl rfl hk
      (by rw [hah]) (hah ▸ le_refl _) ha
  rw [hah] at hsent hwords hdovf
  have hcoming : decodeBits s.k.toNat t.ahead =
      ((decodeBits s.k.toNat (unpack bytes)).1.drop (decodeBits s.k.toNat (unpack bytes)).1.length,
        (decodeBits s.k.toNat (unpack bytes)).2) := (decodeWords_fuel (le_refl _) hm).trans hwords
  have ht : SentSymbols bytes (decodeBits s.k.toNat (unpack bytes)).1.length rest out s t :=
    ⟨hsame, hok, hsink, hsource rest (hs.trans (congrArg (yields · rest) hsb.symm)), hout, hsent,
      congrArg Prod.fst hcoming⟩
  refine ⟨n, t, out, hn ▸ hrun, ht, ?_, ?_⟩
  · rw [hdovf]
    exact congrArg (List.any · Option.isNone) List.take_length
  · rw [decodeBits_of_not_wholeWord ht.done] at hcoming
    exact congrArg Prod.snd hcoming

/-- The last turn of DECODE: end of stream after the bits ahead, with no symbol in them (R192, R193, R197). -/
theorem decodePassLoop_endOfStream {n : Nat} {t : State} {rest : List SrcEvent} (hok : t.readOk) (hd : t.dst = .scan)
    (he : t.reoi = false) (hs : t.source = yields (sourceBytes t.source) (.answer .eoi :: rest))
    (hw : ¬ wholeWord t.k.toNat t.ahead) :
    decodePassLoop (n + 1) t = .cont () (closeR
      { t with
        source := rest, q := quotientAfter t.q (unaryRun t.ahead), dst := .done
        data := Config.draw8 t.draws, eos := true, draws := t.draws + 1 }) := by
  have hleft : t.source.drop ((sourceBytes t.source).length + 1) = rest :=
    (congrArg (List.drop _) hs).trans (drop_succ_yields _ _ _)
  rw [decodePassLoop, decSymInt_end hok hd (.inr ⟨rest, hs⟩) hw, State.drained, if_neg (by simp [he]), hleft]
  rfl

/-- Settles O48: the pass sends every symbol, and the read for one more meets end of stream. -/
theorem decodeEmitsTheDecodedStream : Obligations.DecodeEmitsTheDecodedStream := by
  intro bytes rest s hp hq hk hs ha
  obtain ⟨n, t, out, hrun, ht⟩ := decodePass_sendsAll hs rfl hk ha
  obtain ⟨htk, hd, hq0, hre, -, -, -⟩ := ht.fields
  have hlen : out.length = (decodeBits s.k.toNat (unpack bytes)).1.length := by
    rw [← ht.sent.length_eq, List.take_length]
  have hsent := ht.sent
  rw [List.take_length] at hsent
  refine ⟨out, Config.draw8 t.draws, t.draws + 1, hsent, ?_⟩
  rw [exec_decodePass_attached hp hq hk, hrun,
    decodePassLoop_endOfStream ht.readOk hd hre ht.source (htk ▸ ht.done), ht.count, hq0, complete_cont, hlen,
    ← ht.sink, ← ht.output, ← ht.dovf, ht.same]
  rfl

/-- Settles O49: a code word has at least `k + 1` bits. -/
theorem decodeEmitsBoundedlyManySymbols : Obligations.DecodeEmitsBoundedlyManySymbols := by
  intro bytes rest s hp hq hk hs ha
  have hbound : (decodeBits s.k.toNat (unpack bytes)).1.length ≤ 8 * bytes.length / (s.k.toNat + 1) := by
    rw [Nat.le_div_iff_mul_le (Nat.succ_pos _), Nat.mul_comm, ← unpack_length]
    exact decodeWords_length _ _ _
  obtain ⟨out, v, draws, hsent, hexec⟩ := decodeEmitsTheDecodedStream bytes rest s hp hq hk hs (accepting_le ha hbound)
  have hlen := hsent.length_eq
  refine ⟨_, hexec, rfl, rfl, rfl, ?_, ?_⟩
  · simp
  · simp only [List.length_append]
    omega

/-! Streams of code words. -/

/-- A decoder that emits for symbols of [0,255] emits those symbols. -/
theorem forall₂_emits_some {symbols out : List Byte} (h : List.Forall₂ emits (symbols.map some) out) :
    out = symbols := by
  rw [List.forall₂_map_left_iff] at h
  have heq : List.Forall₂ Eq out symbols := (h.imp fun x y hxy => hxy x rfl).flip
  exact List.forall₂_eq_eq_eq ▸ heq

/-- DECODE of the bytes of a padded stream, whose fill bits decode to the symbols `more` and the count `n` (R198,
R202). -/
theorem exec_decodePass_stream {symbols more : List Byte} {f : Bool} {n : Nat} {rest : List SrcEvent} {s : State}
    (hp : s.srcPresent = true) (hq : s.snkPresent = true) (hk : s.k ≠ 0#3)
    (hs : s.source = yields (streamBytes s.k.toNat f symbols) (.answer .eoi :: rest))
    (hfill : decodeBits s.k.toNat (List.replicate (padding (codeBits s.k.toNat symbols).length) f) =
      (more.map some, n))
    (ha : s.sinkAccepts (symbols ++ more).length) :
    ∃ t, exec .decodePass s = .next t ∧ t.output = s.output ++ (symbols ++ more) ∧ t.dovf = false ∧ t.dst = .done ∧
      t.q = quotientAfter 0#8 n ∧ t.err = .noError ∧ t.source = rest := by
  have hdec : decodeBits s.k.toNat (unpack (streamBytes s.k.toNat f symbols)) = ((symbols ++ more).map some, n) := by
    rw [streamBytes, unpack_padded, padded, decodeBits_codeBits, hfill, List.map_append]
  obtain ⟨out, v, draws, hsent, hexec⟩ :=
    decodeEmitsTheDecodedStream _ rest s hp hq hk hs (by rwa [hdec, List.length_map])
  rw [hdec] at hsent hexec
  obtain rfl := forall₂_emits_some hsent
  exact ⟨_, hexec, rfl, by simp, rfl, rfl, rfl, rfl⟩

/-! What an encode pass writes. -/

/-- OPEN_WR, an ENC_SYM for each symbol and FLUSH write the bytes of the stream (R139, R175). -/
theorem execAll_encSyms {symbols : List Byte} {f : Bool} {s t : State} (hp : s.snkPresent = true) (hk : s.k ≠ 0#3)
    (ha : s.sinkAccepts (streamBytes s.k.toNat f symbols).length)
    (h : execAll (.openWr :: (symbols.map .encSym ++ [.flush f])) s = .next t) :
    t.output = s.output ++ streamBytes s.k.toNat f symbols := by
  have hbits : codeBits s.k.toNat symbols =
      (symbols.map Instr.encSym).flatMap fun i => (writtenBits i s).getD [] := by
    rw [List.flatMap_map]
    rfl
  have hmix : ∀ i ∈ symbols.map Instr.encSym, i.wellFormed = true ∧
      ((∃ b, i = .putBit b) ∨ (∃ n d, i = .putBits n d) ∨ (∃ x, i = .encSym x ∧ s.k ≠ 0#3)) := by
    intro i hi
    obtain ⟨x, -, rfl⟩ := List.mem_map.1 hi
    exact ⟨rfl, .inr (.inr ⟨x, rfl, hk⟩)⟩
  rw [streamBytes, fullBytes_padded_length] at ha
  rw [flushedWritesPackThePaddedString _ f s _ hp hmix hbits ha] at h
  exact (congrArg State.output (Host.Outcome.next.inj h)).symm

theorem quotientAfter_padding (n : Nat) : quotientAfter 0#8 (padding n) = BitVec.ofNat 8 (padding n) := by
  have hlt : padding n < 8 := Nat.mod_lt _ (by decide)
  rw [quotientAfter, BitVec.toNat_zero, Nat.zero_add, min_eq_left (by omega)]

/-- Settles O50: either encode pass writes the padded code words; they decode to their symbols, and the 1-bits that pad
them to a count. -/
theorem decodeInvertsEncode : Obligations.DecodeInvertsEncode := by
  intro symbols s t hp hk hout ha hpass u more hup huq huk hus hua
  have ht : t.output = streamBytes s.k.toNat true symbols := by
    obtain ⟨hsp, ⟨rest, hs⟩, hexec⟩ | hexec := hpass
    · rw [encodeWritesTheWireFormat symbols rest s hsp hp hk hs ha] at hexec
      obtain rfl := Host.Outcome.next.inj hexec
      simp [hout]
    · rw [execAll_encSyms hp hk ha hexec, hout, List.nil_append]
  rw [ht, ← huk] at hus
  obtain ⟨r, hr, hro, hdovf, hdst, hq, herr, hsrc⟩ :=
    exec_decodePass_stream (more := []) hup huq (huk ▸ hk) hus (decodeBits_ones _ _) (by rwa [List.append_nil])
  rw [List.append_nil] at hro
  rw [quotientAfter_padding, huk] at hq
  exact ⟨r, hr, hro, hdovf, hdst, hq, herr, hsrc⟩

/-- Settles O51: the 0-bits that pad the code words decode to symbols 0. -/
theorem zeroFillAddsPhantomSymbols : Obligations.ZeroFillAddsPhantomSymbols := by
  intro symbols rest s hp hq hk hs ha
  set p := padding (codeBits s.k.toNat symbols).length
  have hfill : decodeBits s.k.toNat (List.replicate p false) =
      ((List.replicate (p / (s.k.toNat + 1)) 0#8).map some, 0) := by
    rw [decodeBits_zeros, List.map_replicate]
  obtain ⟨t, ht, hout, hdovf, hdst, hq0, herr, -⟩ :=
    exec_decodePass_stream hp hq hk hs hfill (by rwa [List.length_append, List.length_replicate])
  rw [quotientAfter_zero] at hq0
  rw [← List.append_assoc] at hout
  exact ⟨t, ht, herr, hdovf, hdst, hq0, hout⟩

end Sys2Proof.Machine
end

section
/-! The checks at the head of a command (spec/60_exceptions.md R222, R226, R228) and the idle core (R233). -/

namespace Sys2Proof.Machine

/-- Settles O8: with no event listed the core is idle. -/
theorem idleCoreKeepsItsState : Obligations.IdleCoreKeepsItsState := by
  intro s h
  rw [step, nextEvent, h]

/-- A command whose check fails changes nothing but ERR (R222). -/
theorem complete_check_failed {p : Prop} [Decidable p] {e : ErrorKind} {r : Run Unit} {s : State} (h : ¬ p) :
    complete (if p then r else raise e s) = .next (setErr e s) := by
  rw [if_neg h]
  rfl

/-- A command that has passed its handle check and reads K = 0 stops (R226, R228). -/
theorem complete_check_zeroK {p q : Prop} [Decidable p] [Decidable q] {e : ErrorKind} {r : Run Unit} {s : State}
    (hp : p) (hq : q) : complete (if p then (if q then .stop .kRange else r) else raise e s) = .fault .kRange := by
  rw [if_pos hp, if_pos hq]
  rfl

/-- Settles O21: the handle check is a command's first. Only PUT_BITS and GET_BITS check their count before it, which is
legal in a well-formed command (R226). -/
theorem missingHandleRaisesInvalidHandle : Obligations.MissingHandleRaisesInvalidHandle := by
  intro i s hf h
  match i with
  | .openWr | .openRd | .putBit _ | .flush _ | .encSym _ | .getBit | .decSym =>
    exact complete_check_failed (by simpa [handleMissing] using h)
  | .putBits n _ | .getBits n =>
    have hn : countLegal n = true := hf
    exact (congrArg complete (if_pos hn)).trans (complete_check_failed (by simpa [handleMissing] using h))
  | .encodePass | .decodePass =>
    rw [handleMissing, ← Bool.not_and, Bool.not_eq_true'] at h
    exact complete_check_failed (ne_true_of_eq_false h)
  | .close _ => cases h

/-- Settles O22: of the four coding commands the two one-symbol ones need their side open, and the passes both channels. -/
theorem zeroKStopsCodingCommands : Obligations.ZeroKStopsCodingCommands := by
  intro i s hi h hk
  match i with
  | .encSym _ | .decSym | .encodePass | .decodePass =>
    exact complete_check_zeroK (by simpa [handleMissing] using h) hk
  | .openWr | .openRd | .close _ | .putBit _ | .putBits _ _ | .getBit | .getBits _ | .flush _ => cases hi

end Sys2Proof.Machine
end

section
/-! ERR is not sticky (spec/60_exceptions.md R225): no operation reads ERR, and each carries it along to where the command
completes, which sets it. -/

namespace Sys2Proof.Machine

section
variable {e : ErrorKind}

/-- The same run with another ERR carried along. Where the command is over, ERR has been written. -/
def Run.withErr {α : Type} (e : ErrorKind) : Run α → Run α
  | .cont a s => .cont a (setErr e s)
  | .ended s => .ended s
  | .stop f => .stop f

variable (e) in
/-- An operation that does not read ERR. -/
def ErrBlind {α : Type} (f : State → Run α) : Prop := ∀ s, f (setErr e s) = (f s).withErr e

theorem complete_withErr (r : Run Unit) : complete (r.withErr e) = complete r := by
  cases r <;> rfl

theorem ErrBlind.andThen {α β : Type} {f : State → Run α} {g : α → State → Run β} (hf : ErrBlind e f)
    (hg : ∀ a, ErrBlind e (g a)) : ErrBlind e fun s => (f s).andThen g := by
  intro s
  simp only [hf s]
  cases f s with
  | cont a t => exact hg a t
  | ended t => rfl
  | stop k => rfl

/-- A check that does not look at ERR. What it raises takes the place of the earlier error. -/
theorem withErr_check {p : Prop} [Decidable p] {k : ErrorKind} {r r' : Run Unit} {s : State} (h : r' = r.withErr e) :
    (if p then r' else raise k (setErr e s)) = (if p then r else raise k s).withErr e := by
  split
  · exact h
  · rfl

theorem withErr_kRange {p : Prop} [Decidable p] {r r' : Run Unit} (h : r' = r.withErr e) :
    (if p then .stop .kRange else r') = (if p then .stop .kRange else r).withErr e := by
  split
  · rfl
  · exact h

/-! The operations. -/

theorem srcRead_errBlind : ErrBlind e srcRead := by
  intro s
  unfold srcRead
  rw [setErr_source]
  match s.source with
  | [] | .answer _ :: _ | .reset _ :: _ | .endless _ _ :: _ => rfl

theorem snkWrite_errBlind (x : Byte) : ErrBlind e (snkWrite x) := by
  intro s
  unfold snkWrite
  rw [setErr_sink]
  match s.sink with
  | [] | .ok :: _ | .okForever :: _ => rfl
  | .fail kept :: _ | .reset kept :: _ => cases kept <;> rfl

theorem byteSent_errBlind (r : SnkReply) : ErrBlind e (byteSent r) := by
  intro s
  cases r <;> rfl

theorem putBitInt_errBlind (b : Bool) : ErrBlind e (putBitInt b) := by
  intro s
  by_cases h7 : s.wcnt.toNat = 7
  · rw [putBitInt_eighth h7, putBitInt_eighth (s := setErr e s) h7]
    exact (snkWrite_errBlind _).andThen byteSent_errBlind { s with wacc := 0#8, wcnt := 0#3 }
  · have hlt : s.wcnt.toNat < 7 := by have := s.wcnt.isLt; omega
    rw [putBitInt_short hlt, putBitInt_short (s := setErr e s) hlt]
    rfl

theorem putAll_errBlind : (l : List Bool) → ErrBlind e (putAll l)
  | [] => fun _ => rfl
  | b :: l => (putBitInt_errBlind b).andThen fun _ => putAll_errBlind l

theorem putBitsInt_errBlind (n : Nat) (v : Byte) : ErrBlind e (putBitsInt n v) := by
  intro s
  rw [putBitsInt_eq_putAll, putBitsInt_eq_putAll]
  exact putAll_errBlind _ s

theorem flushInt_errBlind (f : Bool) : ErrBlind e (flushInt f) := by
  intro s
  rw [flushInt_eq_putAll, flushInt_eq_putAll]
  exact putAll_errBlind _ s

theorem encSymInt_errBlind (x : Byte) : ErrBlind e (encSymInt x) := by
  intro s
  rw [encSymInt_eq_putAll, encSymInt_eq_putAll]
  exact putAll_errBlind _ s

theorem byteRead_errBlind (r : SrcReply) : ErrBlind e (byteRead r) := by
  intro s
  cases r <;> rfl

theorem getBitInt_errBlind : ErrBlind e getBitInt := by
  intro s
  by_cases h0 : s.rcnt = 0#4
  · cases he : s.reoi with
    | true =>
      rw [getBitInt_latched h0 he, getBitInt_latched (s := setErr e s) h0 he]
      rfl
    | false =>
      rw [getBitInt_read h0 he, getBitInt_read (s := setErr e s) h0 he]
      exact srcRead_errBlind.andThen byteRead_errBlind s
  · rw [getBitInt_take h0, getBitInt_take (s := setErr e s) h0]
    rfl

theorem getBitsFrom_errBlind : (n : Nat) → (v : Byte) → ErrBlind e (getBitsFrom n v)
  | 0, _ => fun _ => rfl
  | n + 1, v => getBitInt_errBlind.andThen fun r =>
    match r with
    | some b => getBitsFrom_errBlind n (shiftIn v b)
    | none => fun _ => rfl

theorem formSym_errBlind (r : Byte) : ErrBlind e (formSym r) := by
  intro s
  by_cases hd : inDomain s.q s.k.toNat = true
  · rw [formSym_inDomain hd, formSym_inDomain (s := setErr e s) hd]
    rfl
  · rw [formSym_overflow hd, formSym_overflow (s := setErr e s) hd]
    rfl

theorem writeResult_errBlind (v : Option Byte) : ErrBlind e (writeResult v) := by
  intro s
  cases v <;> rfl

/-! The loops. Their counts of turns are taken from the channels' lists. -/

theorem decodeTurn_errBlind {next : State → Run (Option Byte)} (hn : ErrBlind e next) :
    ErrBlind e (decodeTurn next) := by
  intro s
  unfold decodeTurn
  rw [setErr_dst]
  cases s.dst with
  | done => rfl
  | scan =>
    refine getBitInt_errBlind.andThen (fun r t => ?_) s
    match r with
    | none => rfl
    | some true => exact hn { t with q := saturatingSucc t.q }
    | some false => exact hn { t with dst := .rem }
  | rem =>
    refine (getBitsFrom_errBlind s.k.toNat 0#8).andThen (fun r t => ?_) s
    match r with
    | none => rfl
    | some x => exact formSym_errBlind x t

theorem decodeLoop_errBlind : (n : Nat) → ErrBlind e (decodeLoop n)
  | 0 => fun _ => rfl
  | n + 1 => decodeTurn_errBlind (decodeLoop_errBlind n)

theorem decSymInt_errBlind : ErrBlind e decSymInt := fun s => decodeLoop_errBlind (bitsAhead s + 1) s

theorem decodePassLoop_errBlind : (n : Nat) → ErrBlind e (decodePassLoop n)
  | 0 => fun _ => rfl
  | n + 1 => decSymInt_errBlind.andThen fun r =>
    match r with
    | none => fun _ => rfl
    | some v => (snkWrite_errBlind v).andThen fun w =>
      match w with
      | .ok => decodePassLoop_errBlind n
      | .fail => fun _ => rfl

theorem encodeLoop_errBlind : (n : Nat) → ErrBlind e (encodeLoop n)
  | 0 => fun _ => rfl
  | n + 1 => srcRead_errBlind.andThen fun r =>
    match r with
    | .byte x => (encSymInt_errBlind x).andThen fun _ => encodeLoop_errBlind n
    | .eoi => (flushInt_errBlind true).andThen fun _ _ => rfl
    | .fail => fun _ => rfl

end

/-! The commands. -/

/-- A command that is the completion of an operation on which the earlier error has no effect. -/
theorem complete_congr_withErr {e : ErrorKind} {r r' : Run Unit} (h : r' = r.withErr e) : complete r' = complete r :=
  h ▸ complete_withErr r

/-- No command looks at the error before it. -/
theorem exec_setErr (i : Instr) (e : ErrorKind) (s : State) : exec i (setErr e s) = exec i s := by
  match i with
  | .openWr | .openRd => exact complete_congr_withErr (withErr_check rfl)
  | .close sel =>
    rw [exec_close, exec_close, closedBy, closedBy]
    cases selectsWrite sel <;> cases selectsRead sel <;> rfl
  | .putBit b => exact complete_congr_withErr (withErr_check (putBitInt_errBlind b s))
  | .putBits n d => exact complete_congr_withErr (withErr_check (withErr_check (putBitsInt_errBlind _ d s)))
  | .flush f => exact complete_congr_withErr (withErr_check (flushInt_errBlind f s))
  | .encSym x => exact complete_congr_withErr (withErr_check (withErr_kRange (encSymInt_errBlind x s)))
  | .getBit =>
    exact complete_congr_withErr
      (withErr_check (getBitInt_errBlind.andThen (fun r => writeResult_errBlind (r.map zextBit)) s))
  | .getBits n =>
    exact complete_congr_withErr
      (withErr_check (withErr_check ((getBitsFrom_errBlind _ 0#8).andThen writeResult_errBlind s)))
  | .decSym =>
    exact complete_congr_withErr (withErr_check (withErr_kRange (decSymInt_errBlind.andThen writeResult_errBlind s)))
  | .encodePass =>
    exact complete_congr_withErr (withErr_check (withErr_kRange (encodeLoop_errBlind _ (openW (closeR s)))))
  | .decodePass =>
    exact complete_congr_withErr (withErr_check (withErr_kRange (decodePassLoop_errBlind _ (openR (closeW s)))))

/-- Settles O20: no operation reads ERR, and every end of a command writes it. -/
theorem errIsNotSticky : Obligations.ErrIsNotSticky := fun i s e => exec_setErr i e s

end Sys2Proof.Machine
end

section
/-! The fault hang (spec/60_exceptions.md R234): it comes from the three loops alone, on an endless source, and their counts
of turns cut no run short (log 17). -/

namespace Sys2Proof.Machine

/-! Where a command's fault comes from. -/

theorem complete_fault_iff {r : Run Unit} {f : Fault} : complete r = .fault f ↔ r = .stop f := by
  cases r <;> simp

/-- A check raises an error and never stops the run. -/
theorem check_stop_iff {p : Prop} [Decidable p] {e : ErrorKind} {r : Run Unit} {s : State} {f : Fault} :
    (if p then r else raise e s) = .stop f ↔ p ∧ r = .stop f := by
  by_cases hp : p <;> simp [hp]

theorem stop_of_check {p : Prop} [Decidable p] {e : ErrorKind} {r : Run Unit} {s : State} {f : Fault}
    (h : (if p then r else raise e s) = .stop f) : r = .stop f := by
  obtain ⟨-, h⟩ := check_stop_iff.1 h
  exact h

theorem kRange_hang_iff {p : Prop} [Decidable p] {r : Run Unit} :
    (if p then .stop .kRange else r) = .stop .hang ↔ ¬ p ∧ r = .stop .hang := by
  by_cases hp : p <;> simp [hp]

/-- Writing RESULT never stops the run. -/
theorem andThen_writeResult_stop_iff {α : Type} {r : Run α} {g : α → Option Byte} {f : Fault} :
    (r.andThen fun a t => writeResult (g a) t) = .stop f ↔ r = .stop f := by
  cases r with
  | cont a t => cases h : g a <;> simp [h, writeResult]
  | ended t => simp
  | stop k => simp

theorem exec_decSym_hang_iff {s : State} :
    exec .decSym s = .fault .hang ↔ s.ropen = true ∧ s.k ≠ 0#3 ∧ decSymInt s = .stop .hang := by
  rw [exec, execDecSym, complete_fault_iff, check_stop_iff, kRange_hang_iff]
  exact and_congr_right fun _ => and_congr_right fun _ => andThen_writeResult_stop_iff (g := id)

theorem exec_encodePass_hang_iff {s : State} : exec .encodePass s = .fault .hang ↔
    (s.srcPresent && s.snkPresent) = true ∧ s.k ≠ 0#3 ∧ yieldsForever s.source ∧ acceptsForever s.sink := by
  rw [exec, execEncodePass, complete_fault_iff, check_stop_iff, kRange_hang_iff, encodeTurns_enough]

theorem exec_decodePass_hang_iff {s : State} : exec .decodePass s = .fault .hang ↔
    (s.srcPresent && s.snkPresent) = true ∧ s.k ≠ 0#3 ∧
      decodePassLoop (decodeTurns s) (openR (closeW s)) = .stop .hang := by
  rw [exec, execDecodePass, complete_fault_iff, check_stop_iff, kRange_hang_iff]

/-! Only the three loops hang, and only on an endless source. -/

/-- The commands that have no loop of their own make a bounded number of transactions. -/
theorem hangs_only_in_loops {i : Instr} {s : State} (h : exec i s = .fault .hang) :
    i = .encodePass ∨ i = .decodePass ∨ i = .decSym := by
  match i with
  | .encodePass => exact .inl rfl
  | .decodePass => exact .inr (.inl rfl)
  | .decSym => exact .inr (.inr rfl)
  | .openWr | .openRd => cases stop_of_check (complete_fault_iff.1 h)
  | .close sel => cases (exec_close sel s).symm.trans h
  | .putBit b => exact absurd (stop_of_check (complete_fault_iff.1 h)) (putBitInt_ne_hang b s)
  | .putBits n d =>
    have hp := stop_of_check (stop_of_check (complete_fault_iff.1 h))
    exact absurd (putBitsInt_eq_putAll _ d s ▸ hp) (putAll_ne_hang _ s)
  | .flush f =>
    have hp := stop_of_check (complete_fault_iff.1 h)
    exact absurd (flushInt_eq_putAll f s ▸ hp) (putAll_ne_hang _ s)
  | .encSym x =>
    obtain ⟨-, hp⟩ := kRange_hang_iff.1 (stop_of_check (complete_fault_iff.1 h))
    exact absurd (encSymInt_eq_putAll x s ▸ hp) (putAll_ne_hang _ s)
  | .getBit =>
    have hg := stop_of_check (complete_fault_iff.1 h)
    exact absurd (andThen_writeResult_stop_iff.1 hg) (getBitInt_ne_hang s)
  | .getBits n =>
    have hg := stop_of_check (stop_of_check (complete_fault_iff.1 h))
    exact absurd ((andThen_writeResult_stop_iff (g := id)).1 hg) (getBitsFrom_ne_hang _ _ s)

theorem decSymInt_hang_yieldsForever {s : State} (h : decSymInt s = .stop .hang) : yieldsForever s.source := by
  by_contra hy
  exact (decodeLoop_finite hy (Nat.lt_succ_self _)).1 h

theorem decodePass_hang_yieldsForever {s : State}
    (h : decodePassLoop (decodeTurns s) (openR (closeW s)) = .stop .hang) : yieldsForever s.source := by
  by_contra hy
  have hn : bitsAhead (openR (closeW s)) < decodeTurns s := by
    show 0 + 8 * sourceReads s.source < 8 * sourceReads s.source + s.sink.length + 1
    omega
  exact decodePassLoop_ne_hang (s := openR (closeW s)) rfl hy hn h

/-- Settles O58: the other commands make a bounded number of transactions, and on a source that is not endless the counts
of turns suffice to end the three loops. -/
theorem onlyAnEndlessSourceHangs : Obligations.OnlyAnEndlessSourceHangs := by
  intro i s h
  have hi := hangs_only_in_loops h
  refine ⟨?_, hi⟩
  obtain rfl | rfl | rfl := hi
  · obtain ⟨-, -, hy, -⟩ := exec_encodePass_hang_iff.1 h
    exact hy
  · obtain ⟨-, -, hl⟩ := exec_decodePass_hang_iff.1 h
    exact decodePass_hang_yieldsForever hl
  · obtain ⟨-, -, hl⟩ := exec_decSym_hang_iff.1 h
    exact decSymInt_hang_yieldsForever hl

/-! The passes. -/

/-- Settles O57: ENCODE's turns are enough unless both channels are endless, and no number of turns ends either pass where
they are. -/
theorem passesHangOnAnEndlessSource : Obligations.PassesHangOnAnEndlessSource := by
  intro s hp hq hk
  have hc : (s.srcPresent && s.snkPresent) = true := by rw [hp, hq]; rfl
  refine ⟨?_, fun hy ha => exec_decodePass_hang_iff.2 ⟨hc, hk, ?_⟩⟩
  · rw [exec_encodePass_hang_iff, and_iff_right hc, and_iff_right hk]
  · exact decodePassLoop_endless _ (s := openR (closeW s)) hy ha rfl rfl

/-- Settles O59: each loop's count of turns is one of the numbers of turns, and where it runs out every number does. -/
theorem hangIsAnInfiniteExecution : Obligations.HangIsAnInfiniteExecution := by
  intro s hk
  refine ⟨fun hs hr => ?_, fun hp hq => ?_⟩
  · rw [exec_decSym_hang_iff, and_iff_right hr, and_iff_right hk]
    have hok : s.readOk := (inv_iff.1 hs).2.1
    exact ⟨decSymInt_hang hok, fun h => h _⟩
  · have hc : (s.srcPresent && s.snkPresent) = true := by rw [hp, hq]; rfl
    rw [exec_encodePass_hang_iff, exec_decodePass_hang_iff, and_iff_right hc, and_iff_right hk, and_iff_right hc,
      and_iff_right hk]
    exact ⟨⟨fun ⟨hy, ha⟩ n => encodeLoop_endless n (s := openW (closeR s)) hy ha, fun h => (encodeTurns_enough s).1 (h _)⟩,
      ⟨decodeTurns_enough, fun h => h _⟩⟩

end Sys2Proof.Machine
end

section
/-! Reset while a transfer is in flight (spec/70_reset_and_hazards.md R250; log 4): a command reaches the transfer as it
does on any channel, and what it did to its registers before is lost. -/

namespace Sys2Proof.Machine
open Sys2Proof.Wire

/-! The transfer that reset cuts off. -/

theorem srcRead_reset {s : State} {consumed : Bool} {rest : List SrcEvent} (h : s.source = .reset consumed :: rest) :
    srcRead s = .ended (resetCore { s with source := if consumed then dropByte rest else rest }) := by
  rw [srcRead, h]

/-- The sink kept the byte in flight or did not (U6). -/
theorem snkWrite_reset {x : Byte} {s : State} {kept : Bool} {rest : List SnkEvent} (h : s.sink = .reset kept :: rest) :
    snkWrite x s = .ended (resetCore { s with sink := rest, output := s.output ++ if kept then [x] else [] }) := by
  rw [snkWrite, h]
  cases kept
  · simp
  · rfl

/-- The read after the bits ahead, cut off. -/
theorem srcRead_spent_reset {q : Byte} {d : DecoderState} {s : State} {consumed : Bool} {rest : List SrcEvent}
    (hr : s.readOk) (he : s.reoi = false) (hs : s.source = yields (sourceBytes s.source) (.reset consumed :: rest)) :
    srcRead (s.spent.decoder q d) =
      .ended (resetCore { s with source := if consumed then dropByte rest else rest }) := by
  obtain ⟨-, -, -, hsource⟩ := spent_facts hr he
  rw [srcRead_reset (s := s.spent.decoder q d) (hsource _ hs), State.spent, took_eq]
  rfl

/-! Commands on one channel. -/

/-- A get or DEC_SYM that asks for a bit after those ahead takes these and makes a read: what the source answers decides
how it goes on (R122, R123, R191). -/
theorem exec_asksForMore {i : Instr} {s : State} (hs : s.Inv) (hi : asksForMore i s) (he : s.reoi = false) :
    ∃ (q : Byte) (d : DecoderState) (g : SrcReply → State → Run Unit),
      exec i s = complete ((srcRead (s.spent.decoder q d)).andThen g) := by
  have hok : s.readOk := (inv_iff.1 hs).2.1
  obtain ⟨hr, hi⟩ := hi
  match i with
  | .getBit =>
    have hspent : s.spent = s := by rw [State.spent, hi, List.length_nil, took_zero]
    have hget := getBitInt_spent hok he
    rw [hspent] at hget
    rw [exec_getBit_open hr, hget, andThen_assoc, hspent]
    exact ⟨s.q, s.dst, _, rfl⟩
  | .getBits n =>
    rw [exec_getBits_open hi.1 hr, getBitsInt, getBitsFrom_more hok he hi.2, andThen_assoc, andThen_assoc]
    exact ⟨s.spent.q, s.spent.dst, _, rfl⟩
  | .decSym =>
    obtain ⟨hk, hd, hw⟩ := hi
    obtain ⟨q, d, g, h⟩ := decSymInt_more hok he hd hw
    rw [exec_decSym_open hr hk, h, andThen_assoc, andThen_assoc]
    exact ⟨q, d, _, rfl⟩
  | .openWr | .openRd | .close _ | .putBit _ | .putBits _ _ | .flush _ | .encSym _ | .encodePass | .decodePass =>
    cases hi

/-- Settles O11: the write-side commands write one bit string, whose byte number `j` is cut off; the others reach the
read after the bits ahead. -/
theorem resetAbandonsTheTransfer : Obligations.ResetAbandonsTheTransfer := by
  refine fun i s hs hf => ⟨fun l j kept rest hw hk hi hj hsink => ?_, fun consumed rest hi he hsource => ?_⟩
  · rw [exec_writer_open hi hw hf hk, putAll_reset hs.wacc_lt hj hsink, complete_ended]
  · obtain ⟨q, d, g, hexec⟩ := exec_asksForMore hs hi he
    rw [hexec, srcRead_spent_reset (inv_iff.1 hs).2.1 he hsource, andThen_ended, complete_ended]

/-! ENCODE. -/

/-- A command leaves of the source what some reads leave (R67). -/
theorem exec_source_left {i : Instr} {s t : State} (h : exec i s = .next t) : ∃ n, t.source = afterReads n s.source :=
  (exec_effect h).env.left

theorem encodeLoop_readReset {n : Nat} {s : State} {consumed : Bool} {rest : List SrcEvent}
    (hs : s.source = .reset consumed :: rest) :
    encodeLoop (n + 1) s = .ended (resetCore { s with source := if consumed then dropByte rest else rest }) := by
  rw [encodeLoop, srcRead_reset hs, andThen_ended]

theorem exec_encodePass_readReset {symbols : List Byte} {s : State} {consumed : Bool} {rest : List SrcEvent}
    (hp : s.srcPresent = true) (hq : s.snkPresent = true) (hk : s.k ≠ 0#3)
    (hs : s.source = yields symbols (.reset consumed :: rest))
    (ha : s.sinkAccepts (fullBytes (codeBits s.k.toNat symbols)).length) :
    exec .encodePass s = .next (resetCore
      { s with
        source := if consumed then dropByte rest else rest
        sink := afterWrites (fullBytes (codeBits s.k.toNat symbols)).length s.sink
        output := s.output ++ fullBytes (codeBits s.k.toNat symbols) }) := by
  obtain ⟨n, hrun⟩ := exec_encodePass_symbols hp hq hk hs ha
  rw [hrun, encodeLoop_readReset rfl, complete_ended]
  rfl

theorem exec_encodePass_writeReset {symbols : List Byte} {s : State} {j : Nat} {kept : Bool} {rest : List SnkEvent}
    {more : List SrcEvent} (hp : s.srcPresent = true) (hq : s.snkPresent = true) (hk : s.k ≠ 0#3)
    (hs : s.source = yields symbols (.answer .eoi :: more)) (hj : j < (streamBytes s.k.toNat true symbols).length)
    (hsink : s.sink = List.replicate j SnkEvent.ok ++ .reset kept :: rest) :
    ∃ n, exec .encodePass s = .next (resetCore
      { s with
        source := afterReads n s.source, sink := rest
        output := s.output ++ (streamBytes s.k.toNat true symbols).take (if kept then j + 1 else j) }) := by
  obtain ⟨ha, hafter⟩ := accepting_replicate j (.reset kept :: rest)
  rw [← hsink] at ha hafter
  obtain ⟨src, g, hexec⟩ := exec_encodePass_reach hp hq hk hs hj ha
  rw [snkWrite_reset hafter, andThen_ended, andThen_ended, complete_ended] at hexec
  obtain ⟨n, hn⟩ := exec_source_left hexec
  refine ⟨n, ?_⟩
  rw [hexec, ← hn, ← take_append_kept hj, ← List.append_assoc]
  rfl

/-! DECODE. -/

theorem exec_decodePass_readReset {bytes : List Byte} {s : State} {consumed : Bool} {rest : List SrcEvent}
    (hp : s.srcPresent = true) (hq : s.snkPresent = true) (hk : s.k ≠ 0#3)
    (hs : s.source = yields bytes (.reset consumed :: rest))
    (ha : s.sinkAccepts (decodeBits s.k.toNat (unpack bytes)).1.length) :
    ∃ out d, List.Forall₂ emits (decodeBits s.k.toNat (unpack bytes)).1 out ∧
      exec .decodePass s = .next (resetCore
        { s with
          source := if consumed then dropByte rest else rest, sink := afterWrites out.length s.sink
          output := s.output ++ out, draws := d }) := by
  obtain ⟨n, t, out, hrun, ht⟩ := decodePass_sends hs rfl hk (le_refl _) ha
  obtain ⟨htk, hd, -, he, -, -, -⟩ := ht.fields
  obtain ⟨q, d, g, hdec⟩ := decSymInt_more ht.readOk he hd (htk ▸ noWord_of_not_wholeWord ht.done)
  have hsent := ht.sent
  rw [List.take_length] at hsent
  refine ⟨out, t.draws, hsent, ?_⟩
  rw [exec_decodePass_attached hp hq hk, hrun, decodePassLoop, hdec, srcRead_spent_reset ht.readOk he ht.source,
    ← hsent.length_eq, ← ht.sink, ← ht.output, ht.same]
  rfl

/-- A turn of DECODE whose symbol's write is cut off. -/
theorem decodePassLoop_writeReset {n : Nat} {v : Byte} {s t : State} {kept : Bool} {rest : List SnkEvent}
    (hd : decSymInt s = .cont (some v) t) (ht : t.sink = .reset kept :: rest) :
    decodePassLoop (n + 1) s = .ended (resetCore
      { t with sink := rest, output := t.output ++ if kept then [v] else [] }) := by
  rw [decodePassLoop, hd, andThen_cont]
  simp only
  rw [snkWrite_reset ht, andThen_ended]

theorem exec_decodePass_writeReset {bytes : List Byte} {s : State} {j : Nat} {kept : Bool} {rest : List SnkEvent}
    {more : List SrcEvent} (hp : s.srcPresent = true) (hq : s.snkPresent = true) (hk : s.k ≠ 0#3)
    (hs : s.source = yields bytes (.answer .eoi :: more)) (hj : j < (decodeBits s.k.toNat (unpack bytes)).1.length)
    (hsink : s.sink = List.replicate j SnkEvent.ok ++ .reset kept :: rest) :
    ∃ n out d,
      List.Forall₂ emits ((decodeBits s.k.toNat (unpack bytes)).1.take (if kept then j + 1 else j)) out ∧
      exec .decodePass s = .next (resetCore
        { s with source := afterReads n s.source, sink := rest, output := s.output ++ out, draws := d }) := by
  obtain ⟨ha, hafter⟩ := accepting_replicate j (.reset kept :: rest)
  rw [← hsink] at ha hafter
  obtain ⟨n, t, out, hrun, ht⟩ := decodePass_sends hs rfl hk (le_of_lt hj) ha
  obtain ⟨htk, hd, hq0, -, -, -, -⟩ := ht.fields
  obtain ⟨⟨hbits, hrem⟩, hsym⟩ := ht.next hj
  obtain ⟨v, d, hv, hdec⟩ := decSymInt_word ht.readOk hd hq0 (htk ▸ hk) hbits (htk ▸ hrem)
  rw [htk, hsym] at hv
  rw [took_eq] at hdec
  have hexec := exec_decodePass_attached hp hq hk
  rw [hrun, decodePassLoop_writeReset hdec (ht.sink.trans hafter), complete_ended] at hexec
  obtain ⟨m, hm⟩ := exec_source_left hexec
  refine ⟨m, out ++ if kept then [v] else [], d, forall₂_take_kept kept hj ht.sent hv, ?_⟩
  rw [hexec, ← hm, ← List.append_assoc, ← ht.output, ht.same]
  rfl

/-- Settles O56: either pass reaches the transfer that reset cuts off as it reaches one that fails. -/
theorem resetAbandonsThePass : Obligations.ResetAbandonsThePass := by
  intro s bytes hp hq hk
  refine ⟨fun consumed rest hs ha => ?_, fun j kept rest more hs hj hsink => ?_, fun consumed rest hs ha => ?_,
    fun j kept rest more hs hj hsink => ?_⟩
  · exact exec_encodePass_readReset hp hq hk hs ha
  · exact exec_encodePass_writeReset hp hq hk hs hj hsink
  · exact exec_decodePass_readReset hp hq hk hs ha
  · exact exec_decodePass_writeReset hp hq hk hs hj hsink

end Sys2Proof.Machine
end
